-- ==== Sys2Proof/Word.lean ====
section
/-! DEFINITION. The word types of HCC and the names of its units, buffers and elements
(00_scope.md R8, R9; 10_state.md R20, R32 to R34). -/

namespace Sys2Proof

/-- A register is a 32-bit word (10_state.md R23); also a run count or an LZW code inside a buffer
(`CNT_W`, `CODE_W`, 00_scope.md R9). -/
abbrev Word := BitVec 32

/-- A byte of a container (10_state.md R32). -/
abbrev Byte := BitVec 8

/-- A symbol: one unsigned type of `SYM_W = 32` bits used by all three units (00_scope.md R8). -/
abbrev Sym := BitVec 32

/-- A bitstring, first bit first (00_scope.md section 5). -/
abbrev Bits := List Bool

/-- The three units (00_scope.md R2; 10_state.md R20). -/
inductive UnitId where
  | rle
  | huf
  | lzw
  deriving DecidableEq, Repr

/-- An element of `RLE.RUN` (10_state.md R34). -/
structure Run where
  sym : Sym
  cnt : Word
  deriving DecidableEq, Repr

/-- An element of `HUF.TAB` (10_state.md R33). -/
structure Entry where
  sym : Sym
  code : Bits
  deriving DecidableEq, Repr

/-- A symbol with a natural count: a pair of the run-list or an entry of the frequency table while a
command computes with it. Counts are naturals and do not wrap (00_scope.md R10; 40_rle.md R130;
41_huffman.md R161). -/
structure SymCount where
  sym : Sym
  cnt : Nat
  deriving DecidableEq, Repr

/-- The eleven buffers (10_state.md R32; 20_memory.md R60). -/
inductive Buf where
  | rleSym
  | rleRun
  | rleTxt
  | rleByt
  | hufSym
  | hufBit
  | hufTab
  | hufByt
  | lzwSym
  | lzwCod
  | lzwByt
  deriving DecidableEq, Repr

/-- One buffer element, of whichever type (10_state.md R32). -/
inductive Elem where
  | sym (v : Sym)
  | run (r : Run)
  | bit (b : Bool)
  | entry (e : Entry)
  | code (k : Word)
  | byte (b : Byte)
  deriving DecidableEq, Repr

end Sys2Proof
end

