-- ==== Sys2Proof/Config.lean ====
section
/-! DEFINITION. The parameters of one HCC instance (00_scope.md R9) and the free values the spec leaves
open (93_implementation_defined.md U1 to U3). -/

namespace Sys2Proof

/-- The OPEN capacities of 00_scope.md R9, arguments of the model (93_implementation_defined.md P1). -/
structure Config where
  capSym : Nat
  capRun : Nat
  capTxt : Nat
  capBit : Nat
  capTab : Nat
  capClen : Nat
  capCod : Nat
  capByt : Nat
  deriving DecidableEq, Repr

/-- `REFCFG` of 00_scope.md R9. -/
def Config.refcfg : Config where
  capSym := 65536
  capRun := 65536
  capTxt := 65536
  capBit := 65536
  capTab := 65536
  capClen := 256
  capCod := 65536
  capByt := 65536

/-- The small configuration of the second table of 95_test_vectors.md section 8. -/
def Config.small : Config where
  capSym := 8
  capRun := 2
  capTxt := 4
  capBit := 8
  capTab := 2
  capClen := 2
  capCod := 3
  capByt := 24

/-- The symbol a unit finds where the spec leaves a symbol open; the number is the unit's count of free
values drawn so far. No body: nothing is known of it (93_implementation_defined.md U1 to U3; log 2). -/
opaque Config.freeSym : UnitId → Nat → Sym

/-- A free 32-bit value: a run count, an LZW code or a length register (U1 to U3; log 2). -/
opaque Config.freeWord : UnitId → Nat → Word

/-- A free bit of `HUF.BIT` (U1 to U3; log 2). -/
opaque Config.freeBit : UnitId → Nat → Bool

/-- A free bitstring: the code of an open `HUF.TAB` entry (U1 to U3; log 2, log 17), or the code of a
symbol that has none (log 6). -/
opaque Config.freeBits : UnitId → Nat → Bits

/-- The word `ERRINFO` takes for a reported position of `2^32` or more, which the spec does not state
(60_exceptions.md R251; log 19). It depends on the position alone, so that a command that runs again on the
same sources reports the same (60_exceptions.md R255). -/
opaque Config.freePosition : Nat → Word

/-- A free byte of a container (U1 to U3; log 2). -/
opaque Config.freeByte : UnitId → Nat → Byte

end Sys2Proof
end

