-- ==== Sys2Proof/Syntax.lean ====
section
/-! DEFINITION. The fourteen commands (30_encoding.md R92), one constructor per row of
spec/opcode_table.json. A command has no operand fields: its buffers are implied (R91, R96). -/

namespace Sys2Proof

/-- The commands of HCC. -/
inductive Instr where
  /-- `RLE.ENC`, the source's `rle_compress` (40_rle.md R131). -/
  | rleEnc
  /-- `RLE.DEC`, `rle_decompress` (40_rle.md R133). -/
  | rleDec
  /-- `RLE.ENCB`, `rle_compress_to_bytes` (40_rle.md R134). -/
  | rleEncb
  /-- `RLE.DECB`, `rle_decompress_from_bytes` (40_rle.md R135). -/
  | rleDecb
  /-- `RLE.ENCS`, `compress_string` (40_rle.md R137). -/
  | rleEncs
  /-- `RLE.DECS`, `decompress_string` (40_rle.md R139). -/
  | rleDecs
  /-- `HUF.ENC`, `huffman_compress` (41_huffman.md R172). -/
  | hufEnc
  /-- `HUF.DEC`, `huffman_decompress` (41_huffman.md R173). -/
  | hufDec
  /-- `HUF.ENCB`, `huffman_compress_to_bytes` (41_huffman.md R174). -/
  | hufEncb
  /-- `HUF.DECB`, `huffman_decompress_from_bytes` (41_huffman.md R175). -/
  | hufDecb
  /-- `LZW.ENC`, `lzw_compress` (42_lzw.md R215). -/
  | lzwEnc
  /-- `LZW.DEC`, `lzw_decompress` (42_lzw.md R216). -/
  | lzwDec
  /-- `LZW.ENCB`, `lzw_compress_to_bytes` (42_lzw.md R217). -/
  | lzwEncb
  /-- `LZW.DECB`, `lzw_decompress_from_bytes` (42_lzw.md R218). -/
  | lzwDecb
  deriving DecidableEq, Repr

/-- The unit that owns a command (30_encoding.md R92). -/
def Instr.unit : Instr → UnitId
  | .rleEnc => .rle
  | .rleDec => .rle
  | .rleEncb => .rle
  | .rleDecb => .rle
  | .rleEncs => .rle
  | .rleDecs => .rle
  | .hufEnc => .huf
  | .hufDec => .huf
  | .hufEncb => .huf
  | .hufDecb => .huf
  | .lzwEnc => .lzw
  | .lzwDec => .lzw
  | .lzwEncb => .lzw
  | .lzwDecb => .lzw

/-- The decoders: `DEC`, `DECB`, `DECS` (30_encoding.md R93); the others are the encoders. -/
def Instr.isDecoder : Instr → Bool
  | .rleEnc => false
  | .rleDec => true
  | .rleEncb => false
  | .rleDecb => true
  | .rleEncs => false
  | .rleDecs => true
  | .hufEnc => false
  | .hufDec => true
  | .hufEncb => false
  | .hufDecb => true
  | .lzwEnc => false
  | .lzwDec => true
  | .lzwEncb => false
  | .lzwDecb => true

end Sys2Proof
end

