-- ==== Sys2Proof/WellFormed.lean ====
section
/-! DEFINITION. Well-formedness: a command for the unit it is given to, a configuration within the
ranges of 00_scope.md R9, an element of a buffer's type (10_state.md R32, R33). -/

namespace Sys2Proof

/-- A command is legal only for the unit that owns it (30_encoding.md R92, R94). It has no other part
that could be ill formed. -/
def Instr.wellFormedFor (u : UnitId) (i : Instr) : Bool := i.unit == u

/-- The ranges of 00_scope.md R9. -/
def Config.wellFormed (c : Config) : Bool :=
  decide (1 ≤ c.capSym ∧ c.capSym ≤ 2 ^ 32 - 257) &&
  decide (1 ≤ c.capRun ∧ c.capRun ≤ 2 ^ 32 - 1) &&
  decide (1 ≤ c.capTxt ∧ c.capTxt ≤ 2 ^ 32 - 1) &&
  decide (1 ≤ c.capBit ∧ c.capBit ≤ 2 ^ 32 - 1) &&
  decide (1 ≤ c.capTab ∧ c.capTab ≤ 2 ^ 32 - 1) &&
  decide (1 ≤ c.capClen ∧ c.capClen ≤ 2 ^ 32 - 1) &&
  decide (1 ≤ c.capCod ∧ c.capCod ≤ 2 ^ 32 - 1) &&
  decide (1 ≤ c.capByt ∧ c.capByt ≤ 2 ^ 32 - 1)

/-- A `HUF.TAB` entry's code has at most `CAP_CLEN` bits (10_state.md R33). -/
def Entry.wellFormed (c : Config) (e : Entry) : Bool := decide (e.code.length ≤ c.capClen)

/-- `v` is a value of the element type of buffer `b` (10_state.md R32, R33; 20_memory.md R66). -/
def Elem.fits (c : Config) (b : Buf) (v : Elem) : Bool :=
  match b, v with
  | .rleSym, .sym _ => true
  | .rleRun, .run _ => true
  | .rleTxt, .sym _ => true
  | .rleByt, .byte _ => true
  | .hufSym, .sym _ => true
  | .hufBit, .bit _ => true
  | .hufTab, .entry e => e.wellFormed c
  | .hufByt, .byte _ => true
  | .lzwSym, .sym _ => true
  | .lzwCod, .code _ => true
  | .lzwByt, .byte _ => true
  | _, _ => false

end Sys2Proof
end

