-- ==== Sys2Proof/Decode.lean ====
section
/-! DEFINITION. The command word (30_encoding.md R90 to R95): its fields, the decoder, which rejects every
illegal word by name, and after it the encoder. -/

namespace Sys2Proof

/-- Why a command word is illegal for the unit it is written to (30_encoding.md R94). -/
inductive Illegal where
  /-- `W[31:8] != 0`. -/
  | zeroField
  /-- The `unit` field is 0 or 4 to 15. -/
  | noUnit
  /-- The `unit` field names another unit than the one whose `CMD` was written. -/
  | otherUnit
  /-- The unit has no such `func`: 6 to 15 in RLE, 4 to 15 in HUF and LZW. -/
  | noFunc
  deriving DecidableEq, Repr

/-- Field `zero`, bits 31:8 (30_encoding.md R91). -/
def zeroField (w : Word) : BitVec 24 := w.extractLsb' 8 24

/-- Field `unit`, bits 7:4 (30_encoding.md R91). -/
def unitField (w : Word) : BitVec 4 := w.extractLsb' 4 4

/-- Field `func`, bits 3:0 (30_encoding.md R91). -/
def funcField (w : Word) : BitVec 4 := w.extractLsb' 0 4

/-- The unit a `unit` field names (30_encoding.md R91). -/
def unitOfNumber (n : Nat) : Option UnitId :=
  match n with
  | 1 => some .rle
  | 2 => some .huf
  | 3 => some .lzw
  | _ => none

/-- The operation a `func` field names within a unit (30_encoding.md R92). -/
def instrOfFunc (u : UnitId) (n : Nat) : Option Instr :=
  match u, n with
  | .rle, 0 => some .rleEnc
  | .rle, 1 => some .rleDec
  | .rle, 2 => some .rleEncb
  | .rle, 3 => some .rleDecb
  | .rle, 4 => some .rleEncs
  | .rle, 5 => some .rleDecs
  | .huf, 0 => some .hufEnc
  | .huf, 1 => some .hufDec
  | .huf, 2 => some .hufEncb
  | .huf, 3 => some .hufDecb
  | .lzw, 0 => some .lzwEnc
  | .lzw, 1 => some .lzwDec
  | .lzw, 2 => some .lzwEncb
  | .lzw, 3 => some .lzwDecb
  | _, _ => none

/-- What the word `w` means when it is written to the `CMD` register of unit `u`: the command, or the
reason it is illegal (30_encoding.md R92, R94). -/
def decode (u : UnitId) (w : Word) : Except Illegal Instr :=
  if zeroField w ≠ 0 then .error .zeroField
  else
    match unitOfNumber (unitField w).toNat with
    | none => .error .noUnit
    | some v =>
      if v ≠ u then .error .otherUnit
      else
        match instrOfFunc u (funcField w).toNat with
        | none => .error .noFunc
        | some i => .ok i

/-- The command word of a command (30_encoding.md R92, the table's first column). -/
def encode : Instr → Word
  | .rleEnc => 0x00000010
  | .rleDec => 0x00000011
  | .rleEncb => 0x00000012
  | .rleDecb => 0x00000013
  | .rleEncs => 0x00000014
  | .rleDecs => 0x00000015
  | .hufEnc => 0x00000020
  | .hufDec => 0x00000021
  | .hufEncb => 0x00000022
  | .hufDecb => 0x00000023
  | .lzwEnc => 0x00000030
  | .lzwDec => 0x00000031
  | .lzwEncb => 0x00000032
  | .lzwDecb => 0x00000033

/-- The command word of a number that the opcode table gives `nbits` bits; every bit above them is 0. -/
def tableWord (nbits w : Nat) : Word := BitVec.ofNat 32 (w % 2 ^ nbits)

/-- The unit whose `CMD` a table word goes to: the one its `unit` field names; RLE for a word that names
none, which is illegal in every unit. -/
def tableUnit (w : Word) : UnitId := (unitOfNumber (unitField w).toNat).getD .rle

/-- The command the decoder reads from a word of the opcode table, written to the unit it names. -/
def decodeTableWord (nbits w : Nat) : Option Instr :=
  match decode (tableUnit (tableWord nbits w)) (tableWord nbits w) with
  | .ok i => some i
  | .error _ => none

end Sys2Proof
end

