-- ==== Sys2Proof/Machine/State.lean ====
section
/-! DEFINITION. The state of HCC: the product of the three unit states (10_state.md R20: registers, buffers,
scratch), the parameters of the instance, and the model's own fields (what happens next, free-value counters, port answers). -/

namespace Sys2Proof.Machine

/-- Why a step stops with a fault: never. HCC has no stuck state and no hang (70_reset_and_hazards.md
R296); the spec's errors are reports in `STATUS`, `ERR`, `ERRINFO`, ordinary next states. -/
inductive Fault where
  deriving DecidableEq, Repr

/-- Why a step has no meaning. -/
inductive Refusal where
  /-- A command that has no meaning yet. Raised by no arm of `exec`: every command is modelled. -/
  | notModelled (mnemonic : String)
  /-- Raised by `step` on a `BufWrite` event whose value is not a value of the buffer's element type
  (20_memory.md R66): the port has no such operation. Safe: the machine stops (log 8). -/
  | notAnElement
  deriving DecidableEq, Repr

/-- The error causes; `EmptyInput` is none of them (60_exceptions.md R241, R242). -/
inductive Cause where
  | malformedSerializedData
  | corruptedData
  | invalidPrefixCode
  | corruptedLZWStream
  | unsupportedSymbolRange
  | badCodeTable
  | capacityExceeded
  | illegalCommand
  deriving DecidableEq, Repr

/-- `raise Cause(info)`: what an operation that fails reports (00_scope.md section 5; 60_exceptions.md
R251). -/
structure Report where
  cause : Cause
  info : Nat
  deriving DecidableEq, Repr

/-- One buffer: (index, element) pairs, indices strictly rising, one for each element written since reset.
An element not listed is unspecified (93_implementation_defined.md U1; log 16). -/
abbrev Memory (α : Type) := List (Nat × α)

/-- The control registers of a unit, numbers 0 to 3 (10_state.md R23). -/
structure Ctrl where
  cmd : Word
  status : Word
  err : Word
  errInfo : Word
  deriving DecidableEq, Repr

/-! ### Scratch (10_state.md R36): what a unit builds during one command and discards at its end (log 4) -/

/-- Scratch of RLE: the scan index; the current run; the internal run-list of `ENCB`, `DECB`, `ENCS`; the
digit accumulator of `DECS`. -/
structure RleScratch where
  index : Nat
  current : Option SymCount
  runs : List SymCount
  digits : Nat
  deriving DecidableEq, Repr

/-- A Huffman tree node: a leaf holds one symbol, an internal node has exactly two children; both have a
weight and a sequence number (41_huffman.md R163, R164). -/
inductive HuffNode where
  | leaf (sym : Sym) (w seq : Nat)
  | node (left right : HuffNode) (w seq : Nat)
  deriving DecidableEq, Repr

/-- The tree builder: the priority queue of tree nodes and the sequence counter (41_huffman.md R163). -/
structure TreeBuilder where
  queue : List HuffNode
  next : Nat
  deriving DecidableEq, Repr

/-- Scratch of HUF: the scan index; the frequency table; the priority queue with the tree nodes and the
sequence counter; the code table and the bitstring of `ENCB` and `DECB`; the decoder's bit buffer; the
padding. -/
structure HufScratch where
  index : Nat
  freq : List SymCount
  builder : TreeBuilder
  table : List Entry
  bits : Bits
  buf : Bits
  pad : Nat
  deriving DecidableEq, Repr

/-- Scratch of LZW: the scan index; the dictionary entries added to the seed (42_lzw.md R211); the next
code; the match buffer; the internal code sequence of `ENCB` and `DECB`. -/
structure LzwScratch where
  index : Nat
  added : List (List Sym × Nat)
  nextCode : Nat
  w : List Sym
  codes : List Nat
  deriving DecidableEq, Repr

/-- The initial values of RLE's scratch (10_state.md R35; 40_rle.md R130, R138). -/
def RleScratch.init : RleScratch where
  index := 0
  current := none
  runs := []
  digits := 0

/-- The initial values of HUF's scratch (10_state.md R35; 41_huffman.md R161 to R169). -/
def HufScratch.init : HufScratch where
  index := 0
  freq := []
  builder := ⟨[], 0⟩
  table := []
  bits := []
  buf := []
  pad := 0

/-- The initial values of LZW's scratch: the dictionary is its seed, `next_code` is 256 (10_state.md R35;
42_lzw.md R211, R212). -/
def LzwScratch.init : LzwScratch where
  index := 0
  added := []
  nextCode := 256
  w := []
  codes := []

/-- What a read operation of the host port returned (20_memory.md R66). -/
inductive Reply where
  | word (v : Word)
  | elem (v : Elem)
  deriving DecidableEq, Repr

/-- The model's own part of a unit: how many free values it has drawn (log 2) and the answer to the last
read of it (log 11). -/
structure Aux where
  free : Nat
  reply : Option Reply
  deriving DecidableEq, Repr

/-- Unit RLE (10_state.md R23, R32, R36). `scratch` exists while a command is in progress (R40). -/
structure RleUnit where
  ctrl : Ctrl
  symLen : Word
  runLen : Word
  bytLen : Word
  txtLen : Word
  sym : Memory Sym
  run : Memory Run
  txt : Memory Sym
  byt : Memory Byte
  scratch : Option RleScratch
  aux : Aux
  deriving DecidableEq, Repr

/-- Unit HUF (10_state.md R23, R32, R36). -/
structure HufUnit where
  ctrl : Ctrl
  symLen : Word
  bitLen : Word
  tabLen : Word
  bytLen : Word
  sym : Memory Sym
  bit : Memory Bool
  tab : Memory Entry
  byt : Memory Byte
  scratch : Option HufScratch
  aux : Aux
  deriving DecidableEq, Repr

/-- Unit LZW (10_state.md R23, R32, R36). -/
structure LzwUnit where
  ctrl : Ctrl
  symLen : Word
  codLen : Word
  bytLen : Word
  sym : Memory Sym
  cod : Memory Word
  byt : Memory Byte
  scratch : Option LzwScratch
  aux : Aux
  deriving DecidableEq, Repr

/-- The operations of the host port (20_memory.md R66); `n` is a register number, `i` an element index. -/
inductive PortOp where
  | regRead (u : UnitId) (n : Nat)
  | regWrite (u : UnitId) (n : Nat) (v : Word)
  | bufRead (b : Buf) (i : Nat)
  | bufWrite (b : Buf) (i : Nat) (v : Elem)
  deriving DecidableEq, Repr

/-- What can happen next: a port operation takes effect, a busy unit completes, the reset input is
asserted (20_memory.md R71; 10_state.md R37; 70_reset_and_hazards.md R280). -/
inductive Event where
  | port (op : PortOp)
  | complete (u : UnitId)
  | reset
  deriving DecidableEq, Repr

/-- The state of the machine. `agenda` is the model's own: what happens next, oldest first. The spec does
not fix when a unit completes (70_reset_and_hazards.md R293), so every order of events is some agenda
(log 3). `cfg` never changes (log 1). -/
structure State where
  cfg : Config
  rle : RleUnit
  huf : HufUnit
  lzw : LzwUnit
  agenda : List Event
  deriving DecidableEq, Repr

/-- Control registers after reset: phase IDLE (10_state.md R40). -/
def Ctrl.reset : Ctrl where
  cmd := 0
  status := 0
  err := 0
  errInfo := 0

/-- The model's own fields at the start of a run (DESIGN CHOICE, log 2 and log 11; no statement rests on
them). -/
def Aux.reset : Aux where
  free := 0
  reply := none

/-- Unit RLE after reset, its own model fields given (10_state.md R40). -/
def RleUnit.reset (a : Aux) : RleUnit where
  ctrl := .reset
  symLen := 0
  runLen := 0
  bytLen := 0
  txtLen := 0
  sym := []
  run := []
  txt := []
  byt := []
  scratch := none
  aux := a

/-- Unit HUF after reset (10_state.md R40). -/
def HufUnit.reset (a : Aux) : HufUnit where
  ctrl := .reset
  symLen := 0
  bitLen := 0
  tabLen := 0
  bytLen := 0
  sym := []
  bit := []
  tab := []
  byt := []
  scratch := none
  aux := a

/-- Unit LZW after reset (10_state.md R40). -/
def LzwUnit.reset (a : Aux) : LzwUnit where
  ctrl := .reset
  symLen := 0
  codLen := 0
  bytLen := 0
  sym := []
  cod := []
  byt := []
  scratch := none
  aux := a

/-- The machine right after reset (10_state.md R40; 70_reset_and_hazards.md R280), with the reference
capacities (DESIGN CHOICE, log 1) and nothing on the agenda (DESIGN CHOICE, log 3). -/
def State.reset : State where
  cfg := .refcfg
  rle := .reset .reset
  huf := .reset .reset
  lzw := .reset .reset
  agenda := []

end Sys2Proof.Machine
end

