-- ==== Sys2Proof/Machine/Flags.lean ====
section
/-! DEFINITION. The `STATUS` register: its fields (10_state.md R25), its phases (R26), the `EMPTY` flag (R27),
and the cause codes of `ERR` (60_exceptions.md R241). -/

namespace Sys2Proof.Machine

/-- Phase IDLE (10_state.md R26). -/
def statusIdle : Word := 0x0

/-- Phase BUSY (10_state.md R26). -/
def statusBusy : Word := 0x1

/-- Phase DONE; `EMPTY` is bit 3 (10_state.md R25, R26, R37). -/
def statusDone (empty : Bool) : Word := if empty then 0xA else 0x2

/-- Phase ERROR (10_state.md R26; 60_exceptions.md R251). -/
def statusError : Word := 0x4

/-- `STATUS.BUSY`, bit 0 (10_state.md R25). -/
def Ctrl.busy (c : Ctrl) : Bool := c.status.getLsbD 0

/-- `STATUS.DONE`, bit 1 (10_state.md R25). -/
def Ctrl.done (c : Ctrl) : Bool := c.status.getLsbD 1

/-- `STATUS.ERROR`, bit 2 (10_state.md R25). -/
def Ctrl.error (c : Ctrl) : Bool := c.status.getLsbD 2

/-- `STATUS.EMPTY`, bit 3 (10_state.md R25). -/
def Ctrl.empty (c : Ctrl) : Bool := c.status.getLsbD 3

/-- `EMPTY` is computed from the unit's `SYM_LEN` as it stands after the destination lengths are written
(10_state.md R27, R37). -/
def emptyFlag (symLen : Word) : Bool := decide (symLen = 0)

/-- The value of `ERR` (60_exceptions.md R241). -/
def Cause.code : Cause → Word
  | .malformedSerializedData => 1
  | .corruptedData => 2
  | .invalidPrefixCode => 3
  | .corruptedLZWStream => 4
  | .unsupportedSymbolRange => 5
  | .badCodeTable => 6
  | .capacityExceeded => 7
  | .illegalCommand => 8

/-- The causes each command can end with (60_exceptions.md R241, last column). -/
def causesOf : Instr → List Cause
  | .rleEnc => [.capacityExceeded]
  | .rleDec => [.capacityExceeded]
  | .rleEncb => [.capacityExceeded]
  | .rleDecb => [.malformedSerializedData, .corruptedData, .capacityExceeded]
  | .rleEncs => [.capacityExceeded]
  | .rleDecs => [.malformedSerializedData, .capacityExceeded]
  | .hufEnc => [.capacityExceeded]
  | .hufDec => [.invalidPrefixCode, .badCodeTable, .capacityExceeded]
  | .hufEncb => [.capacityExceeded]
  | .hufDecb => [.malformedSerializedData, .corruptedData, .invalidPrefixCode, .capacityExceeded]
  | .lzwEnc => [.unsupportedSymbolRange, .capacityExceeded]
  | .lzwDec => [.corruptedLZWStream, .capacityExceeded]
  | .lzwEncb => [.unsupportedSymbolRange, .capacityExceeded]
  | .lzwDecb => [.malformedSerializedData, .corruptedLZWStream, .capacityExceeded]

end Sys2Proof.Machine
end

