-- ==== Sys2Proof/Machine/Ops.lean ====
section
/-! DEFINITION. The named operations over buffers and registers: reading and writing elements, a whole
content, the life of a command (acceptance, completion, error entry), access to a unit by its name. -/

namespace Sys2Proof.Machine

/-! ### Buffers -/

/-- The element at index `i`, if it was written since reset (20_memory.md R66, `MemRead`). -/
def Memory.get {α : Type} (m : Memory α) (i : Nat) : Option α :=
  match m with
  | [] => none
  | (j, v) :: rest => if i = j then some v else Memory.get rest i

/-- Store `v` at index `i` (20_memory.md R66, `MemWrite`), keeping the indices strictly rising. -/
def Memory.set {α : Type} (m : Memory α) (i : Nat) (v : α) : Memory α :=
  match m with
  | [] => [(i, v)]
  | (j, x) :: rest =>
    if i < j then (i, v) :: (j, x) :: rest
    else if i = j then (i, v) :: rest
    else (j, x) :: Memory.set rest i v

/-- The pairs (index, element) of a sequence whose first index is `i`. -/
def indexed {α : Type} (i : Nat) : List α → Memory α
  | [] => []
  | x :: xs => (i, x) :: indexed (i + 1) xs

/-- A completed command's write of a destination: elements `0 .. len` are replaced, elements at higher
indices stay (10_state.md R37). -/
def Memory.store {α : Type} (m : Memory α) (xs : List α) : Memory α :=
  indexed 0 xs ++ m.filter (fun c => decide (xs.length ≤ c.1))

/-- The content of a buffer with `n` valid elements (10_state.md R31): index by index the element written
there, or `none` where nothing was written since reset. -/
def Memory.content {α : Type} (m : Memory α) (n : Nat) : List (Option α) :=
  (List.range n).map m.get

/-- The canonical form: indices strictly rising (log 16). -/
abbrev Memory.wf {α : Type} (m : Memory α) : Prop := (m.map Prod.fst).Pairwise (· < ·)

/-- Every listed index is below the capacity (10_state.md R31; 20_memory.md R64). -/
abbrev Memory.within {α : Type} (m : Memory α) (cap : Nat) : Prop := ∀ c ∈ m, c.1 < cap

/-- One reading of a sequence with open places: each takes a fresh free value, the `k`-th, `k+1`-th, …;
the result comes with the number of the next free value (20_memory.md R76; log 2). -/
def resolve {α : Type} (free : Nat → α) (k : Nat) : List (Option α) → List α × Nat
  | [] => ([], k)
  | some v :: xs =>
    let r := resolve free k xs
    (v :: r.1, r.2)
  | none :: xs =>
    let r := resolve free (k + 1) xs
    (free k :: r.1, r.2)

/-! ### The life of a command -/

/-- Acceptance of the word `w` (10_state.md R35). -/
def Ctrl.accept (w : Word) : Ctrl where
  cmd := w
  status := statusBusy
  err := 0
  errInfo := 0

/-- Completion without error: `STATUS` only; `CMD`, `ERR`, `ERRINFO` keep their values (10_state.md
R37). -/
def Ctrl.complete (c : Ctrl) (empty : Bool) : Ctrl := { c with status := statusDone empty }

/-- Error entry (60_exceptions.md R251; 10_state.md R38): the one operation by which every error is
reported; `info` is the word `ERRINFO` takes. There is no return operation: the next acceptance clears the
report (60_exceptions.md R254). -/
def Ctrl.raise (c : Ctrl) (e : Cause) (info : Word) : Ctrl :=
  { c with status := statusError, err := e.code, errInfo := info }

/-- The word of a reported position. The spec says it is below `2^32` in every case (60_exceptions.md R251);
it states no value where it is not (`InvalidPrefixCode` of `HUF.DECB` beyond `2^32` bits), so that value is
free, one for each position (60_exceptions.md R255; log 19). -/
def errInfoOf (info : Nat) : Word :=
  if info < 2 ^ 32 then BitVec.ofNat 32 info else Config.freePosition info

/-! ### A unit by its name -/

/-- The control registers of a unit. -/
def State.ctrl (s : State) : UnitId → Ctrl
  | .rle => s.rle.ctrl
  | .huf => s.huf.ctrl
  | .lzw => s.lzw.ctrl

/-- Replace the control registers of a unit. -/
def State.setCtrl (s : State) (u : UnitId) (c : Ctrl) : State :=
  match u with
  | .rle => { s with rle := { s.rle with ctrl := c } }
  | .huf => { s with huf := { s.huf with ctrl := c } }
  | .lzw => { s with lzw := { s.lzw with ctrl := c } }

/-- The model's own part of a unit. -/
def State.aux (s : State) : UnitId → Aux
  | .rle => s.rle.aux
  | .huf => s.huf.aux
  | .lzw => s.lzw.aux

/-- Replace the model's own part of a unit. -/
def State.setAux (s : State) (u : UnitId) (a : Aux) : State :=
  match u with
  | .rle => { s with rle := { s.rle with aux := a } }
  | .huf => { s with huf := { s.huf with aux := a } }
  | .lzw => { s with lzw := { s.lzw with aux := a } }

/-- `u.STATUS.BUSY = 1`. -/
def State.busy (s : State) (u : UnitId) : Bool := (s.ctrl u).busy

/-- Unit `u`'s scratch takes its initial values (10_state.md R35, R36). -/
def State.freshScratch (s : State) (u : UnitId) : State :=
  match u with
  | .rle => { s with rle := { s.rle with scratch := some .init } }
  | .huf => { s with huf := { s.huf with scratch := some .init } }
  | .lzw => { s with lzw := { s.lzw with scratch := some .init } }

/-- Unit `u`'s scratch is dropped (10_state.md R36; 60_exceptions.md R251). -/
def State.dropScratch (s : State) (u : UnitId) : State :=
  match u with
  | .rle => { s with rle := { s.rle with scratch := none } }
  | .huf => { s with huf := { s.huf with scratch := none } }
  | .lzw => { s with lzw := { s.lzw with scratch := none } }

/-- Acceptance of the word `w` by unit `u` (10_state.md R35): no buffer and no length register changes. -/
def State.accept (s : State) (u : UnitId) (w : Word) : State :=
  (s.setCtrl u (Ctrl.accept w)).freshScratch u

/-- The number of free values unit `u` has drawn is now `k` (log 2). -/
def State.setFree (s : State) (u : UnitId) (k : Nat) : State :=
  s.setAux u { s.aux u with free := k }

/-- Error entry in unit `u`: the report is written, scratch is dropped, nothing else changes
(60_exceptions.md R251, R253). -/
def State.raise (s : State) (u : UnitId) (r : Report) : State :=
  (s.setCtrl u ((s.ctrl u).raise r.cause (errInfoOf r.info))).dropScratch u

/-- The port answers a read of unit `u` (20_memory.md R66; log 11). -/
def State.answer (s : State) (u : UnitId) (r : Reply) : State :=
  s.setAux u { s.aux u with reply := some r }

/-- The port answers a read of unit `u` with the next free value (U1 to U3). -/
def State.answerFree (s : State) (u : UnitId) (f : Nat → Reply) : State :=
  s.setAux u { free := (s.aux u).free + 1, reply := some (f (s.aux u).free) }

end Sys2Proof.Machine
end

