-- ==== Sys2Proof/Machine/Operands.lean ====
section
/-! DEFINITION. The operands of a command: its fixed buffers (30_encoding.md R96), reading a source
(20_memory.md R73), the capacity limits and the order of checks (60_exceptions.md R249, R252), and writing
the destinations at completion (10_state.md R37). -/

namespace Sys2Proof

/-- The unit a buffer belongs to (20_memory.md R60). -/
def Buf.unit : Buf → UnitId
  | .rleSym => .rle
  | .rleRun => .rle
  | .rleTxt => .rle
  | .rleByt => .rle
  | .hufSym => .huf
  | .hufBit => .huf
  | .hufTab => .huf
  | .hufByt => .huf
  | .lzwSym => .lzw
  | .lzwCod => .lzw
  | .lzwByt => .lzw

/-- The id `CapacityExceeded` reports (10_state.md R32). -/
def Buf.id : Buf → Nat
  | .rleSym => 0
  | .hufSym => 0
  | .lzwSym => 0
  | .rleRun => 1
  | .hufBit => 2
  | .hufTab => 3
  | .lzwCod => 4
  | .rleByt => 5
  | .hufByt => 5
  | .lzwByt => 5
  | .rleTxt => 6

/-- Id 7 names the code-length limit `CAP_CLEN` (10_state.md R32). -/
def clenId : Nat := 7

/-- The capacity of a buffer (10_state.md R32; one `CAP_` value for every unit, 00_scope.md R9). -/
def Config.cap (c : Config) : Buf → Nat
  | .rleSym => c.capSym
  | .hufSym => c.capSym
  | .lzwSym => c.capSym
  | .rleRun => c.capRun
  | .hufBit => c.capBit
  | .hufTab => c.capTab
  | .lzwCod => c.capCod
  | .rleByt => c.capByt
  | .hufByt => c.capByt
  | .lzwByt => c.capByt
  | .rleTxt => c.capTxt

/-- The source buffers of a command (30_encoding.md R96). -/
def Instr.sources : Instr → List Buf
  | .rleEnc => [.rleSym]
  | .rleDec => [.rleRun]
  | .rleEncb => [.rleSym]
  | .rleDecb => [.rleByt]
  | .rleEncs => [.rleSym]
  | .rleDecs => [.rleTxt]
  | .hufEnc => [.hufSym]
  | .hufDec => [.hufBit, .hufTab]
  | .hufEncb => [.hufSym]
  | .hufDecb => [.hufByt]
  | .lzwEnc => [.lzwSym]
  | .lzwDec => [.lzwCod]
  | .lzwEncb => [.lzwSym]
  | .lzwDecb => [.lzwByt]

/-- The destination buffers of a command (30_encoding.md R96). -/
def Instr.destinations : Instr → List Buf
  | .rleEnc => [.rleRun]
  | .rleDec => [.rleSym]
  | .rleEncb => [.rleByt]
  | .rleDecb => [.rleSym]
  | .rleEncs => [.rleTxt]
  | .rleDecs => [.rleSym]
  | .hufEnc => [.hufBit, .hufTab]
  | .hufDec => [.hufSym]
  | .hufEncb => [.hufByt]
  | .hufDecb => [.hufSym]
  | .lzwEnc => [.lzwCod]
  | .lzwDec => [.lzwSym]
  | .lzwEncb => [.lzwByt]
  | .lzwDecb => [.lzwSym]

namespace Machine

/-! ### Lengths and capacities -/

/-- The length register of a buffer (10_state.md R30, R31). -/
def State.len (s : State) : Buf → Word
  | .rleSym => s.rle.symLen
  | .rleRun => s.rle.runLen
  | .rleTxt => s.rle.txtLen
  | .rleByt => s.rle.bytLen
  | .hufSym => s.huf.symLen
  | .hufBit => s.huf.bitLen
  | .hufTab => s.huf.tabLen
  | .hufByt => s.huf.bytLen
  | .lzwSym => s.lzw.symLen
  | .lzwCod => s.lzw.codLen
  | .lzwByt => s.lzw.bytLen

/-- A sequence of length `need`, held to the capacity `cap` under the id `id` (60_exceptions.md R249). -/
structure Limit where
  id : Nat
  need : Nat
  cap : Nat
  deriving DecidableEq, Repr

/-- The limit of a sequence of the kind of buffer `b` (60_exceptions.md R249). -/
def limitOf (c : Config) (b : Buf) (need : Nat) : Limit where
  id := b.id
  need := need
  cap := c.cap b

/-- The length of the longest code of a table. -/
def longestCode (C : List Entry) : Nat := C.foldl (fun n e => max n e.code.length) 0

/-- The limit `CAP_CLEN` on every code of a table (60_exceptions.md R249). -/
def clenLimit (c : Config) (C : List Entry) : Limit where
  id := clenId
  need := longestCode C
  cap := c.capClen

/-- The least id among the limits exceeded (60_exceptions.md R249). -/
def leastExceeded (ls : List Limit) : Option Nat :=
  ((ls.filter (fun l => decide (l.cap < l.need))).map Limit.id).min?

/-- Check 2 of 60_exceptions.md R252: a source whose length register exceeds its capacity. -/
def State.sourceOverflow (s : State) (i : Instr) : Option Nat :=
  leastExceeded (i.sources.map (fun b => limitOf s.cfg b (s.len b).toNat))

/-! ### Reading a source: its content, open elements taking free values (20_memory.md R73, R76) -/

/-- A free `RLE.RUN` pair. -/
def freeRun (k : Nat) : Run where
  sym := Config.freeSym .rle k
  cnt := Config.freeWord .rle k

/-- A free `HUF.TAB` entry; its code has at most `CAP_CLEN` bits (10_state.md R33; log 17). -/
def freeEntry (c : Config) (k : Nat) : Entry where
  sym := Config.freeSym .huf k
  code := (Config.freeBits .huf k).take c.capClen

def RleUnit.readSym (x : RleUnit) (k : Nat) : List Sym × Nat :=
  resolve (Config.freeSym .rle) k (x.sym.content x.symLen.toNat)

def RleUnit.readRun (x : RleUnit) (k : Nat) : List Run × Nat :=
  resolve freeRun k (x.run.content x.runLen.toNat)

def RleUnit.readTxt (x : RleUnit) (k : Nat) : List Sym × Nat :=
  resolve (Config.freeSym .rle) k (x.txt.content x.txtLen.toNat)

def RleUnit.readByt (x : RleUnit) (k : Nat) : List Byte × Nat :=
  resolve (Config.freeByte .rle) k (x.byt.content x.bytLen.toNat)

def HufUnit.readSym (x : HufUnit) (k : Nat) : List Sym × Nat :=
  resolve (Config.freeSym .huf) k (x.sym.content x.symLen.toNat)

def HufUnit.readBit (x : HufUnit) (k : Nat) : Bits × Nat :=
  resolve (Config.freeBit .huf) k (x.bit.content x.bitLen.toNat)

def HufUnit.readTab (x : HufUnit) (c : Config) (k : Nat) : List Entry × Nat :=
  resolve (freeEntry c) k (x.tab.content x.tabLen.toNat)

def HufUnit.readByt (x : HufUnit) (k : Nat) : List Byte × Nat :=
  resolve (Config.freeByte .huf) k (x.byt.content x.bytLen.toNat)

def LzwUnit.readSym (x : LzwUnit) (k : Nat) : List Sym × Nat :=
  resolve (Config.freeSym .lzw) k (x.sym.content x.symLen.toNat)

def LzwUnit.readCod (x : LzwUnit) (k : Nat) : List Word × Nat :=
  resolve (Config.freeWord .lzw) k (x.cod.content x.codLen.toNat)

def LzwUnit.readByt (x : LzwUnit) (k : Nat) : List Byte × Nat :=
  resolve (Config.freeByte .lzw) k (x.byt.content x.bytLen.toNat)

/-! ### Writing a destination: its elements and its length register (10_state.md R37) -/

def RleUnit.writeSym (x : RleUnit) (S : List Sym) : RleUnit :=
  { x with sym := x.sym.store S, symLen := BitVec.ofNat 32 S.length }

def RleUnit.writeRun (x : RleUnit) (R : List Run) : RleUnit :=
  { x with run := x.run.store R, runLen := BitVec.ofNat 32 R.length }

def RleUnit.writeTxt (x : RleUnit) (T : List Sym) : RleUnit :=
  { x with txt := x.txt.store T, txtLen := BitVec.ofNat 32 T.length }

def RleUnit.writeByt (x : RleUnit) (B : List Byte) : RleUnit :=
  { x with byt := x.byt.store B, bytLen := BitVec.ofNat 32 B.length }

def HufUnit.writeSym (x : HufUnit) (S : List Sym) : HufUnit :=
  { x with sym := x.sym.store S, symLen := BitVec.ofNat 32 S.length }

def HufUnit.writeBit (x : HufUnit) (b : Bits) : HufUnit :=
  { x with bit := x.bit.store b, bitLen := BitVec.ofNat 32 b.length }

def HufUnit.writeTab (x : HufUnit) (C : List Entry) : HufUnit :=
  { x with tab := x.tab.store C, tabLen := BitVec.ofNat 32 C.length }

def HufUnit.writeByt (x : HufUnit) (B : List Byte) : HufUnit :=
  { x with byt := x.byt.store B, bytLen := BitVec.ofNat 32 B.length }

def LzwUnit.writeSym (x : LzwUnit) (S : List Sym) : LzwUnit :=
  { x with sym := x.sym.store S, symLen := BitVec.ofNat 32 S.length }

def LzwUnit.writeCod (x : LzwUnit) (K : List Word) : LzwUnit :=
  { x with cod := x.cod.store K, codLen := BitVec.ofNat 32 K.length }

def LzwUnit.writeByt (x : LzwUnit) (B : List Byte) : LzwUnit :=
  { x with byt := x.byt.store B, bytLen := BitVec.ofNat 32 B.length }

/-! ### Completion -/

/-- `STATUS` at completion without error, from `SYM_LEN` as it stands now (10_state.md R37); scratch
is dropped (R36). -/
def RleUnit.complete (x : RleUnit) : RleUnit :=
  { x with ctrl := x.ctrl.complete (emptyFlag x.symLen), scratch := none }

/-- As `RleUnit.complete`, for HUF. -/
def HufUnit.complete (x : HufUnit) : HufUnit :=
  { x with ctrl := x.ctrl.complete (emptyFlag x.symLen), scratch := none }

/-- As `RleUnit.complete`, for LZW. -/
def LzwUnit.complete (x : LzwUnit) : LzwUnit :=
  { x with ctrl := x.ctrl.complete (emptyFlag x.symLen), scratch := none }

/-- The order of checks of a legal command (60_exceptions.md R252, points 2 to 4): an exceeded source
first, then the operation's own error, then a scratch sequence or a result that does not fit. The operation
is given the number of the next free value and returns the one after its readings. -/
def byPriority {α : Type} (overflow : Option Nat) (op : Nat → Except Report α × Nat)
    (limits : α → List Limit) (k : Nat) : Except Report α × Nat :=
  match overflow with
  | some id => (.error ⟨.capacityExceeded, id⟩, k)
  | none =>
    match op k with
    | (.error e, k') => (.error e, k')
    | (.ok a, k') =>
      match leastExceeded (limits a) with
      | some id => (.error ⟨.capacityExceeded, id⟩, k')
      | none => (.ok a, k')

/-- The completion step of a command of RLE (10_state.md R37, R38): `op` computes its result over the
naturals, `limits` names what must fit, `write` stores the destinations. -/
def rleCommand {α : Type} (s : State) (i : Instr) (op : Nat → Except Report α × Nat)
    (limits : α → List Limit) (write : RleUnit → α → RleUnit) : Host.Outcome State Fault Refusal :=
  match byPriority (s.sourceOverflow i) op limits s.rle.aux.free with
  | (.error e, k) => .next ((s.setFree .rle k).raise .rle e)
  | (.ok a, k) => .next ({ s with rle := (write s.rle a).complete }.setFree .rle k)

/-- As `rleCommand`, for HUF. -/
def hufCommand {α : Type} (s : State) (i : Instr) (op : Nat → Except Report α × Nat)
    (limits : α → List Limit) (write : HufUnit → α → HufUnit) : Host.Outcome State Fault Refusal :=
  match byPriority (s.sourceOverflow i) op limits s.huf.aux.free with
  | (.error e, k) => .next ((s.setFree .huf k).raise .huf e)
  | (.ok a, k) => .next ({ s with huf := (write s.huf a).complete }.setFree .huf k)

/-- As `rleCommand`, for LZW. -/
def lzwCommand {α : Type} (s : State) (i : Instr) (op : Nat → Except Report α × Nat)
    (limits : α → List Limit) (write : LzwUnit → α → LzwUnit) : Host.Outcome State Fault Refusal :=
  match byPriority (s.sourceOverflow i) op limits s.lzw.aux.free with
  | (.error e, k) => .next ((s.setFree .lzw k).raise .lzw e)
  | (.ok a, k) => .next ({ s with lzw := (write s.lzw a).complete }.setFree .lzw k)

end Machine
end Sys2Proof
end

