-- ==== Sys2Proof/Machine/Container.lean ====
section
/-! DEFINITION. The containers (30_encoding.md R99 to R103): `HCR1`, `HCH1`, `HCL1`, their serializers and
their parsers. A parser is given the bytes not read yet and the offset `p` of the first of them, so that
`need(B, p, k)` is "at least `k` bytes are left". -/

namespace Sys2Proof.Machine

/-! ### Numbers -/

/-- `u32be` (00_scope.md section 5; 20_memory.md R63). -/
def u32be (w : Word) : List Byte :=
  [w.extractLsb' 24 8, w.extractLsb' 16 8, w.extractLsb' 8 8, w.extractLsb' 0 8]

/-- `u32be` of a natural below `2^32`. -/
def u32beNat (n : Nat) : List Byte := u32be (BitVec.ofNat 32 n)

/-- `rd32` (00_scope.md section 5). -/
def rd32 (b0 b1 b2 b3 : Byte) : Word :=
  BitVec.ofNat 32 (b0.toNat * 2 ^ 24 + b1.toNat * 2 ^ 16 + b2.toNat * 2 ^ 8 + b3.toNat)

/-! ### Parsing primitives (30_encoding.md R103) -/

/-- `raise MalformedSerializedData(p)`. -/
def malformed (p : Nat) : Report where
  cause := .malformedSerializedData
  info := p

/-- `tag(B, T)` at offset 0: the tag is missing or another one. -/
def parseTag (t : List Byte) : List Byte → Except Report (List Byte)
  | b0 :: b1 :: b2 :: b3 :: rest =>
    if [b0, b1, b2, b3] = t then .ok rest else .error (malformed 0)
  | _ => .error (malformed 0)

/-- `get32(B, p)`. -/
def get32 (p : Nat) : List Byte → Except Report (Word × List Byte)
  | b0 :: b1 :: b2 :: b3 :: rest => .ok (rd32 b0 b1 b2 b3, rest)
  | _ => .error (malformed p)

/-- `need(B, p, k)` and then the `k` bytes at `p`. -/
def getBytes (k p : Nat) (B : List Byte) : Except Report (List Byte × List Byte) :=
  if B.length < k then .error (malformed p) else .ok (B.take k, B.drop k)

/-- `finish(B, p)`: bytes left over. -/
def parseEnd (p : Nat) (B : List Byte) : Except Report Unit :=
  if B = [] then .ok () else .error (malformed p)

/-- The loop that reads `n` pairs from offset `p` on (30_encoding.md R100, R101). -/
def getPairs : Nat → Nat → List Byte → Except Report (List SymCount × List Byte)
  | 0, _, B => .ok ([], B)
  | n + 1, p, B => do
    let (s, B) ← get32 p B
    let (c, B) ← get32 (p + 4) B
    let (R, B) ← getPairs n (p + 8) B
    return (⟨s, c.toNat⟩ :: R, B)

/-- The loop that reads `n` numbers from offset `p` on (30_encoding.md R102). -/
def getWords : Nat → Nat → List Byte → Except Report (List Word × List Byte)
  | 0, _, B => .ok ([], B)
  | n + 1, p, B => do
    let (k, B) ← get32 p B
    let (K, B) ← getWords n (p + 4) B
    return (k :: K, B)

/-- A pair `(sym, cnt)` as eight bytes. -/
def pairBytes (r : SymCount) : List Byte := u32be r.sym ++ u32beNat r.cnt

/-! ### The RLE container (30_encoding.md R100) -/

/-- The text "HCR1". -/
def tagHcr1 : List Byte := [0x48, 0x43, 0x52, 0x31]

def serHcr1 (R : List SymCount) : List Byte :=
  tagHcr1 ++ u32beNat R.length ++ R.flatMap pairBytes

def parseHcr1 (B : List Byte) : Except Report (List SymCount) := do
  let B ← parseTag tagHcr1 B
  let (n, B) ← get32 4 B
  let (R, B) ← getPairs n.toNat 8 B
  parseEnd (8 + 8 * n.toNat) B
  return R

/-! ### The Huffman container (30_encoding.md R101) -/

/-- What `HCH1` holds: `{padding, frequency table, packed bytes}` (30_encoding.md R99). -/
structure HufContainer where
  pad : Nat
  freq : List SymCount
  packed : List Byte
  deriving DecidableEq, Repr

/-- The text "HCH1". -/
def tagHch1 : List Byte := [0x48, 0x43, 0x48, 0x31]

def serHch1 (h : HufContainer) : List Byte :=
  tagHch1 ++ u32beNat h.pad ++ u32beNat h.freq.length ++ h.freq.flatMap pairBytes
    ++ u32beNat h.packed.length ++ h.packed

def parseHch1 (B : List Byte) : Except Report HufContainer := do
  let B ← parseTag tagHch1 B
  let (pad, B) ← get32 4 B
  let (n, B) ← get32 8 B
  let (F, B) ← getPairs n.toNat 12 B
  let (m, B) ← get32 (12 + 8 * n.toNat) B
  let (P, B) ← getBytes m.toNat (16 + 8 * n.toNat) B
  parseEnd (16 + 8 * n.toNat + m.toNat) B
  return ⟨pad.toNat, F, P⟩

/-! ### The LZW container (30_encoding.md R102) -/

/-- The text "HCL1". -/
def tagHcl1 : List Byte := [0x48, 0x43, 0x4C, 0x31]

def serHcl1 (K : List Word) : List Byte :=
  tagHcl1 ++ u32beNat K.length ++ K.flatMap u32be

def parseHcl1 (B : List Byte) : Except Report (List Word) := do
  let B ← parseTag tagHcl1 B
  let (n, B) ← get32 4 B
  let (K, B) ← getWords n.toNat 8 B
  parseEnd (8 + 4 * n.toNat) B
  return K

end Sys2Proof.Machine
end

