-- ==== Sys2Proof/Machine/Huf.lean ====
section
/-! DEFINITION. Unit HUF (41_huffman.md): frequency table, tree builder, code encoder, code decoder,
bit-packer (R161 to R171) and the four commands. -/

namespace Sys2Proof.Machine

/-! ### Frequency table (41_huffman.md R161, R162) -/

/-- Count one more occurrence of `c` in a table in ascending order of symbols. -/
def freqAdd (c : Sym) : List SymCount → List SymCount
  | [] => [⟨c, 1⟩]
  | e :: F =>
    if c.toNat < e.sym.toNat then ⟨c, 1⟩ :: e :: F
    else if c = e.sym then ⟨e.sym, e.cnt + 1⟩ :: F
    else e :: freqAdd c F

/-- `huff_freq(S)`, in strictly ascending order of symbols. -/
def huffFreq (S : List Sym) : List SymCount := S.foldl (fun F c => freqAdd c F) HufScratch.init.freq

/-! ### Tree builder (41_huffman.md R163 to R165) -/

def HuffNode.weight : HuffNode → Nat
  | .leaf _ w _ => w
  | .node _ _ w _ => w

def HuffNode.seq : HuffNode → Nat
  | .leaf _ _ q => q
  | .node _ _ _ q => q

/-- The key `(w, seq)` of `a` is less than that of `b` (41_huffman.md R164). -/
def HuffNode.before (a b : HuffNode) : Bool :=
  decide (a.weight < b.weight ∨ (a.weight = b.weight ∧ a.seq < b.seq))

/-- Add a node to the priority queue, which is held in ascending order of keys: its head is the node with
the least key. -/
def enqueue (t : HuffNode) : List HuffNode → List HuffNode
  | [] => [t]
  | q :: Q => if t.before q then t :: q :: Q else q :: enqueue t Q

/-- The leaf of entry `i` of the frequency table (41_huffman.md R163). -/
def leavesFrom (i : Nat) : List SymCount → List HuffNode
  | [] => []
  | e :: F => .leaf e.sym e.cnt i :: leavesFrom (i + 1) F

/-- The initial state (41_huffman.md R163). -/
def TreeBuilder.init (F : List SymCount) : TreeBuilder where
  queue := (leavesFrom 0 F).foldl (fun Q t => enqueue t Q) []
  next := F.length

/-- One transition (41_huffman.md R164): the first popped is the left child. No transition when the queue
has at most one node. -/
def TreeBuilder.step (b : TreeBuilder) : TreeBuilder :=
  match b.queue with
  | x :: y :: Q =>
    { queue := enqueue (.node x y (x.weight + y.weight) b.next) Q, next := b.next + 1 }
  | _ => b

/-- `n` transitions. -/
def TreeBuilder.run : Nat → TreeBuilder → TreeBuilder
  | 0, b => b
  | n + 1, b => TreeBuilder.run n b.step

/-- `huff_tree(F)` (41_huffman.md R165): the one node left after `len(F) - 1` transitions; `none` for the
empty table. -/
def huffTree (F : List SymCount) : Option HuffNode :=
  ((TreeBuilder.init F).run (F.length - 1)).queue.head?

/-! ### Code encoder (41_huffman.md R166, R167) -/

/-- `walk(x, p)`: the leaves below `x`, each with its path. -/
def walk (p : Bits) : HuffNode → List Entry
  | .leaf sym _ _ => [⟨sym, p⟩]
  | .node l r _ _ => walk (p ++ [false]) l ++ walk (p ++ [true]) r

/-- Insert an entry into a table in ascending order of symbols. -/
def insertEntry (e : Entry) : List Entry → List Entry
  | [] => [e]
  | d :: C => if e.sym.toNat ≤ d.sym.toNat then e :: d :: C else d :: insertEntry e C

/-- "sorted by ascending sym". -/
def sortEntries (C : List Entry) : List Entry := C.foldr insertEntry []

/-- `huff_codes(t)` (41_huffman.md R166). -/
def huffCodes : Option HuffNode → List Entry
  | none => []
  | some (.leaf sym _ _) => [⟨sym, [false]⟩]
  | some (.node l r w q) => sortEntries (walk [] (.node l r w q))

/-- `code(C, c)`: the code of the entry of `C` whose symbol is `c` (41_huffman.md R167). -/
def codeOf (C : List Entry) (c : Sym) : Option Bits :=
  (C.find? (fun e => decide (e.sym = c))).map Entry.code

/-- `huff_encode(S, C)` (41_huffman.md R167), with the number of the next free value before and after.
Every symbol has exactly one entry in `C` unless an element of `HUF.SYM` that was never written read
differently at the second reading; such a symbol takes a free code (log 6). -/
def huffEncode (C : List Entry) (S : List Sym) (k : Nat) : Bits × Nat :=
  let r := resolve (Config.freeBits .huf) k (S.map (codeOf C))
  (r.1.flatten, r.2)

/-! ### Code decoder (41_huffman.md R168, R171) -/

/-- The scratch of the code decoder: the bit buffer and the index of its first bit (10_state.md R36). -/
structure BitScratch where
  buf : Bits
  start : Nat
  deriving DecidableEq, Repr

/-- The loop of `huff_decode` from bit `j` on (41_huffman.md R168). -/
def huffDecodeFrom (C : List Entry) (j : Nat) (x : BitScratch) : Bits → Except Report (List Sym)
  | [] => if x.buf = [] then .ok [] else .error ⟨.invalidPrefixCode, x.start⟩
  | b :: bits =>
    match C.find? (fun e => decide (e.code = x.buf ++ [b])) with
    | some e =>
      match huffDecodeFrom C (j + 1) ⟨[], j + 1⟩ bits with
      | .error r => .error r
      | .ok S => .ok (e.sym :: S)
    | none => huffDecodeFrom C (j + 1) ⟨x.buf ++ [b], x.start⟩ bits

/-- `huff_decode(bits, C)` (41_huffman.md R168). -/
def huffDecode (bits : Bits) (C : List Entry) : Except Report (List Sym) :=
  huffDecodeFrom C 0 ⟨HufScratch.init.buf, HufScratch.init.index⟩ bits

/-- Entry `e` is bad against an earlier entry `d`: the same symbol, or one code a prefix of the other
(41_huffman.md R171). -/
def clashes (d e : Entry) : Bool :=
  decide (d.sym = e.sym) || d.code.isPrefixOf e.code || e.code.isPrefixOf d.code

/-- The loop of `huff_check_table` from entry `i` on; `earlier` holds the entries before it. -/
def checkTableFrom (i : Nat) (earlier : List Entry) : List Entry → Except Report Unit
  | [] => .ok ()
  | e :: C =>
    if e.code = [] then .error ⟨.badCodeTable, i⟩
    else if earlier.any (fun d => clashes d e) then .error ⟨.badCodeTable, i⟩
    else checkTableFrom (i + 1) (earlier ++ [e]) C

/-- `huff_check_table(C)` (41_huffman.md R171). -/
def huffCheckTable (C : List Entry) : Except Report Unit := checkTableFrom 0 [] C

/-! ### Bit-packer (41_huffman.md R169, R170; 20_memory.md R62) -/

/-- The weight of a bit. -/
def bitVal (b : Bool) (n : Nat) : Nat := if b then n else 0

/-- Whole bytes of a bitstring, the first bit of each most significant. -/
def packBytes : Bits → List Byte
  | b7 :: b6 :: b5 :: b4 :: b3 :: b2 :: b1 :: b0 :: bits =>
    BitVec.ofNat 8 (bitVal b7 128 + bitVal b6 64 + bitVal b5 32 + bitVal b4 16
      + bitVal b3 8 + bitVal b2 4 + bitVal b1 2 + bitVal b0 1) :: packBytes bits
  | _ => []

/-- `pad` of `bit_pack`: 1 to 8, 8 meaning no padding. -/
def padOf (bits : Bits) : Nat := 8 - bits.length % 8

/-- `padded` of `bit_pack`. -/
def padded (bits : Bits) : Bits :=
  if padOf bits = 8 then bits else bits ++ List.replicate (padOf bits) false

/-- `bit_pack(bits)` (41_huffman.md R169). -/
def bitPack (bits : Bits) : Nat × List Byte := (padOf bits, packBytes (padded bits))

/-- The bits of a byte, bit 7 first. -/
def byteBits (b : Byte) : Bits :=
  [b.getLsbD 7, b.getLsbD 6, b.getLsbD 5, b.getLsbD 4, b.getLsbD 3, b.getLsbD 2, b.getLsbD 1,
    b.getLsbD 0]

/-- `bit_unpack(pad, P)` (41_huffman.md R170), for `1 <= pad <= 8`. -/
def bitUnpack (pad : Nat) (P : List Byte) : Bits :=
  if pad = 8 then P.flatMap byteBits else (P.flatMap byteBits).take (8 * P.length - pad)

/-! ### Value checks of the container (41_huffman.md R175) -/

/-- The entries in order; `p` is the byte offset of the next entry, `prev` the symbol before it. -/
def checkFreqFrom (p : Nat) (prev : Option Sym) : List SymCount → Except Report Unit
  | [] => .ok ()
  | e :: F =>
    if e.cnt = 0 then .error ⟨.corruptedData, p⟩
    else if prev.any (fun v => decide (e.sym.toNat ≤ v.toNat)) then .error ⟨.corruptedData, p⟩
    else checkFreqFrom (p + 8) (some e.sym) F

/-- The checks of `HUF.DECB`: `padding`, the entries in order, `m`. No other check is made (R177). -/
def checkHch1 (h : HufContainer) : Except Report Unit :=
  if h.pad < 1 ∨ 8 < h.pad then .error ⟨.corruptedData, 4⟩
  else
    match checkFreqFrom 12 none h.freq with
    | .error e => .error e
    | .ok () =>
      if h.pad ≠ 8 ∧ h.packed = [] then .error ⟨.corruptedData, 12 + 8 * h.freq.length⟩ else .ok ()

/-! ### Commands -/

/-- What an encoding HUF command computes from a symbol stream, or a decoding one from a container: the
frequency table, the code table, the bitstring and, when decoding, the symbols (scratch, 10_state.md R36). -/
structure HufImage where
  freq : List SymCount
  table : List Entry
  bits : Bits
  syms : List Sym
  deriving DecidableEq, Repr

/-- The container of an encoded stream (41_huffman.md R174). -/
def HufImage.container (h : HufImage) : HufContainer where
  pad := (bitPack h.bits).1
  freq := h.freq
  packed := (bitPack h.bits).2

/-- `HUF.SYM` is read twice, once to count frequencies and once to encode (20_memory.md R73; log 5). -/
def hufEncodeSource (x : HufUnit) (k : Nat) : HufImage × Nat :=
  let first := x.readSym k
  let second := x.readSym first.2
  let F := huffFreq first.1
  let C := huffCodes (huffTree F)
  let bits := huffEncode C second.1 second.2
  (⟨F, C, bits.1, second.1⟩, bits.2)

/-- The decoding of a container that parses (41_huffman.md R175). -/
def hufDecodeContainer (B : List Byte) : Except Report HufImage := do
  let h ← parseHch1 B
  checkHch1 h
  let C := huffCodes (huffTree h.freq)
  let bits := bitUnpack h.pad h.packed
  let S ← huffDecode bits C
  return ⟨h.freq, C, bits, S⟩

/-- `HUF.ENC` (41_huffman.md R172). -/
def execHufEnc (s : State) : Host.Outcome State Fault Refusal :=
  hufCommand s .hufEnc
    (fun k =>
      let r := hufEncodeSource s.huf k
      (.ok r.1, r.2))
    (fun h =>
      [limitOf s.cfg .hufTab h.table.length, clenLimit s.cfg h.table,
        limitOf s.cfg .hufBit h.bits.length])
    (fun x h => (x.writeBit h.bits).writeTab h.table)

/-- `HUF.DEC` (41_huffman.md R173): the table is checked first, whatever the bitstring. -/
def execHufDec (s : State) : Host.Outcome State Fault Refusal :=
  hufCommand s .hufDec
    (fun k =>
      let tab := s.huf.readTab s.cfg k
      let bit := s.huf.readBit tab.2
      (do
        huffCheckTable tab.1
        huffDecode bit.1 tab.1, bit.2))
    (fun S => [limitOf s.cfg .hufSym S.length])
    (fun x S => x.writeSym S)

/-- `HUF.ENCB` (41_huffman.md R174): `HUF.BIT` and `HUF.TAB` are not written. -/
def execHufEncb (s : State) : Host.Outcome State Fault Refusal :=
  hufCommand s .hufEncb
    (fun k =>
      let r := hufEncodeSource s.huf k
      (.ok r.1, r.2))
    (fun h =>
      [limitOf s.cfg .hufTab h.freq.length, clenLimit s.cfg h.table,
        limitOf s.cfg .hufBit h.bits.length,
        limitOf s.cfg .hufByt (16 + 8 * h.freq.length + h.container.packed.length)])
    (fun x h => x.writeByt (serHch1 h.container))

/-- `HUF.DECB` (41_huffman.md R175). -/
def execHufDecb (s : State) : Host.Outcome State Fault Refusal :=
  hufCommand s .hufDecb
    (fun k =>
      let src := s.huf.readByt k
      (hufDecodeContainer src.1, src.2))
    (fun h =>
      [limitOf s.cfg .hufTab h.freq.length, clenLimit s.cfg h.table,
        limitOf s.cfg .hufBit h.bits.length, limitOf s.cfg .hufSym h.syms.length])
    (fun x h => x.writeSym h.syms)

end Sys2Proof.Machine
end

