-- ==== Sys2Proof/Machine/Lzw.lean ====
section
/-! DEFINITION. Unit LZW (42_lzw.md): the dictionary manager (R211 to R214), the code unpacker and the four
commands. -/

namespace Sys2Proof.Machine

/-! ### Encoding side -/

/-- The code of `w` among the entries added to the seed. -/
def lookupAdded (w : List Sym) : List (List Sym × Nat) → Option Nat
  | [] => none
  | (v, k) :: D => if v = w then some k else lookupAdded w D

/-- The encoder's scratch (10_state.md R36): the dictionary entries added to the seed, newest first, the
next code, the match buffer and the codes emitted. -/
structure LzwEnc where
  added : List (List Sym × Nat)
  nextCode : Nat
  w : List Sym
  out : List Nat
  deriving DecidableEq, Repr

/-- The seed (42_lzw.md R211): no entry but the 256 single symbols, which `LzwEnc.code` knows. -/
def LzwEnc.seed : LzwEnc where
  added := LzwScratch.init.added
  nextCode := LzwScratch.init.nextCode
  w := LzwScratch.init.w
  out := LzwScratch.init.codes

/-- `D(w)`, if `w` is a key of the dictionary: `D([b]) = b` for `b = 0 .. 255`, and the entries added
(42_lzw.md R211, R212). -/
def LzwEnc.code (x : LzwEnc) (w : List Sym) : Option Nat :=
  match w with
  | [b] => if b.toNat ≤ 255 then some b.toNat else lookupAdded [b] x.added
  | _ => lookupAdded w x.added

/-- One turn of the loop of `lzw_encode` (42_lzw.md R212), for a symbol in `0 .. 255`. `D(w)` is always
defined when it is emitted. -/
def LzwEnc.step (x : LzwEnc) (c : Sym) : LzwEnc :=
  match x.code (x.w ++ [c]) with
  | some _ => { x with w := x.w ++ [c] }
  | none =>
    { added := (x.w ++ [c], x.nextCode) :: x.added
      nextCode := x.nextCode + 1
      w := [c]
      out := x.out ++ (x.code x.w).toList }

/-- The loop of `lzw_encode` from symbol `i` on. -/
def lzwEncodeFrom (i : Nat) (x : LzwEnc) : List Sym → Except Report LzwEnc
  | [] => .ok x
  | c :: S =>
    if 255 < c.toNat then .error ⟨.unsupportedSymbolRange, i⟩
    else lzwEncodeFrom (i + 1) (x.step c) S

/-- The final flush (42_lzw.md R212). -/
def LzwEnc.flush (x : LzwEnc) : List Nat :=
  if x.w = [] then x.out else x.out ++ (x.code x.w).toList

/-- `lzw_encode(S)` (42_lzw.md R212). -/
def lzwEncode (S : List Sym) : Except Report (List Nat) :=
  (lzwEncodeFrom 0 .seed S).map LzwEnc.flush

/-! ### Decoding side: the code unpacker -/

/-- The decoder's scratch (10_state.md R36): the entries added to the seed, that of code 256 first, the
next code, the entry decoded last and the symbols so far. -/
structure LzwDec where
  added : List (List Sym)
  nextCode : Nat
  w : List Sym
  out : List Sym
  deriving DecidableEq, Repr

/-- The state after the first code, a seed entry (42_lzw.md R213). -/
def LzwDec.first (k : Nat) : LzwDec where
  added := []
  nextCode := 256
  w := [BitVec.ofNat 32 k]
  out := [BitVec.ofNat 32 k]

/-- `E(k)`, if `k` is a known entry: `E(b) = [b]` for `b = 0 .. 255`, and the entries added (42_lzw.md
R211, R213). -/
def LzwDec.entry (x : LzwDec) (k : Nat) : Option (List Sym) :=
  if k < 256 then some [BitVec.ofNat 32 k] else x.added[k - 256]?

/-- The entry code `k` stands for: a known one, or the self-reference case (42_lzw.md R213). -/
def LzwDec.resolveCode (x : LzwDec) (k : Nat) : Option (List Sym) :=
  match x.entry k with
  | some e => some e
  | none => if k = x.nextCode then some (x.w ++ x.w.take 1) else none

/-- Emit `e`, insert `w ++ [e[0]]`, go on with `w = e` (42_lzw.md R213). -/
def LzwDec.emit (x : LzwDec) (e : List Sym) : LzwDec where
  added := x.added ++ [x.w ++ e.take 1]
  nextCode := x.nextCode + 1
  w := e
  out := x.out ++ e

/-- The loop of `lzw_decode` from code `i` on. -/
def lzwDecodeFrom (i : Nat) (x : LzwDec) : List Nat → Except Report (List Sym)
  | [] => .ok x.out
  | k :: K =>
    match x.resolveCode k with
    | none => .error ⟨.corruptedLZWStream, i⟩
    | some e => lzwDecodeFrom (i + 1) (x.emit e) K

/-- `lzw_decode(K)` (42_lzw.md R213): the first code must be a seed entry. -/
def lzwDecode : List Nat → Except Report (List Sym)
  | [] => .ok []
  | k :: K =>
    if 256 ≤ k then .error ⟨.corruptedLZWStream, 0⟩ else lzwDecodeFrom 1 (.first k) K

/-! ### Commands -/

/-- Codes as elements of `LZW.COD`; a code that fits is below `2^32` (00_scope.md R10). -/
def codeWords (K : List Nat) : List Word := K.map (BitVec.ofNat 32)

/-- Stored codes as naturals. -/
def codeNats (K : List Word) : List Nat := K.map BitVec.toNat

/-- `LZW.ENC` (42_lzw.md R215). -/
def execLzwEnc (s : State) : Host.Outcome State Fault Refusal :=
  lzwCommand s .lzwEnc
    (fun k =>
      let src := s.lzw.readSym k
      (lzwEncode src.1, src.2))
    (fun K => [limitOf s.cfg .lzwCod K.length])
    (fun x K => x.writeCod (codeWords K))

/-- `LZW.DEC` (42_lzw.md R216). -/
def execLzwDec (s : State) : Host.Outcome State Fault Refusal :=
  lzwCommand s .lzwDec
    (fun k =>
      let src := s.lzw.readCod k
      (lzwDecode (codeNats src.1), src.2))
    (fun S => [limitOf s.cfg .lzwSym S.length])
    (fun x S => x.writeSym S)

/-- `LZW.ENCB` (42_lzw.md R217): the codes are scratch, `LZW.COD` is not written. -/
def execLzwEncb (s : State) : Host.Outcome State Fault Refusal :=
  lzwCommand s .lzwEncb
    (fun k =>
      let src := s.lzw.readSym k
      (lzwEncode src.1, src.2))
    (fun K => [limitOf s.cfg .lzwCod K.length, limitOf s.cfg .lzwByt (8 + 4 * K.length)])
    (fun x K => x.writeByt (serHcl1 (codeWords K)))

/-- `LZW.DECB` (42_lzw.md R218): the whole container is parsed first. -/
def execLzwDecb (s : State) : Host.Outcome State Fault Refusal :=
  lzwCommand s .lzwDecb
    (fun k =>
      let src := s.lzw.readByt k
      (do
        let K ← parseHcl1 src.1
        let S ← lzwDecode (codeNats K)
        return (K, S), src.2))
    (fun r => [limitOf s.cfg .lzwCod r.1.length, limitOf s.cfg .lzwSym r.2.length])
    (fun x r => x.writeSym r.2)

end Sys2Proof.Machine
end

