-- ==== Sys2Proof/Machine/Rle.lean ====
section
/-! DEFINITION. Unit RLE (40_rle.md): the functions R130, R132, R136, R138 and the six commands. -/

namespace Sys2Proof.Machine

/-! ### Functions -/

/-- One step of `rle_runs`: the next symbol raises the count of the current run or opens a new run. The
runs stand in reverse order, the current one first (40_rle.md R130; scratch, 10_state.md R36). -/
def rleStep (R : List SymCount) (c : Sym) : List SymCount :=
  match R with
  | [] => [⟨c, 1⟩]
  | r :: rest => if r.sym = c then ⟨r.sym, r.cnt + 1⟩ :: rest else ⟨c, 1⟩ :: r :: rest

/-- `rle_runs(S)` (40_rle.md R130). -/
def rleRuns (S : List Sym) : List SymCount := (S.foldl rleStep RleScratch.init.runs).reverse

/-- `rle_expand(R)` (40_rle.md R132). -/
def rleExpand (R : List SymCount) : List Sym := R.flatMap (fun r => List.replicate r.cnt r.sym)

/-- The number of symbols `rle_expand` gives: the sum of the counts (40_rle.md R133). It is compared with
`CAP_SYM` before the symbols are produced (70_reset_and_hazards.md R296). -/
def runTotal (R : List SymCount) : Nat := (R.map SymCount.cnt).sum

/-- The digit `d` as a symbol (00_scope.md section 5, `decimal`). -/
def digitSym (d : Nat) : Sym := BitVec.ofNat 32 (0x30 + d)

/-- The digits of `n`, most significant first, before `acc`. -/
def decimalFrom : Nat → Nat → List Sym → List Sym
  | 0, _, acc => acc
  | fuel + 1, n, acc =>
    if n = 0 then acc else decimalFrom fuel (n / 10) (digitSym (n % 10) :: acc)

/-- `decimal(n)`, for `n >= 1` (00_scope.md section 5): `n` has at most `n` digits. -/
def decimal (n : Nat) : List Sym := decimalFrom n n []

/-- `isdigit(s)` (00_scope.md section 5; 30_encoding.md R97). -/
def isDigit (s : Sym) : Bool := decide (0x30 ≤ s.toNat ∧ s.toNat ≤ 0x39)

/-- `digitval(s)` (00_scope.md section 5). -/
def digitVal (s : Sym) : Nat := s.toNat - 0x30

/-- `rle_text_enc(S)` (40_rle.md R136). Digit symbols are written like any other (R140). -/
def rleTextEnc (S : List Sym) : List Sym :=
  (rleRuns S).flatMap (fun r => decimal r.cnt ++ [r.sym])

/-- The scratch of `rle_text_dec` within a token: where it began, the count so far, its digits so far
(40_rle.md R138; 10_state.md R36). -/
structure TextScratch where
  start : Nat
  cnt : Nat
  nd : Nat
  deriving DecidableEq, Repr

/-- A token begins at index `i`. -/
def TextScratch.init (i : Nat) : TextScratch where
  start := i
  cnt := RleScratch.init.digits
  nd := 0

/-- The runs of the tokens of a text; `i` is the index of the next symbol (40_rle.md R138). -/
def textTokensFrom (i : Nat) (x : TextScratch) : List Sym → Except Report (List SymCount)
  | [] => if x.nd = 0 then .ok [] else .error (malformed x.start)
  | t :: T =>
    if isDigit t then
      textTokensFrom (i + 1) ⟨x.start, x.cnt * 10 + digitVal t, x.nd + 1⟩ T
    else if x.nd = 0 then .error (malformed x.start)
    else
      match textTokensFrom (i + 1) (TextScratch.init (i + 1)) T with
      | .error e => .error e
      | .ok R => .ok (⟨t, x.cnt⟩ :: R)

/-- The tokens of a text as runs: the scan of `rle_text_dec`. -/
def rleTextTokens (T : List Sym) : Except Report (List SymCount) :=
  textTokensFrom 0 (TextScratch.init 0) T

/-- `rle_text_dec(T)` (40_rle.md R138): the runs of its tokens, expanded. -/
def rleTextDec (T : List Sym) : Except Report (List Sym) := (rleTextTokens T).map rleExpand

/-- The run-list invariants, pair by pair; `p` is the byte offset of the next pair, `prev` the symbol of
the pair before it (40_rle.md R135). -/
def checkRunsFrom (p : Nat) (prev : Option Sym) : List SymCount → Except Report Unit
  | [] => .ok ()
  | r :: R =>
    if r.cnt = 0 then .error ⟨.corruptedData, p⟩
    else if prev = some r.sym then .error ⟨.corruptedData, p⟩
    else checkRunsFrom (p + 8) (some r.sym) R

/-- The invariant check of `RLE.DECB` (40_rle.md R135). -/
def checkRuns (R : List SymCount) : Except Report Unit := checkRunsFrom 8 none R

/-- A stored pair, its count as a natural. -/
def Run.counted (r : Run) : SymCount := ⟨r.sym, r.cnt.toNat⟩

/-- A run as a `RLE.RUN` element; a run that fits has a count below `2^32` (00_scope.md R10). -/
def SymCount.stored (r : SymCount) : Run := ⟨r.sym, BitVec.ofNat 32 r.cnt⟩

/-! ### Commands -/

/-- `RLE.ENC` (40_rle.md R131). -/
def execRleEnc (s : State) : Host.Outcome State Fault Refusal :=
  rleCommand s .rleEnc
    (fun k =>
      let src := s.rle.readSym k
      (.ok (rleRuns src.1), src.2))
    (fun R => [limitOf s.cfg .rleRun R.length])
    (fun x R => x.writeRun (R.map SymCount.stored))

/-- `RLE.DEC` (40_rle.md R133): no check of the run-list invariants. -/
def execRleDec (s : State) : Host.Outcome State Fault Refusal :=
  rleCommand s .rleDec
    (fun k =>
      let src := s.rle.readRun k
      (.ok (src.1.map Run.counted), src.2))
    (fun R => [limitOf s.cfg .rleSym (runTotal R)])
    (fun x R => x.writeSym (rleExpand R))

/-- `RLE.ENCB` (40_rle.md R134): the run-list is scratch, `RLE.RUN` is not written. -/
def execRleEncb (s : State) : Host.Outcome State Fault Refusal :=
  rleCommand s .rleEncb
    (fun k =>
      let src := s.rle.readSym k
      (.ok (rleRuns src.1), src.2))
    (fun R => [limitOf s.cfg .rleRun R.length, limitOf s.cfg .rleByt (8 + 8 * R.length)])
    (fun x R => x.writeByt (serHcr1 R))

/-- `RLE.DECB` (40_rle.md R135): the whole container is parsed before any invariant is checked. -/
def execRleDecb (s : State) : Host.Outcome State Fault Refusal :=
  rleCommand s .rleDecb
    (fun k =>
      let src := s.rle.readByt k
      (do
        let R ← parseHcr1 src.1
        checkRuns R
        return R, src.2))
    (fun R => [limitOf s.cfg .rleRun R.length, limitOf s.cfg .rleSym (runTotal R)])
    (fun x R => x.writeSym (rleExpand R))

/-- `RLE.ENCS` (40_rle.md R137). -/
def execRleEncs (s : State) : Host.Outcome State Fault Refusal :=
  rleCommand s .rleEncs
    (fun k =>
      let src := s.rle.readSym k
      (.ok src.1, src.2))
    (fun S =>
      [limitOf s.cfg .rleRun (rleRuns S).length, limitOf s.cfg .rleTxt (rleTextEnc S).length])
    (fun x S => x.writeTxt (rleTextEnc S))

/-- `RLE.DECS` (40_rle.md R139). -/
def execRleDecs (s : State) : Host.Outcome State Fault Refusal :=
  rleCommand s .rleDecs
    (fun k =>
      let src := s.rle.readTxt k
      (rleTextTokens src.1, src.2))
    (fun R => [limitOf s.cfg .rleSym (runTotal R)])
    (fun x R => x.writeSym (rleExpand R))

end Sys2Proof.Machine
end

