-- ==== Sys2Proof/Machine/Dispatch.lean ====
section
/-! DEFINITION. The meaning of every command: the completion step of a unit that has accepted it
(10_state.md R37, R38; 30_encoding.md R92). -/

namespace Sys2Proof.Machine

def exec (i : Instr) (s : State) : Host.Outcome State Fault Refusal :=
  match i with
  | .rleEnc => Sys2Proof.Machine.execRleEnc s
  | .rleDec => Sys2Proof.Machine.execRleDec s
  | .rleEncb => Sys2Proof.Machine.execRleEncb s
  | .rleDecb => Sys2Proof.Machine.execRleDecb s
  | .rleEncs => Sys2Proof.Machine.execRleEncs s
  | .rleDecs => Sys2Proof.Machine.execRleDecs s
  | .hufEnc => Sys2Proof.Machine.execHufEnc s
  | .hufDec => Sys2Proof.Machine.execHufDec s
  | .hufEncb => Sys2Proof.Machine.execHufEncb s
  | .hufDecb => Sys2Proof.Machine.execHufDecb s
  | .lzwEnc => Sys2Proof.Machine.execLzwEnc s
  | .lzwDec => Sys2Proof.Machine.execLzwDec s
  | .lzwEncb => Sys2Proof.Machine.execLzwEncb s
  | .lzwDecb => Sys2Proof.Machine.execLzwDecb s

end Sys2Proof.Machine
end

