-- ==== Sys2Proof/Machine/Port.lean ====
section
/-! DEFINITION. The host port (20_memory.md R64 to R69, R77) and the reset input (70_reset_and_hazards.md
R280 to R282). -/

namespace Sys2Proof.Machine

/-! ### Registers by number (10_state.md R23) -/

def RleUnit.reg (x : RleUnit) (n : Nat) : Word :=
  match n with
  | 0 => x.ctrl.cmd
  | 1 => x.ctrl.status
  | 2 => x.ctrl.err
  | 3 => x.ctrl.errInfo
  | 4 => x.symLen
  | 5 => x.runLen
  | 6 => x.bytLen
  | 7 => x.txtLen
  | _ => 0

def HufUnit.reg (x : HufUnit) (n : Nat) : Word :=
  match n with
  | 0 => x.ctrl.cmd
  | 1 => x.ctrl.status
  | 2 => x.ctrl.err
  | 3 => x.ctrl.errInfo
  | 4 => x.symLen
  | 5 => x.bitLen
  | 6 => x.tabLen
  | 7 => x.bytLen
  | _ => 0

def LzwUnit.reg (x : LzwUnit) (n : Nat) : Word :=
  match n with
  | 0 => x.ctrl.cmd
  | 1 => x.ctrl.status
  | 2 => x.ctrl.err
  | 3 => x.ctrl.errInfo
  | 4 => x.symLen
  | 5 => x.codLen
  | 6 => x.bytLen
  | _ => 0

/-- Register `n` of unit `u`; a number the unit does not have reads 0. -/
def State.reg (s : State) (u : UnitId) (n : Nat) : Word :=
  match u with
  | .rle => s.rle.reg n
  | .huf => s.huf.reg n
  | .lzw => s.lzw.reg n

/-- The numbers of the length registers of a unit. -/
def isLengthReg (u : UnitId) (n : Nat) : Bool :=
  match u with
  | .rle => decide (4 ≤ n ∧ n ≤ 7)
  | .huf => decide (4 ≤ n ∧ n ≤ 7)
  | .lzw => decide (4 ≤ n ∧ n ≤ 6)

def RleUnit.setLen (x : RleUnit) (n : Nat) (v : Word) : RleUnit :=
  match n with
  | 4 => { x with symLen := v }
  | 5 => { x with runLen := v }
  | 6 => { x with bytLen := v }
  | 7 => { x with txtLen := v }
  | _ => x

def HufUnit.setLen (x : HufUnit) (n : Nat) (v : Word) : HufUnit :=
  match n with
  | 4 => { x with symLen := v }
  | 5 => { x with bitLen := v }
  | 6 => { x with tabLen := v }
  | 7 => { x with bytLen := v }
  | _ => x

def LzwUnit.setLen (x : LzwUnit) (n : Nat) (v : Word) : LzwUnit :=
  match n with
  | 4 => { x with symLen := v }
  | 5 => { x with codLen := v }
  | 6 => { x with bytLen := v }
  | _ => x

/-- Write length register `n` of unit `u` (10_state.md R30); any other number is ignored (R23). -/
def State.setLen (s : State) (u : UnitId) (n : Nat) (v : Word) : State :=
  match u with
  | .rle => { s with rle := s.rle.setLen n v }
  | .huf => { s with huf := s.huf.setLen n v }
  | .lzw => { s with lzw := s.lzw.setLen n v }

/-! ### Elements of a buffer by name -/

/-- Element `i` of buffer `b`, if it was written since reset. -/
def State.peek (s : State) (b : Buf) (i : Nat) : Option Elem :=
  match b with
  | .rleSym => (s.rle.sym.get i).map .sym
  | .rleRun => (s.rle.run.get i).map .run
  | .rleTxt => (s.rle.txt.get i).map .sym
  | .rleByt => (s.rle.byt.get i).map .byte
  | .hufSym => (s.huf.sym.get i).map .sym
  | .hufBit => (s.huf.bit.get i).map .bit
  | .hufTab => (s.huf.tab.get i).map .entry
  | .hufByt => (s.huf.byt.get i).map .byte
  | .lzwSym => (s.lzw.sym.get i).map .sym
  | .lzwCod => (s.lzw.cod.get i).map .code
  | .lzwByt => (s.lzw.byt.get i).map .byte

/-- Store `v` at index `i` of buffer `b`. A value of another type than the buffer's is never stored: `step`
refuses it before (log 8). -/
def State.poke (s : State) (b : Buf) (i : Nat) (v : Elem) : State :=
  match b, v with
  | .rleSym, .sym a => { s with rle := { s.rle with sym := s.rle.sym.set i a } }
  | .rleRun, .run a => { s with rle := { s.rle with run := s.rle.run.set i a } }
  | .rleTxt, .sym a => { s with rle := { s.rle with txt := s.rle.txt.set i a } }
  | .rleByt, .byte a => { s with rle := { s.rle with byt := s.rle.byt.set i a } }
  | .hufSym, .sym a => { s with huf := { s.huf with sym := s.huf.sym.set i a } }
  | .hufBit, .bit a => { s with huf := { s.huf with bit := s.huf.bit.set i a } }
  | .hufTab, .entry a => { s with huf := { s.huf with tab := s.huf.tab.set i a } }
  | .hufByt, .byte a => { s with huf := { s.huf with byt := s.huf.byt.set i a } }
  | .lzwSym, .sym a => { s with lzw := { s.lzw with sym := s.lzw.sym.set i a } }
  | .lzwCod, .code a => { s with lzw := { s.lzw with cod := s.lzw.cod.set i a } }
  | .lzwByt, .byte a => { s with lzw := { s.lzw with byt := s.lzw.byt.set i a } }
  | _, _ => s

/-- The `k`-th free value, of the element type of buffer `b` (93_implementation_defined.md U1 to U3). -/
def freeElem (c : Config) (b : Buf) (k : Nat) : Elem :=
  match b with
  | .rleSym => .sym (Config.freeSym .rle k)
  | .rleRun => .run (freeRun k)
  | .rleTxt => .sym (Config.freeSym .rle k)
  | .rleByt => .byte (Config.freeByte .rle k)
  | .hufSym => .sym (Config.freeSym .huf k)
  | .hufBit => .bit (Config.freeBit .huf k)
  | .hufTab => .entry (freeEntry c k)
  | .hufByt => .byte (Config.freeByte .huf k)
  | .lzwSym => .sym (Config.freeSym .lzw k)
  | .lzwCod => .code (Config.freeWord .lzw k)
  | .lzwByt => .byte (Config.freeByte .lzw k)

/-! ### The four operations (20_memory.md R66, R69) -/

/-- `RegRead(u, n)`: a length register of a busy unit reads a free value (R69, U3); every other read returns
the register, and 0 for a number the unit does not have (10_state.md R23; log 13). -/
def State.regRead (s : State) (u : UnitId) (n : Nat) : State :=
  if s.busy u && isLengthReg u n then s.answerFree u (fun k => .word (Config.freeWord u k))
  else s.answer u (.word (s.reg u n))

/-- `RegWrite(u, n, v)`: ignored while the unit is busy (R69; 10_state.md R39); else number 0 issues the
command `v` (10_state.md R35), a length register takes `v`, any other number is ignored (10_state.md R23). -/
def State.regWrite (s : State) (u : UnitId) (n : Nat) (v : Word) : State :=
  if s.busy u then s
  else if n = 0 then s.accept u v
  else s.setLen u n v

/-- `BufRead(u, X, i)`: a free value while the unit is busy (R69, U3), at an index at or above the capacity
(R64, U2) and for an element never written since reset (U1); else the element as last written. -/
def State.bufRead (s : State) (b : Buf) (i : Nat) : State :=
  if s.busy b.unit || decide (s.cfg.cap b ≤ i) then
    s.answerFree b.unit (fun k => .elem (freeElem s.cfg b k))
  else
    match s.peek b i with
    | some v => s.answer b.unit (.elem v)
    | none => s.answerFree b.unit (fun k => .elem (freeElem s.cfg b k))

/-- `BufWrite(u, X, i, v)`: ignored while the unit is busy (R69) and at an index at or above the capacity
(R64). It does not change the length register (R66). -/
def State.bufWrite (s : State) (b : Buf) (i : Nat) (v : Elem) : State :=
  if s.busy b.unit || decide (s.cfg.cap b ≤ i) then s else s.poke b i v

/-- One operation of the host port. A `BufWrite` of a value that is not of the buffer's element type is no
operation of the port (R66; log 8). -/
def State.port (s : State) (op : PortOp) : Host.Outcome State Fault Refusal :=
  match op with
  | .regRead u n => .next (s.regRead u n)
  | .regWrite u n v => .next (s.regWrite u n v)
  | .bufRead b i => .next (s.bufRead b i)
  | .bufWrite b i v => if v.fits s.cfg b then .next (s.bufWrite b i v) else .refused .notAnElement

/-- The reset input (70_reset_and_hazards.md R280 to R282): every unit in the reset state, a command in
progress dropped, every buffer element unspecified. The model's own fields stay (log 9). -/
def State.resetInput (s : State) : State :=
  { s with
    rle := .reset s.rle.aux
    huf := .reset s.huf.aux
    lzw := .reset s.lzw.aux }

end Sys2Proof.Machine
end

