-- ==== Sys2Proof/Machine/Complete.lean ====
section
/-! DEFINITION. What happens next: the completion of a busy unit, one event of the agenda, the completions
that follow when the agenda is empty (70_reset_and_hazards.md R293; log 3). -/

namespace Sys2Proof.Machine

/-- `raise IllegalCommand(0)` (60_exceptions.md R250). -/
def illegal : Report where
  cause := .illegalCommand
  info := 0

/-- The completion step of unit `u` (10_state.md R37, R38): the word in `CMD` is the command it accepted
(10_state.md R24, R35). A word that is not legal for the unit ends with `IllegalCommand`, nothing read and
nothing else written (60_exceptions.md R250, R252). -/
def State.completeUnit (s : State) (u : UnitId) : Host.Outcome State Fault Refusal :=
  match decode u (s.ctrl u).cmd with
  | .ok i => exec i s
  | .error _ => .next (s.raise u illegal)

/-- One event. A completion of a unit that is not busy is no transition of the spec and changes nothing
(10_state.md R26; log 12). -/
def State.handle (s : State) (e : Event) : Host.Outcome State Fault Refusal :=
  match e with
  | .port op => s.port op
  | .complete u => if s.busy u then s.completeUnit u else .next s
  | .reset => .next s.resetInput

/-- The first busy unit. -/
def State.firstBusy (s : State) : Option UnitId :=
  if s.busy .rle then some .rle
  else if s.busy .huf then some .huf
  else if s.busy .lzw then some .lzw
  else none

/-- With an empty agenda the host does nothing more: a busy unit eventually completes
(70_reset_and_hazards.md R293), and when none is busy the machine waits for ever (R296). -/
def State.quiesce (s : State) : Host.Outcome State Fault Refusal :=
  match s.firstBusy with
  | some u => s.completeUnit u
  | none => .next s

/-- `s`, with the command word `w` just accepted by unit `u`, its completion next. -/
def State.accepted (s : State) (u : UnitId) (w : Word) : State :=
  { s.accept u w with agenda := .complete u :: s.agenda }

end Sys2Proof.Machine
end

