-- ==== Sys2Proof/Machine/Step.lean ====
section
/-! DEFINITION. The step of the machine: the next event of the agenda (log 3). -/

namespace Sys2Proof.Machine

/-- One step: the oldest event of the agenda takes effect; with an empty agenda, a busy unit completes. -/
def step (s : State) : Host.Outcome State Fault Refusal :=
  match s.agenda with
  | [] => s.quiesce
  | e :: rest => { s with agenda := rest }.handle e

/-- HCC fetches no instructions (10_state.md R22): a command comes to run when the host writes its word to
`CMD`. This is `s` right after that acceptance, the unit's completion next (log 7). -/
def State.withFetchWord (s : State) (nbits w : Nat) : State :=
  s.accepted (tableUnit (tableWord nbits w)) (tableWord nbits w)

end Sys2Proof.Machine
end

