-- ==== Sys2Proof/Safety.lean ====
section
/-! DEFINITION. What statements about HCC speak of: the invariant of the machine, the end of a run, what a
command may change. -/

namespace Sys2Proof.Machine

/-- The legal control registers of unit `u`: `STATUS` is one of the five values of 10_state.md R26; `ERR`
is a cause code exactly in phase ERROR (R28); `ERRINFO` is 0 when `ERR` is (R29); `CMD` is 0 in phase IDLE
(R24, R40); a unit in phase DONE has run a legal command, and one in phase ERROR shows `IllegalCommand`
exactly when its command word is illegal (60_exceptions.md R250). -/
structure Ctrl.Inv (u : UnitId) (c : Ctrl) : Prop where
  phase : c.status = statusIdle ∨ c.status = statusBusy ∨ c.status = statusDone false ∨
    c.status = statusDone true ∨ c.status = statusError
  idle : c.status = statusIdle → c.cmd = 0
  noError : c.status ≠ statusError → c.err = 0
  error : c.status = statusError → ∃ e : Cause, c.err = e.code
  info : c.err = 0 → c.errInfo = 0
  doneLegal : c.status = statusDone false ∨ c.status = statusDone true →
    ∃ i, decode u c.cmd = .ok i
  illegal : c.status = statusError →
    (c.err = Cause.illegalCommand.code ↔ ∃ r, decode u c.cmd = .error r)

/-- A buffer in canonical form, its indices below its capacity (10_state.md R31; log 16). -/
structure Memory.Inv {α : Type} (m : Memory α) (cap : Nat) : Prop where
  rising : m.wf
  inside : m.within cap

/-- Unit RLE is in a legal state under the capacities `c`; scratch exists, with its initial values, exactly
while a command is in progress (10_state.md R36, R40; log 4). -/
structure RleUnit.Inv (c : Config) (x : RleUnit) : Prop where
  ctrl : x.ctrl.Inv .rle
  sym : x.sym.Inv c.capSym
  run : x.run.Inv c.capRun
  txt : x.txt.Inv c.capTxt
  byt : x.byt.Inv c.capByt
  scratch : x.scratch = if x.ctrl.busy then some .init else none

/-- Unit HUF is in a legal state: every `TAB` code has at most `CAP_CLEN` bits (10_state.md R33). -/
structure HufUnit.Inv (c : Config) (x : HufUnit) : Prop where
  ctrl : x.ctrl.Inv .huf
  sym : x.sym.Inv c.capSym
  bit : x.bit.Inv c.capBit
  tab : x.tab.Inv c.capTab
  byt : x.byt.Inv c.capByt
  codes : ∀ e ∈ x.tab, e.2.wellFormed c = true
  scratch : x.scratch = if x.ctrl.busy then some .init else none

/-- Unit LZW is in a legal state. -/
structure LzwUnit.Inv (c : Config) (x : LzwUnit) : Prop where
  ctrl : x.ctrl.Inv .lzw
  sym : x.sym.Inv c.capSym
  cod : x.cod.Inv c.capCod
  byt : x.byt.Inv c.capByt
  scratch : x.scratch = if x.ctrl.busy then some .init else none

/-- The invariant of the machine. -/
structure State.Inv (s : State) : Prop where
  cfg : s.cfg.wellFormed = true
  rle : s.rle.Inv s.cfg
  huf : s.huf.Inv s.cfg
  lzw : s.lzw.Inv s.cfg

/-- A run is over: the host has issued its last operation and no unit is busy (70_reset_and_hazards.md
R296). -/
def State.over (s : State) : Prop := s.agenda = [] ∧ ∀ u, s.busy u = false

/-- `u.X` holds exactly the content `es`: its length register says so and every element below it was
written since reset (10_state.md R31). -/
def Memory.Holds {α : Type} (m : Memory α) (len : Word) (xs : List α) : Prop :=
  len.toNat = xs.length ∧ m.content xs.length = xs.map some

/-- Unit `u` of `s` and `t` are the same. -/
def State.sameUnit (s t : State) : UnitId → Prop
  | .rle => s.rle = t.rle
  | .huf => s.huf = t.huf
  | .lzw => s.lzw = t.lzw

/-- Buffer `b` and its length register are the same in `s` and `t`: every element reads alike. -/
def State.sameBuf (s t : State) (b : Buf) : Prop :=
  s.len b = t.len b ∧ ∀ i, s.peek b i = t.peek b i

/-! ### How a command leaves its unit: the words of the statements about commands -/

/-- Unit RLE after a command that ended without error (10_state.md R37), its destinations written already:
`STATUS` is `status`, scratch is gone, `k` is the number of the next free value. -/
def RleUnit.ended (x : RleUnit) (status : Word) (k : Nat) : RleUnit :=
  { x with
    ctrl := { x.ctrl with status := status }
    scratch := none
    aux := { x.aux with free := k } }

/-- Unit RLE after a command that ended with the error `e` (60_exceptions.md R251, R253): only `STATUS`,
`ERR` and `ERRINFO` differ, scratch is gone. -/
def RleUnit.failed (x : RleUnit) (e : Report) (k : Nat) : RleUnit :=
  { x with
    ctrl := { x.ctrl with status := 0x4, err := e.cause.code, errInfo := errInfoOf e.info }
    scratch := none
    aux := { x.aux with free := k } }

/-- As `RleUnit.ended`, for HUF. -/
def HufUnit.ended (x : HufUnit) (status : Word) (k : Nat) : HufUnit :=
  { x with
    ctrl := { x.ctrl with status := status }
    scratch := none
    aux := { x.aux with free := k } }

/-- As `RleUnit.failed`, for HUF. -/
def HufUnit.failed (x : HufUnit) (e : Report) (k : Nat) : HufUnit :=
  { x with
    ctrl := { x.ctrl with status := 0x4, err := e.cause.code, errInfo := errInfoOf e.info }
    scratch := none
    aux := { x.aux with free := k } }

/-- As `RleUnit.ended`, for LZW. -/
def LzwUnit.ended (x : LzwUnit) (status : Word) (k : Nat) : LzwUnit :=
  { x with
    ctrl := { x.ctrl with status := status }
    scratch := none
    aux := { x.aux with free := k } }

/-- As `RleUnit.failed`, for LZW. -/
def LzwUnit.failed (x : LzwUnit) (e : Report) (k : Nat) : LzwUnit :=
  { x with
    ctrl := { x.ctrl with status := 0x4, err := e.cause.code, errInfo := errInfoOf e.info }
    scratch := none
    aux := { x.aux with free := k } }

/-- `CapacityExceeded(id)` (60_exceptions.md R249). -/
def tooLong (id : Nat) : Report where
  cause := .capacityExceeded
  info := id

/-- The `STATUS` of phase DONE for an empty or a non-empty symbol stream (10_state.md R26, R27). -/
def doneWord (empty : Prop) [Decidable empty] : Word := if empty then 0xA else 0x2

/-- Unit `u` of `s` is in the reset state (10_state.md R40): registers 0, every buffer element unspecified,
no scratch. -/
def State.unitReset (s : State) : UnitId → Prop
  | .rle => s.rle = .reset s.rle.aux
  | .huf => s.huf = .reset s.huf.aux
  | .lzw => s.lzw = .reset s.lzw.aux

/-- The unit an event is about; the reset input is about all. -/
def Event.unit : Event → Option UnitId
  | .port (.regRead u _) => some u
  | .port (.regWrite u _ _) => some u
  | .port (.bufRead b _) => some b.unit
  | .port (.bufWrite b _ _) => some b.unit
  | .complete u => some u
  | .reset => none

/-- Unit `u` of `s` has scratch, or none. -/
def State.hasScratch (s : State) : UnitId → Bool
  | .rle => s.rle.scratch.isSome
  | .huf => s.huf.scratch.isSome
  | .lzw => s.lzw.scratch.isSome

/-- Unit `u`'s scratch has its initial values (10_state.md R35, R36). -/
def State.initialScratch (s : State) : UnitId → Prop
  | .rle => s.rle.scratch = some .init
  | .huf => s.huf.scratch = some .init
  | .lzw => s.lzw.scratch = some .init

/-! ### Words of the statements about the codecs -/

/-- The leaves of a tree, left to right, each with its symbol and its weight. -/
def HuffNode.leaves : HuffNode → List SymCount
  | .leaf sym w _ => [⟨sym, w⟩]
  | .node l r _ _ => l.leaves ++ r.leaves

/-- The number of nodes of a tree. -/
def HuffNode.size : HuffNode → Nat
  | .leaf _ _ _ => 1
  | .node l r _ _ => l.size + r.size + 1

/-- The sequence numbers of the nodes of a tree, its own first. -/
def HuffNode.seqs : HuffNode → List Nat
  | .leaf _ _ q => [q]
  | .node l r _ q => q :: (l.seqs ++ r.seqs)

/-- The node a path leads to, from the root: 0 is the left edge, 1 the right edge (41_huffman.md R166). -/
def HuffNode.follow : HuffNode → Bits → Option HuffNode
  | t, [] => some t
  | .leaf _ _ _, _ :: _ => none
  | .node l _ _ _, false :: p => l.follow p
  | .node _ r _ _, true :: p => r.follow p

/-- The value of a digit sequence, most significant first (40_rle.md R138). -/
def digitsValue (D : List Sym) : Nat := D.foldl (fun n d => n * 10 + digitVal d) 0

/-- A token of a text: one or more digits, then a symbol that is not a digit (30_encoding.md R97). -/
structure Token where
  digits : List Sym
  sym : Sym
  deriving DecidableEq, Repr

def Token.ok (t : Token) : Prop :=
  t.digits ≠ [] ∧ (∀ d ∈ t.digits, isDigit d = true) ∧ isDigit t.sym = false

def Token.text (t : Token) : List Sym := t.digits ++ [t.sym]

/-- The run-list invariants (10_state.md R34): counts at least 1, adjacent pairs never share a symbol. -/
def runListOk (R : List SymCount) : Prop :=
  (∀ r ∈ R, 1 ≤ r.cnt) ∧ R.IsChain (fun a b => a.sym ≠ b.sym)

/-- A frequency table as `HUF.ENCB` writes it (41_huffman.md R161, R162): counts at least 1, symbols
strictly ascending. -/
def freqTableOk (F : List SymCount) : Prop :=
  (∀ e ∈ F, 1 ≤ e.cnt) ∧ F.Pairwise (fun a b => a.sym.toNat < b.sym.toNat)

/-- A code table that is a mapping to non-empty codes with the prefix property (41_huffman.md R171). -/
def codeTableOk (C : List Entry) : Prop :=
  (∀ e ∈ C, e.code ≠ []) ∧
  C.Pairwise (fun d e => d.sym ≠ e.sym ∧ ¬ d.code <+: e.code ∧ ¬ e.code <+: d.code)

/-- The code table of a symbol stream (41_huffman.md R172). -/
def tableOf (S : List Sym) : List Entry := huffCodes (huffTree (huffFreq S))

end Sys2Proof.Machine
end

