-- ==== Sys2Proof/Certificates/Slice0/Obligations.lean ====
section
/-! DEFINITION. The statements about HCC, each after the rules of spec/ its docstring names. -/

open Sys2Proof Sys2Proof.Machine

/-! ### The command word (30_encoding.md) -/

/-- 30_encoding.md section 1: one word of each unit, written out from the opcode map, decodes to its
command, and each way a word can be illegal is rejected by its name. -/
def Obligations.SampleWordsDecode : Prop :=
  decode .rle 0x00000012 = .ok .rleEncb ∧ decode .rle 0x00000015 = .ok .rleDecs ∧
  decode .huf 0x00000021 = .ok .hufDec ∧ decode .lzw 0x00000033 = .ok .lzwDecb ∧
  decode .rle 0x00000000 = .error .noUnit ∧ decode .lzw 0x00000040 = .error .noUnit ∧
  decode .rle 0x00000020 = .error .otherUnit ∧ decode .rle 0x00000016 = .error .noFunc ∧
  decode .huf 0x00000024 = .error .noFunc ∧ decode .rle 0x80000010 = .error .zeroField

/-- R92: a word written to a unit is legal exactly when it is the word of a command of that unit (so decoding
inverts encoding), that is when its `zero` field is 0, its `unit` field the number of the unit and its `func`
field at most 5 in RLE, 3 in HUF and LZW; the fourteen words; bit 0 of `func` tells decoders from
encoders. -/
def Obligations.LegalWordsAreTheFourteen : Prop :=
  (∀ (u : UnitId) (w : Word) (i : Instr), decode u w = .ok i ↔ i.unit = u ∧ w = encode i) ∧
  (∀ (u : UnitId) (w : Word), (∃ i, decode u w = .ok i) ↔
    zeroField w = 0 ∧ unitOfNumber (unitField w).toNat = some u ∧
    (funcField w).toNat ≤ (match u with | .rle => 5 | .huf => 3 | .lzw => 3)) ∧
  (encode .rleEnc = 0x00000010 ∧ encode .rleDec = 0x00000011 ∧ encode .rleEncb = 0x00000012 ∧
    encode .rleDecb = 0x00000013 ∧ encode .rleEncs = 0x00000014 ∧ encode .rleDecs = 0x00000015 ∧
    encode .hufEnc = 0x00000020 ∧ encode .hufDec = 0x00000021 ∧ encode .hufEncb = 0x00000022 ∧
    encode .hufDecb = 0x00000023 ∧ encode .lzwEnc = 0x00000030 ∧ encode .lzwDec = 0x00000031 ∧
    encode .lzwEncb = 0x00000032 ∧ encode .lzwDecb = 0x00000033) ∧
  ∀ i : Instr, (funcField (encode i)).getLsbD 0 = i.isDecoder

/-! ### Reset (10_state.md section 5; 70_reset_and_hazards.md section 1) -/

/-- R40: the state right after reset, for the reset state and for the reset input in any state: registers 0,
every element unspecified, no scratch; so every buffer's content is empty. -/
def Obligations.ResetState : Prop :=
  ∀ (s : State) (u : UnitId), s = State.reset ∨ (∃ s0 : State, s = s0.resetInput) →
    s.ctrl u = ⟨0, 0, 0, 0⟩ ∧ (∀ n, s.reg u n = 0) ∧ s.hasScratch u = false ∧
    ∀ b : Buf, s.len b = 0 ∧ ∀ i, s.peek b i = none

/-- R282: the reset input ends a command in progress: no result, no report, scratch dropped, every element
of every buffer unspecified; the unit is in the reset state. The model's own fields stay (log 9). -/
def Obligations.ResetDropsTheCommand : Prop :=
  ∀ (s : State) (rest : List Event), s.agenda = .reset :: rest →
    ∃ t, step s = .next t ∧ t.cfg = s.cfg ∧ t.agenda = rest ∧
      ∀ u, t.unitReset u ∧ t.aux u = s.aux u

/-- 70_reset_and_hazards.md section 2: a command issued right after reset runs on empty sources: the
encoders and the decoders of plain buffers complete with `EMPTY`, the three `DECB` end with
`MalformedSerializedData(0)`. -/
def Obligations.FirstCommandAfterReset : Prop :=
  ∀ (s : State) (i : Instr), s.unitReset i.unit → 16 ≤ s.cfg.capByt →
    ∃ t, exec i (s.accept i.unit (encode i)) = .next t ∧
      if i = .rleDecb ∨ i = .hufDecb ∨ i = .lzwDecb then t.ctrl i.unit = ⟨encode i, 0x4, 1, 0⟩
      else t.ctrl i.unit = ⟨encode i, 0xA, 0, 0⟩

/-! ### The life of a command (10_state.md section 4; 60_exceptions.md) -/

/-- R35: a write of `W` to `CMD` of a unit that is not busy is acceptance: the four control registers and
fresh scratch, no buffer and no length register. Every word is accepted; an illegal one ends with
`IllegalCommand`. -/
def Obligations.Acceptance : Prop :=
  (∀ (s : State) (u : UnitId) (w : Word) (rest : List Event),
    s.agenda = .port (.regWrite u 0 w) :: rest → s.busy u = false →
    ∃ t, step s = .next t ∧ t.ctrl u = ⟨w, 0x1, 0, 0⟩ ∧ t.initialScratch u ∧
      (∀ b, s.sameBuf t b) ∧ (∀ v, v ≠ u → s.sameUnit t v) ∧ t.aux u = s.aux u ∧
      t.cfg = s.cfg ∧ t.agenda = rest) ∧
  ∀ (s : State) (u : UnitId) (rest : List Event), s.agenda = .complete u :: rest →
    s.busy u = true → (∀ i, decode u (s.ctrl u).cmd ≠ .ok i) →
    ∃ t, step s = .next t ∧ (t.ctrl u).status = 0x4 ∧ (t.ctrl u).err = 8

/-- R250: an illegal command word: `ERR` 8, `ERRINFO` 0, the word stays in `CMD`, nothing else changes. -/
def Obligations.IllegalCommandReport : Prop :=
  ∀ (s : State) (u : UnitId) (rest : List Event), s.agenda = .complete u :: rest →
    s.busy u = true → (∀ i, decode u (s.ctrl u).cmd ≠ .ok i) →
    ∃ t, step s = .next t ∧ t.ctrl u = ⟨(s.ctrl u).cmd, 0x4, 8, 0⟩ ∧ t.hasScratch u = false ∧
      (∀ b, s.sameBuf t b) ∧ (∀ v, v ≠ u → s.sameUnit t v) ∧ t.aux u = s.aux u ∧
      t.cfg = s.cfg ∧ t.agenda = rest

/-- 10_state.md R35, R37: when the unit's completion is next and the word in its `CMD` decodes, the step is
the command's meaning in the state without that event; with an empty agenda the first busy unit completes
(log 3). A stored command word is run as the very next step (log 7). -/
def Obligations.StepRunsTheDecodedCommand : Prop :=
  (∀ (s : State) (u : UnitId) (i : Instr) (rest : List Event), s.agenda = .complete u :: rest →
    s.busy u = true → decode u (s.ctrl u).cmd = .ok i →
    step s = exec i { s with agenda := rest }) ∧
  (∀ (s : State) (u : UnitId) (i : Instr), s.agenda = [] → s.firstBusy = some u →
    decode u (s.ctrl u).cmd = .ok i → step s = exec i s) ∧
  ∀ (s : State) (i : Instr),
    step (s.withFetchWord 32 (encode i).toNat) = exec i (s.accept i.unit (encode i))

/-- 70_reset_and_hazards.md section 5 (no stuck state, no hang) and log 8: a step never faults; it answers a
next state, but for a `BufWrite` of a value that is not of the buffer's element type, which it refuses by
name. -/
def Obligations.StepGoesOn : Prop :=
  ∀ s : State, (∃ t, step s = .next t) ∨
    ∃ (b : Buf) (i : Nat) (v : Elem) (rest : List Event),
      s.agenda = .port (.bufWrite b i v) :: rest ∧ v.fits s.cfg b = false ∧
      step s = .refused .notAnElement

/-- R241, with 10_state.md section 4: the numbers of the causes; every command, in every state, completes: in
phase DONE, `EMPTY` set exactly when the unit's `SYM_LEN` is 0 then, `ERR` and `ERRINFO` as they were, or in
phase ERROR with one of the causes the table lists for it; and an illegal word ends with cause 8. -/
def Obligations.EveryCommandCompletes : Prop :=
  (Cause.malformedSerializedData.code = 1 ∧ Cause.corruptedData.code = 2 ∧
    Cause.invalidPrefixCode.code = 3 ∧ Cause.corruptedLZWStream.code = 4 ∧
    Cause.unsupportedSymbolRange.code = 5 ∧ Cause.badCodeTable.code = 6 ∧
    Cause.capacityExceeded.code = 7 ∧ Cause.illegalCommand.code = 8) ∧
  (∀ (i : Instr) (s : State), ∃ t, exec i s = .next t ∧
    (t.ctrl i.unit).cmd = (s.ctrl i.unit).cmd ∧
    (((t.ctrl i.unit).status = doneWord (t.reg i.unit 4 = 0) ∧
        (t.ctrl i.unit).err = (s.ctrl i.unit).err ∧
        (t.ctrl i.unit).errInfo = (s.ctrl i.unit).errInfo) ∨
      ((t.ctrl i.unit).status = 0x4 ∧ ∃ e ∈ causesOf i, (t.ctrl i.unit).err = e.code))) ∧
  ∀ (s : State) (u : UnitId) (r : Illegal), decode u (s.ctrl u).cmd = .error r →
    ∃ t, s.completeUnit u = .next t ∧ (t.ctrl u).status = 0x4 ∧ (t.ctrl u).err = 8

/-- R253: a command that ends with an error has changed no buffer element and no length register; only the
report differs. -/
def Obligations.ErrorChangesNothing : Prop :=
  ∀ (i : Instr) (s t : State), exec i s = .next t → (t.ctrl i.unit).status = 0x4 →
    (∀ b, s.sameBuf t b) ∧ (t.ctrl i.unit).cmd = (s.ctrl i.unit).cmd ∧
    (∀ v, v ≠ i.unit → s.sameUnit t v) ∧ t.cfg = s.cfg ∧ t.agenda = s.agenda

/-- R74: a command changes no buffer and no length register but those of its destinations, and no buffer is
both source and destination. -/
def Obligations.OnlyDestinationsChange : Prop :=
  (∀ (i : Instr) (s t : State) (b : Buf), exec i s = .next t → b ∉ i.destinations → s.sameBuf t b) ∧
  ∀ (i : Instr) (b : Buf), b ∈ i.sources → b ∉ i.destinations

/-- 10_state.md section 4 (completion without error): every element of a destination's content is written,
the elements above its new length are as they were, `CMD`, `ERR`, `ERRINFO` and the other units too. -/
def Obligations.CompletionFrame : Prop :=
  ∀ (i : Instr) (s t : State), s.cfg.wellFormed = true → exec i s = .next t →
    (t.ctrl i.unit).status ≠ 0x4 →
    (∀ b ∈ i.destinations, ∀ j, if j < (t.len b).toNat then (t.peek b j).isSome = true
      else t.peek b j = s.peek b j) ∧
    (t.ctrl i.unit).cmd = (s.ctrl i.unit).cmd ∧ (t.ctrl i.unit).err = (s.ctrl i.unit).err ∧
    (t.ctrl i.unit).errInfo = (s.ctrl i.unit).errInfo ∧
    (t.aux i.unit).reply = (s.aux i.unit).reply ∧ t.hasScratch i.unit = false ∧
    (∀ v, v ≠ i.unit → s.sameUnit t v) ∧ t.cfg = s.cfg ∧ t.agenda = s.agenda

/-- 60_exceptions.md section 2 (`CapacityExceeded`): the id reported is the least among the limits exceeded;
a source whose length register exceeds its capacity ends every command so, nothing read. -/
def Obligations.SourceOverflow : Prop :=
  (∀ (ls : List Limit) (id : Nat), leastExceeded ls = some id ↔
    (∃ l ∈ ls, l.cap < l.need ∧ l.id = id) ∧ ∀ l ∈ ls, l.cap < l.need → id ≤ l.id) ∧
  ∀ (i : Instr) (s : State) (b : Buf), b ∈ i.sources → s.cfg.cap b < (s.len b).toNat →
    (∀ c ∈ i.sources, s.cfg.cap c < (s.len c).toNat → b.id ≤ c.id) →
    ∃ t, exec i s = .next t ∧
      t.ctrl i.unit = ⟨(s.ctrl i.unit).cmd, 0x4, 7, BitVec.ofNat 32 b.id⟩ ∧
      (∀ c, s.sameBuf t c) ∧ t.aux i.unit = s.aux i.unit

/-- 10_state.md R36, 20_memory.md R73, 60_exceptions.md R255: the outcome of a command depends on its sources
below their lengths alone: two states that agree on them (and on the capacities and the unit's control
registers) get the same report and the same results, when every source element was written or the counts of
free values agree. -/
def Obligations.ResultDependsOnSourcesOnly : Prop :=
  ∀ (i : Instr) (s s' : State), s.cfg = s'.cfg → s.ctrl i.unit = s'.ctrl i.unit →
    (∀ b ∈ i.sources, s.len b = s'.len b ∧
      ∀ j, j < (s.len b).toNat → s.peek b j = s'.peek b j) →
    ((s.aux i.unit).free = (s'.aux i.unit).free ∨
      ∀ b ∈ i.sources, ∀ j, j < (s.len b).toNat → (s.peek b j).isSome = true) →
    ∃ t t', exec i s = .next t ∧ exec i s' = .next t' ∧ t.ctrl i.unit = t'.ctrl i.unit ∧
      ((t.ctrl i.unit).status ≠ 0x4 → ∀ b ∈ i.destinations, t.len b = t'.len b ∧
        ∀ j, j < (t.len b).toNat → t.peek b j = t'.peek b j)

/-- 20_memory.md section 5, 60_exceptions.md section 5: what happens in one unit does not depend on what
happens in another: two events of different units have the same outcome in either order. -/
def Obligations.UnitsAreIndependent : Prop :=
  ∀ (s t t' : State) (e e' : Event) (u u' : UnitId), e.unit = some u → e'.unit = some u' → u ≠ u' →
    s.handle e = .next t → s.handle e' = .next t' →
    ∃ r, t.handle e' = .next r ∧ t'.handle e = .next r

/-- 70_reset_and_hazards.md R293 and log 3: with no host operation left every busy unit completes; three
steps end the run. -/
def Obligations.BusyUnitsComplete : Prop :=
  ∀ s : State, s.agenda = [] → ∃ t, Host.Core.run Sys2Proof.core 3 s = .next t ∧ t.over

/-! ### Invariants -/

/-- The reset state meets the invariant (10_state.md R26, R28, R29, R36, R40). -/
def Obligations.InvariantAtReset : Prop := State.reset.Inv

/-- 10_state.md R26, R28, R29, R31, R33, R36, 60_exceptions.md R250: every step keeps the invariant:
`STATUS` is one of its five values, `ERR` is a cause code exactly in phase ERROR, a unit in phase DONE ran a
legal command, every buffer is in canonical form within its capacity, every code within `CAP_CLEN`, scratch
exists exactly in phase BUSY. -/
def Obligations.StepKeepsInvariant : Prop :=
  ∀ s t : State, s.Inv → step s = .next t → t.Inv

/-- 10_state.md section 2: the only transitions of a unit's phase: acceptance by a write to its `CMD`,
completion, reset. -/
def Obligations.PhaseTransitions : Prop :=
  ∀ (s t : State) (u : UnitId), s.Inv → step s = .next t →
    (t.ctrl u).status = (s.ctrl u).status ∨
    ((s.ctrl u).status ≠ 0x1 ∧ (t.ctrl u).status = 0x1 ∧
      ∃ w rest, s.agenda = .port (.regWrite u 0 w) :: rest) ∨
    ((s.ctrl u).status = 0x1 ∧
      ((t.ctrl u).status = 0x2 ∨ (t.ctrl u).status = 0xA ∨ (t.ctrl u).status = 0x4) ∧
      (s.agenda = [] ∨ ∃ rest, s.agenda = .complete u :: rest)) ∨
    ((t.ctrl u).status = 0x0 ∧ ∃ rest, s.agenda = .reset :: rest)

/-! ### The host port (20_memory.md sections 3 and 4) -/

/-- R287: a host write to a busy unit is lost without a trace. -/
def Obligations.BusyUnitIgnoresWrites : Prop :=
  (∀ (s : State) (u : UnitId) (n : Nat) (v : Word) (rest : List Event),
    s.agenda = .port (.regWrite u n v) :: rest → s.busy u = true →
    step s = .next { s with agenda := rest }) ∧
  ∀ (s : State) (b : Buf) (i : Nat) (v : Elem) (rest : List Event),
    s.agenda = .port (.bufWrite b i v) :: rest → v.fits s.cfg b = true → s.busy b.unit = true →
    step s = .next { s with agenda := rest }

/-- 10_state.md R23, R30, 20_memory.md R69, R77: what a `RegRead` returns: `CMD`, `STATUS`, `ERR`, `ERRINFO`
always, a length register of a unit that is not busy, 0 for a number the unit does not have, also while it is
busy (log 13); a length register of a busy unit returns some word, the next free value (U3). Nothing changes
but the port's answer. -/
def Obligations.RegisterReads : Prop :=
  ∀ (s : State) (u : UnitId) (n : Nat) (rest : List Event),
    s.agenda = .port (.regRead u n) :: rest →
    ∃ t v, step s = .next t ∧ (t.aux u).reply = some (.word v) ∧
      (s.busy u = true → (4 ≤ n ∧ n ≤ 6 ∨ n = 7 ∧ u ≠ .lzw) →
        (t.aux u).free = (s.aux u).free + 1) ∧
      (s.busy u = false ∨ ¬ (4 ≤ n ∧ n ≤ 6 ∨ n = 7 ∧ u ≠ .lzw) →
        (t.aux u).free = (s.aux u).free ∧
        (n = 0 → v = (s.ctrl u).cmd) ∧ (n = 1 → v = (s.ctrl u).status) ∧
        (n = 2 → v = (s.ctrl u).err) ∧ (n = 3 → v = (s.ctrl u).errInfo) ∧
        (n = 4 → v = match u with
          | .rle => s.rle.symLen | .huf => s.huf.symLen | .lzw => s.lzw.symLen) ∧
        (n = 5 → v = match u with
          | .rle => s.rle.runLen | .huf => s.huf.bitLen | .lzw => s.lzw.codLen) ∧
        (n = 6 → v = match u with
          | .rle => s.rle.bytLen | .huf => s.huf.tabLen | .lzw => s.lzw.bytLen) ∧
        (n = 7 → v = match u with
          | .rle => s.rle.txtLen | .huf => s.huf.bytLen | .lzw => 0) ∧
        (8 ≤ n → v = 0)) ∧
      (∀ b, s.sameBuf t b) ∧ (∀ w, t.ctrl w = s.ctrl w) ∧ (∀ w, w ≠ u → s.sameUnit t w) ∧
      (∀ w, t.hasScratch w = s.hasScratch w ∧ (s.initialScratch w → t.initialScratch w)) ∧
      t.cfg = s.cfg ∧ t.agenda = rest

/-- 10_state.md R23, R30: in a unit that is not busy a length register takes any word and reads it back; a
write to `STATUS`, `ERR`, `ERRINFO` or to a number the unit does not have changes nothing; no other register
and no element changes. -/
def Obligations.LengthRegisterWrites : Prop :=
  ∀ (s : State) (u : UnitId) (n : Nat) (v : Word) (rest : List Event),
    s.agenda = .port (.regWrite u n v) :: rest → s.busy u = false → n ≠ 0 →
    ∃ t, step s = .next t ∧
      (∀ m, t.reg u m = if m = n ∧ (4 ≤ n ∧ n ≤ 6 ∨ n = 7 ∧ u ≠ .lzw) then v
        else s.reg u m) ∧
      (¬ (4 ≤ n ∧ n ≤ 6 ∨ n = 7 ∧ u ≠ .lzw) → t = { s with agenda := rest }) ∧
      (∀ b j, t.peek b j = s.peek b j) ∧ (∀ w, w ≠ u → s.sameUnit t w) ∧
      t.aux u = s.aux u ∧ t.hasScratch u = s.hasScratch u ∧ t.cfg = s.cfg ∧ t.agenda = rest

/-- 20_memory.md R64, R66, R71: in a unit that is not busy a `BufWrite` below the capacity replaces exactly
that element and no length register; at or above the capacity it is ignored. -/
def Obligations.BufWriteReplacesOneElement : Prop :=
  ∀ (s : State) (b : Buf) (i : Nat) (v : Elem) (rest : List Event), s.Inv →
    s.agenda = .port (.bufWrite b i v) :: rest → s.busy b.unit = false → v.fits s.cfg b = true →
    ∃ t, step s = .next t ∧
      (∀ c j, t.peek c j = if c = b ∧ j = i ∧ i < s.cfg.cap b then some v else s.peek c j) ∧
      (∀ c, t.len c = s.len c) ∧ (∀ u, t.ctrl u = s.ctrl u ∧ t.aux u = s.aux u) ∧
      (∀ u, u ≠ b.unit → s.sameUnit t u) ∧ t.hasScratch b.unit = s.hasScratch b.unit ∧
      t.cfg = s.cfg ∧ t.agenda = rest

/-- 20_memory.md R66, R69, 93_implementation_defined.md U1 to U3: a `BufRead` returns the element as last
written; where the spec leaves it open (the unit is busy, the index is at or above the capacity, nothing was
written there since reset) it returns some value, the next free one. No read has a side effect (R77). -/
def Obligations.BufReadReturnsTheElement : Prop :=
  ∀ (s : State) (b : Buf) (i : Nat) (rest : List Event),
    s.agenda = .port (.bufRead b i) :: rest →
    ∃ t, step s = .next t ∧
      (∀ v, s.busy b.unit = false → i < s.cfg.cap b → s.peek b i = some v →
        t.aux b.unit = ⟨(s.aux b.unit).free, some (.elem v)⟩) ∧
      (s.busy b.unit = true ∨ s.cfg.cap b ≤ i ∨ s.peek b i = none →
        ∃ v : Elem, v.fits s.cfg b = true ∧
          t.aux b.unit = ⟨(s.aux b.unit).free + 1, some (.elem v)⟩) ∧
      (∀ c, s.sameBuf t c) ∧ (∀ u, t.ctrl u = s.ctrl u) ∧
      (∀ u, u ≠ b.unit → s.sameUnit t u) ∧ t.hasScratch b.unit = s.hasScratch b.unit ∧
      t.cfg = s.cfg ∧ t.agenda = rest

/-- 10_state.md R37: reading a destination after it was written, element by element; the content just
written is the result. -/
def Obligations.DestinationReadsBack : Prop :=
  ∀ (α : Type) (m : Memory α) (xs : List α),
    (∀ j, (m.store xs).get j = if j < xs.length then xs[j]? else m.get j) ∧
    (m.wf → (m.store xs).wf) ∧ (xs.length < 2 ^ 32 → (m.store xs).Holds (BitVec.ofNat 32 xs.length) xs)

/-! ### Commands of RLE (40_rle.md) -/

/-- R131. -/
def Obligations.RleEncResult : Prop :=
  encode .rleEnc = 0x00000010 ∧
  (∀ s : State, s.cfg.capSym < s.rle.symLen.toNat →
    exec .rleEnc s = .next { s with rle := s.rle.failed (tooLong 0) s.rle.aux.free }) ∧
  ∀ (s : State) (S : List Sym) (k : Nat), s.rle.symLen.toNat ≤ s.cfg.capSym →
    s.rle.readSym s.rle.aux.free = (S, k) →
    ((rleRuns S).length ≤ s.cfg.capRun →
      exec .rleEnc s = .next { s with
        rle := { s.rle with
          run := s.rle.run.store ((rleRuns S).map SymCount.stored)
          runLen := BitVec.ofNat 32 (rleRuns S).length }.ended (doneWord (s.rle.symLen = 0)) k }) ∧
    (s.cfg.capRun < (rleRuns S).length →
      exec .rleEnc s = .next { s with rle := s.rle.failed (tooLong 1) k })

/-- R133: no check of the run-list invariants. -/
def Obligations.RleDecResult : Prop :=
  encode .rleDec = 0x00000011 ∧
  (∀ s : State, s.cfg.capRun < s.rle.runLen.toNat →
    exec .rleDec s = .next { s with rle := s.rle.failed (tooLong 1) s.rle.aux.free }) ∧
  ∀ (s : State) (R : List Run) (k : Nat), s.cfg.wellFormed = true →
    s.rle.runLen.toNat ≤ s.cfg.capRun → s.rle.readRun s.rle.aux.free = (R, k) →
    (((R.map Run.counted).map SymCount.cnt).sum ≤ s.cfg.capSym →
      exec .rleDec s = .next { s with
        rle := { s.rle with
          sym := s.rle.sym.store (rleExpand (R.map Run.counted))
          symLen := BitVec.ofNat 32 (rleExpand (R.map Run.counted)).length }.ended
            (doneWord (rleExpand (R.map Run.counted) = [])) k }) ∧
    (s.cfg.capSym < ((R.map Run.counted).map SymCount.cnt).sum →
      exec .rleDec s = .next { s with rle := s.rle.failed (tooLong 0) k })

/-- R134: the run-list is scratch. -/
def Obligations.RleEncbResult : Prop :=
  encode .rleEncb = 0x00000012 ∧
  (∀ s : State, s.cfg.capSym < s.rle.symLen.toNat →
    exec .rleEncb s = .next { s with rle := s.rle.failed (tooLong 0) s.rle.aux.free }) ∧
  ∀ (s : State) (S : List Sym) (k : Nat), s.rle.symLen.toNat ≤ s.cfg.capSym →
    s.rle.readSym s.rle.aux.free = (S, k) →
    ((rleRuns S).length ≤ s.cfg.capRun → 8 + 8 * (rleRuns S).length ≤ s.cfg.capByt →
      exec .rleEncb s = .next { s with
        rle := { s.rle with
          byt := s.rle.byt.store (serHcr1 (rleRuns S))
          bytLen := BitVec.ofNat 32 (8 + 8 * (rleRuns S).length) }.ended
            (doneWord (s.rle.symLen = 0)) k }) ∧
    ∀ id, leastExceeded [⟨1, (rleRuns S).length, s.cfg.capRun⟩,
        ⟨5, 8 + 8 * (rleRuns S).length, s.cfg.capByt⟩] = some id →
      exec .rleEncb s = .next { s with rle := s.rle.failed (tooLong id) k }

/-- R135: the parse, then the invariants, then the expansion. -/
def Obligations.RleDecbResult : Prop :=
  encode .rleDecb = 0x00000013 ∧
  (∀ s : State, s.cfg.capByt < s.rle.bytLen.toNat →
    exec .rleDecb s = .next { s with rle := s.rle.failed (tooLong 5) s.rle.aux.free }) ∧
  ∀ (s : State) (B : List Byte) (k : Nat), s.cfg.wellFormed = true →
    s.rle.bytLen.toNat ≤ s.cfg.capByt → s.rle.readByt s.rle.aux.free = (B, k) →
    (∀ e, parseHcr1 B = .error e →
      exec .rleDecb s = .next { s with rle := s.rle.failed e k }) ∧
    (∀ R e, parseHcr1 B = .ok R → checkRuns R = .error e →
      exec .rleDecb s = .next { s with rle := s.rle.failed e k }) ∧
    (∀ R, parseHcr1 B = .ok R → checkRuns R = .ok () → R.length ≤ s.cfg.capRun →
      (R.map SymCount.cnt).sum ≤ s.cfg.capSym →
      exec .rleDecb s = .next { s with
        rle := { s.rle with
          sym := s.rle.sym.store (rleExpand R)
          symLen := BitVec.ofNat 32 (rleExpand R).length }.ended (doneWord (R = [])) k }) ∧
    ∀ R id, parseHcr1 B = .ok R → checkRuns R = .ok () →
      leastExceeded [⟨1, R.length, s.cfg.capRun⟩, ⟨0, (R.map SymCount.cnt).sum, s.cfg.capSym⟩]
        = some id →
      exec .rleDecb s = .next { s with rle := s.rle.failed (tooLong id) k }

/-- R137. -/
def Obligations.RleEncsResult : Prop :=
  encode .rleEncs = 0x00000014 ∧
  (∀ s : State, s.cfg.capSym < s.rle.symLen.toNat →
    exec .rleEncs s = .next { s with rle := s.rle.failed (tooLong 0) s.rle.aux.free }) ∧
  ∀ (s : State) (S : List Sym) (k : Nat), s.rle.symLen.toNat ≤ s.cfg.capSym →
    s.rle.readSym s.rle.aux.free = (S, k) →
    ((rleRuns S).length ≤ s.cfg.capRun → (rleTextEnc S).length ≤ s.cfg.capTxt →
      exec .rleEncs s = .next { s with
        rle := { s.rle with
          txt := s.rle.txt.store (rleTextEnc S)
          txtLen := BitVec.ofNat 32 (rleTextEnc S).length }.ended
            (doneWord (s.rle.symLen = 0)) k }) ∧
    ∀ id, leastExceeded [⟨1, (rleRuns S).length, s.cfg.capRun⟩,
        ⟨6, (rleTextEnc S).length, s.cfg.capTxt⟩] = some id →
      exec .rleEncs s = .next { s with rle := s.rle.failed (tooLong id) k }

/-- R139. -/
def Obligations.RleDecsResult : Prop :=
  encode .rleDecs = 0x00000015 ∧
  (∀ s : State, s.cfg.capTxt < s.rle.txtLen.toNat →
    exec .rleDecs s = .next { s with rle := s.rle.failed (tooLong 6) s.rle.aux.free }) ∧
  ∀ (s : State) (T : List Sym) (k : Nat), s.cfg.wellFormed = true →
    s.rle.txtLen.toNat ≤ s.cfg.capTxt → s.rle.readTxt s.rle.aux.free = (T, k) →
    (∀ e, rleTextDec T = .error e →
      exec .rleDecs s = .next { s with rle := s.rle.failed e k }) ∧
    (∀ S, rleTextDec T = .ok S → S.length ≤ s.cfg.capSym →
      exec .rleDecs s = .next { s with
        rle := { s.rle with
          sym := s.rle.sym.store S
          symLen := BitVec.ofNat 32 S.length }.ended (doneWord (S = [])) k }) ∧
    ∀ S, rleTextDec T = .ok S → s.cfg.capSym < S.length →
      exec .rleDecs s = .next { s with rle := s.rle.failed (tooLong 0) k }

/-! ### Commands of HUF (41_huffman.md) -/

/-- 41_huffman.md section 6 (`HUF.ENC`). `HUF.SYM` is read twice (20_memory.md R73); the two readings are the
same content where every element was written; what a symbol without a code contributes where they differ is
the model's choice (log 5, log 6). -/
def Obligations.HufEncResult : Prop :=
  encode .hufEnc = 0x00000020 ∧
  (∀ s : State, s.cfg.capSym < s.huf.symLen.toNat →
    exec .hufEnc s = .next { s with huf := s.huf.failed (tooLong 0) s.huf.aux.free }) ∧
  ∀ (s : State) (S S' : List Sym) (bits : Bits) (k k' k'' : Nat),
    s.huf.symLen.toNat ≤ s.cfg.capSym → s.huf.readSym s.huf.aux.free = (S, k) →
    s.huf.readSym k = (S', k') → huffEncode (tableOf S) S' k' = (bits, k'') →
    ((tableOf S).length ≤ s.cfg.capTab → (∀ e ∈ tableOf S, e.code.length ≤ s.cfg.capClen) →
      bits.length ≤ s.cfg.capBit →
      exec .hufEnc s = .next { s with
        huf := { s.huf with
          bit := s.huf.bit.store bits
          bitLen := BitVec.ofNat 32 bits.length
          tab := s.huf.tab.store (tableOf S)
          tabLen := BitVec.ofNat 32 (tableOf S).length }.ended
            (doneWord (s.huf.symLen = 0)) k'' }) ∧
    ∀ id, leastExceeded [⟨3, (tableOf S).length, s.cfg.capTab⟩,
        ⟨7, longestCode (tableOf S), s.cfg.capClen⟩, ⟨2, bits.length, s.cfg.capBit⟩] = some id →
      exec .hufEnc s = .next { s with huf := s.huf.failed (tooLong id) k'' }

/-- 41_huffman.md section 6 (`HUF.DEC`): the table is checked first, whatever the bitstring. Each source is read
once, so the table checked is the table decoded with, also where it has never written elements: the model's
choice (DEDUCED, log 5). -/
def Obligations.HufDecResult : Prop :=
  encode .hufDec = 0x00000021 ∧
  (∀ s : State, s.cfg.capBit < s.huf.bitLen.toNat →
    exec .hufDec s = .next { s with huf := s.huf.failed (tooLong 2) s.huf.aux.free }) ∧
  (∀ s : State, s.huf.bitLen.toNat ≤ s.cfg.capBit → s.cfg.capTab < s.huf.tabLen.toNat →
    exec .hufDec s = .next { s with huf := s.huf.failed (tooLong 3) s.huf.aux.free }) ∧
  ∀ (s : State) (C : List Entry) (bits : Bits) (k k' : Nat), s.cfg.wellFormed = true →
    s.huf.bitLen.toNat ≤ s.cfg.capBit → s.huf.tabLen.toNat ≤ s.cfg.capTab →
    s.huf.readTab s.cfg s.huf.aux.free = (C, k) → s.huf.readBit k = (bits, k') →
    (∀ e, huffCheckTable C = .error e →
      exec .hufDec s = .next { s with huf := s.huf.failed e k' }) ∧
    (∀ e, huffCheckTable C = .ok () → huffDecode bits C = .error e →
      exec .hufDec s = .next { s with huf := s.huf.failed e k' }) ∧
    (∀ S, huffCheckTable C = .ok () → huffDecode bits C = .ok S → S.length ≤ s.cfg.capSym →
      exec .hufDec s = .next { s with
        huf := { s.huf with
          sym := s.huf.sym.store S
          symLen := BitVec.ofNat 32 S.length }.ended (doneWord (bits = [])) k' }) ∧
    ∀ S, huffCheckTable C = .ok () → huffDecode bits C = .ok S → s.cfg.capSym < S.length →
      exec .hufDec s = .next { s with huf := s.huf.failed (tooLong 0) k' }

/-- 41_huffman.md section 6 (`HUF.ENCB`): the table and the bitstring are scratch. The two readings of
`HUF.SYM` as in `HufEncResult` (log 5, log 6). -/
def Obligations.HufEncbResult : Prop :=
  encode .hufEncb = 0x00000022 ∧
  (∀ s : State, s.cfg.capSym < s.huf.symLen.toNat →
    exec .hufEncb s = .next { s with huf := s.huf.failed (tooLong 0) s.huf.aux.free }) ∧
  ∀ (s : State) (S S' : List Sym) (bits : Bits) (k k' k'' pad : Nat) (P : List Byte),
    s.huf.symLen.toNat ≤ s.cfg.capSym → s.huf.readSym s.huf.aux.free = (S, k) →
    s.huf.readSym k = (S', k') → huffEncode (tableOf S) S' k' = (bits, k'') →
    bitPack bits = (pad, P) →
    ((huffFreq S).length ≤ s.cfg.capTab → (∀ e ∈ tableOf S, e.code.length ≤ s.cfg.capClen) →
      bits.length ≤ s.cfg.capBit → 16 + 8 * (huffFreq S).length + P.length ≤ s.cfg.capByt →
      exec .hufEncb s = .next { s with
        huf := { s.huf with
          byt := s.huf.byt.store (serHch1 ⟨pad, huffFreq S, P⟩)
          bytLen := BitVec.ofNat 32 (16 + 8 * (huffFreq S).length + P.length) }.ended
            (doneWord (s.huf.symLen = 0)) k'' }) ∧
    ∀ id, leastExceeded [⟨3, (huffFreq S).length, s.cfg.capTab⟩,
        ⟨7, longestCode (tableOf S), s.cfg.capClen⟩, ⟨2, bits.length, s.cfg.capBit⟩,
        ⟨5, 16 + 8 * (huffFreq S).length + P.length, s.cfg.capByt⟩] = some id →
      exec .hufEncb s = .next { s with huf := s.huf.failed (tooLong id) k'' }

/-- 41_huffman.md section 6 (`HUF.DECB`): the parse, then the value checks, then the decoding with the rebuilt
table. The word of a bit position of `2^32` or more is free (the model's choice, log 19). -/
def Obligations.HufDecbResult : Prop :=
  encode .hufDecb = 0x00000023 ∧
  (∀ s : State, s.cfg.capByt < s.huf.bytLen.toNat →
    exec .hufDecb s = .next { s with huf := s.huf.failed (tooLong 5) s.huf.aux.free }) ∧
  ∀ (s : State) (B : List Byte) (k : Nat), s.cfg.wellFormed = true →
    s.huf.bytLen.toNat ≤ s.cfg.capByt → s.huf.readByt s.huf.aux.free = (B, k) →
    (∀ e, parseHch1 B = .error e →
      exec .hufDecb s = .next { s with huf := s.huf.failed e k }) ∧
    (∀ h e, parseHch1 B = .ok h → checkHch1 h = .error e →
      exec .hufDecb s = .next { s with huf := s.huf.failed e k }) ∧
    ∀ h C bits, parseHch1 B = .ok h → checkHch1 h = .ok () → C = huffCodes (huffTree h.freq) →
      bits = bitUnpack h.pad h.packed →
      (∀ e, huffDecode bits C = .error e →
        exec .hufDecb s = .next { s with huf := s.huf.failed e k }) ∧
      (∀ S, huffDecode bits C = .ok S → h.freq.length ≤ s.cfg.capTab →
        (∀ e ∈ C, e.code.length ≤ s.cfg.capClen) → bits.length ≤ s.cfg.capBit →
        S.length ≤ s.cfg.capSym →
        exec .hufDecb s = .next { s with
          huf := { s.huf with
            sym := s.huf.sym.store S
            symLen := BitVec.ofNat 32 S.length }.ended (doneWord (bits = [])) k }) ∧
      ∀ S id, huffDecode bits C = .ok S →
        leastExceeded [⟨3, h.freq.length, s.cfg.capTab⟩, ⟨7, longestCode C, s.cfg.capClen⟩,
          ⟨2, bits.length, s.cfg.capBit⟩, ⟨0, S.length, s.cfg.capSym⟩] = some id →
        exec .hufDecb s = .next { s with huf := s.huf.failed (tooLong id) k }

/-! ### Commands of LZW (42_lzw.md) -/

/-- R215. -/
def Obligations.LzwEncResult : Prop :=
  encode .lzwEnc = 0x00000030 ∧
  (∀ s : State, s.cfg.capSym < s.lzw.symLen.toNat →
    exec .lzwEnc s = .next { s with lzw := s.lzw.failed (tooLong 0) s.lzw.aux.free }) ∧
  ∀ (s : State) (S : List Sym) (k : Nat), s.lzw.symLen.toNat ≤ s.cfg.capSym →
    s.lzw.readSym s.lzw.aux.free = (S, k) →
    (∀ e, lzwEncode S = .error e →
      exec .lzwEnc s = .next { s with lzw := s.lzw.failed e k }) ∧
    (∀ K, lzwEncode S = .ok K → K.length ≤ s.cfg.capCod →
      exec .lzwEnc s = .next { s with
        lzw := { s.lzw with
          cod := s.lzw.cod.store (K.map (BitVec.ofNat 32))
          codLen := BitVec.ofNat 32 K.length }.ended (doneWord (s.lzw.symLen = 0)) k }) ∧
    ∀ K, lzwEncode S = .ok K → s.cfg.capCod < K.length →
      exec .lzwEnc s = .next { s with lzw := s.lzw.failed (tooLong 4) k }

/-- R216. -/
def Obligations.LzwDecResult : Prop :=
  encode .lzwDec = 0x00000031 ∧
  (∀ s : State, s.cfg.capCod < s.lzw.codLen.toNat →
    exec .lzwDec s = .next { s with lzw := s.lzw.failed (tooLong 4) s.lzw.aux.free }) ∧
  ∀ (s : State) (K : List Word) (k : Nat), s.cfg.wellFormed = true →
    s.lzw.codLen.toNat ≤ s.cfg.capCod → s.lzw.readCod s.lzw.aux.free = (K, k) →
    (∀ e, lzwDecode (K.map BitVec.toNat) = .error e →
      exec .lzwDec s = .next { s with lzw := s.lzw.failed e k }) ∧
    (∀ S, lzwDecode (K.map BitVec.toNat) = .ok S → S.length ≤ s.cfg.capSym →
      exec .lzwDec s = .next { s with
        lzw := { s.lzw with
          sym := s.lzw.sym.store S
          symLen := BitVec.ofNat 32 S.length }.ended (doneWord (s.lzw.codLen = 0)) k }) ∧
    ∀ S, lzwDecode (K.map BitVec.toNat) = .ok S → s.cfg.capSym < S.length →
      exec .lzwDec s = .next { s with lzw := s.lzw.failed (tooLong 0) k }

/-- R217: the codes are scratch. -/
def Obligations.LzwEncbResult : Prop :=
  encode .lzwEncb = 0x00000032 ∧
  (∀ s : State, s.cfg.capSym < s.lzw.symLen.toNat →
    exec .lzwEncb s = .next { s with lzw := s.lzw.failed (tooLong 0) s.lzw.aux.free }) ∧
  ∀ (s : State) (S : List Sym) (k : Nat), s.lzw.symLen.toNat ≤ s.cfg.capSym →
    s.lzw.readSym s.lzw.aux.free = (S, k) →
    (∀ e, lzwEncode S = .error e →
      exec .lzwEncb s = .next { s with lzw := s.lzw.failed e k }) ∧
    (∀ K, lzwEncode S = .ok K → K.length ≤ s.cfg.capCod → 8 + 4 * K.length ≤ s.cfg.capByt →
      exec .lzwEncb s = .next { s with
        lzw := { s.lzw with
          byt := s.lzw.byt.store (serHcl1 (K.map (BitVec.ofNat 32)))
          bytLen := BitVec.ofNat 32 (8 + 4 * K.length) }.ended (doneWord (s.lzw.symLen = 0)) k }) ∧
    ∀ K id, lzwEncode S = .ok K →
      leastExceeded [⟨4, K.length, s.cfg.capCod⟩, ⟨5, 8 + 4 * K.length, s.cfg.capByt⟩] = some id →
      exec .lzwEncb s = .next { s with lzw := s.lzw.failed (tooLong id) k }

/-- R218: the whole container is parsed first. -/
def Obligations.LzwDecbResult : Prop :=
  encode .lzwDecb = 0x00000033 ∧
  (∀ s : State, s.cfg.capByt < s.lzw.bytLen.toNat →
    exec .lzwDecb s = .next { s with lzw := s.lzw.failed (tooLong 5) s.lzw.aux.free }) ∧
  ∀ (s : State) (B : List Byte) (k : Nat), s.cfg.wellFormed = true →
    s.lzw.bytLen.toNat ≤ s.cfg.capByt → s.lzw.readByt s.lzw.aux.free = (B, k) →
    (∀ e, parseHcl1 B = .error e →
      exec .lzwDecb s = .next { s with lzw := s.lzw.failed e k }) ∧
    (∀ K e, parseHcl1 B = .ok K → lzwDecode (K.map BitVec.toNat) = .error e →
      exec .lzwDecb s = .next { s with lzw := s.lzw.failed e k }) ∧
    (∀ K S, parseHcl1 B = .ok K → lzwDecode (K.map BitVec.toNat) = .ok S →
      K.length ≤ s.cfg.capCod → S.length ≤ s.cfg.capSym →
      exec .lzwDecb s = .next { s with
        lzw := { s.lzw with
          sym := s.lzw.sym.store S
          symLen := BitVec.ofNat 32 S.length }.ended (doneWord (K = [])) k }) ∧
    ∀ K S id, parseHcl1 B = .ok K → lzwDecode (K.map BitVec.toNat) = .ok S →
      leastExceeded [⟨4, K.length, s.cfg.capCod⟩, ⟨0, S.length, s.cfg.capSym⟩] = some id →
      exec .lzwDecb s = .next { s with lzw := s.lzw.failed (tooLong id) k }

/-! ### The codecs: RLE -/

/-- R141: the laws of the RLE unit: the two round trips, the run-list invariants, the text round trip of
sources with no digit symbol. -/
def Obligations.RleLaws : Prop :=
  (∀ S : List Sym, rleExpand (rleRuns S) = S) ∧
  (∀ S : List Sym, S.length < 2 ^ 32 →
    parseHcr1 (serHcr1 (rleRuns S)) = .ok (rleRuns S) ∧ checkRuns (rleRuns S) = .ok ()) ∧
  (∀ S : List Sym, runListOk (rleRuns S) ∧ ((rleRuns S).map SymCount.cnt).sum = S.length) ∧
  ∀ S : List Sym, (∀ c ∈ S, isDigit c = false) → rleTextDec (rleTextEnc S) = .ok S

/-- R97, R138: the encoder's counts are `decimal(n)`: one or more digits of value `n`, the first not 0. A text
that is a sequence of tokens decodes to its counted symbols, leading zeros and count 0 included; digits with
no symbol after them, or a symbol with no count before it, raise `MalformedSerializedData` with the index
where that token begins. -/
def Obligations.TextTokens : Prop :=
  (∀ s : Sym, isDigit s = true ↔ 0x30 ≤ s.toNat ∧ s.toNat ≤ 0x39) ∧
  (∀ n : Nat, 1 ≤ n → decimal n ≠ [] ∧ (∀ d ∈ decimal n, isDigit d = true) ∧
    digitsValue (decimal n) = n ∧ (decimal n).head? ≠ some 0x30) ∧
  (∀ S : List Sym, rleTextEnc S = (rleRuns S).flatMap (fun r => decimal r.cnt ++ [r.sym]) ∧
    ∀ r ∈ rleRuns S, 1 ≤ r.cnt) ∧
  ∀ ts : List Token, (∀ t ∈ ts, t.ok) →
    rleTextDec (ts.flatMap Token.text) =
      .ok (ts.flatMap (fun t => List.replicate (digitsValue t.digits) t.sym)) ∧
    (∀ D : List Sym, D ≠ [] → (∀ d ∈ D, isDigit d = true) →
      rleTextDec (ts.flatMap Token.text ++ D) =
        .error ⟨.malformedSerializedData, (ts.flatMap Token.text).length⟩) ∧
    ∀ (c : Sym) (T : List Sym), isDigit c = false →
      rleTextDec (ts.flatMap Token.text ++ c :: T) =
        .error ⟨.malformedSerializedData, (ts.flatMap Token.text).length⟩

/-- R140: the known limitation is preserved: the three examples. -/
def Obligations.DigitLimitation : Prop :=
  rleTextEnc [0x31, 0x31, 0x31] = [0x33, 0x31] ∧
  rleTextDec [0x33, 0x31] = .error ⟨.malformedSerializedData, 0⟩ ∧
  rleTextEnc [0x31, 0x61] = [0x31, 0x31, 0x31, 0x61] ∧
  rleTextDec [0x31, 0x31, 0x31, 0x61] = .ok (List.replicate 111 0x61) ∧
  rleTextEnc [0x61, 0x35] = [0x31, 0x61, 0x31, 0x35] ∧
  rleTextDec [0x31, 0x61, 0x31, 0x35] = .error ⟨.malformedSerializedData, 2⟩

/-! ### The codecs: Huffman -/

/-- R161, R162: the frequency table: strictly ascending, one entry for each distinct symbol, its count the
number of occurrences. -/
def Obligations.FrequencyTable : Prop :=
  ∀ S : List Sym, freqTableOk (huffFreq S) ∧ (∀ e ∈ huffFreq S, e.cnt = S.count e.sym) ∧
    (∀ c, c ∈ S ↔ ∃ e ∈ huffFreq S, e.sym = c) ∧
    ((huffFreq S).map SymCount.cnt).sum = S.length

/-- R163, R164: the tree builder starts with one leaf for each entry, entry `i` with sequence number `i`, and
with `next` the number of entries. In every state it reaches the sequence numbers of all nodes differ. One
transition, with more than one node: `x` and `y` have the two least keys, in that order, weight before
sequence number; they are replaced by a node with `x` as left and `y` as right child, the sum of their
weights and the next sequence number. -/
def Obligations.TreeTransition : Prop :=
  (∀ F : List SymCount, (TreeBuilder.init F).next = F.length ∧
    (TreeBuilder.init F).queue.Perm (F.zipIdx.map (fun p => .leaf p.1.sym p.1.cnt p.2))) ∧
  ∀ (F : List SymCount) (n : Nat) (b : TreeBuilder), b = (TreeBuilder.init F).run n →
    (b.queue.flatMap HuffNode.seqs).Nodup ∧
    (2 ≤ b.queue.length →
      ∃ x y Q, b.queue.Perm (x :: y :: Q) ∧
        (x.weight < y.weight ∨ x.weight = y.weight ∧ x.seq < y.seq) ∧
        (∀ z ∈ Q, (x.weight < z.weight ∨ x.weight = z.weight ∧ x.seq < z.seq) ∧
          (y.weight < z.weight ∨ y.weight = z.weight ∧ y.seq < z.seq)) ∧
        b.step.queue.Perm (.node x y (x.weight + y.weight) b.next :: Q) ∧
        b.step.next = b.next + 1)

/-- R165: `huff_tree(F)` is the one node left after `n - 1` transitions, it has `2n - 1` nodes and exactly
the entries of `F` as leaves; one entry is its own tree; the empty table has none. -/
def Obligations.TreeShape : Prop :=
  huffTree [] = none ∧ (∀ e : SymCount, huffTree [e] = some (.leaf e.sym e.cnt 0)) ∧
  ∀ F : List SymCount, F ≠ [] → ∃ t, ((TreeBuilder.init F).run (F.length - 1)).queue = [t] ∧
    huffTree F = some t ∧ t.size = 2 * F.length - 1 ∧ t.leaves.Perm F ∧
    t.weight = (F.map SymCount.cnt).sum

/-- R166: the code table of a frequency table with distinct symbols in ascending order: the same symbols in
the same order; one symbol has the code "0"; the codes are non-empty, none is a prefix of another, none is
longer than `n - 1` bits when `n >= 2`. Each is the path from the root to its leaf, 0 for a left edge, 1 for
a right edge, and every leaf has its entry. -/
def Obligations.CodesArePrefixFree : Prop :=
  huffCodes none = [] ∧
  ∀ F : List SymCount, freqTableOk F →
    (huffCodes (huffTree F)).map Entry.sym = F.map SymCount.sym ∧
    codeTableOk (huffCodes (huffTree F)) ∧
    (∀ e, F = [e] → huffCodes (huffTree F) = [⟨e.sym, [false]⟩]) ∧
    (2 ≤ F.length → ∀ e ∈ huffCodes (huffTree F), e.code.length ≤ F.length - 1) ∧
    (2 ≤ F.length → ∃ t, huffTree F = some t ∧ (huffCodes (huffTree F)).Perm (walk [] t) ∧
      ∀ (sym : Sym) (code : Bits), ⟨sym, code⟩ ∈ huffCodes (huffTree F) ↔
        ∃ w q, t.follow code = some (.leaf sym w q))

/-- R167: encoding a stream with its own table: every symbol has exactly one entry, no free value is drawn,
the bitstring is the concatenation of the codes, its length the sum of count times code length. -/
def Obligations.EncodingConcatenatesCodes : Prop :=
  ∀ (S : List Sym) (k : Nat),
    (∀ c ∈ S, ∃ e ∈ tableOf S, e.sym = c ∧ codeOf (tableOf S) c = some e.code ∧
      ∀ d ∈ tableOf S, d.sym = c → d = e) ∧
    huffEncode (tableOf S) S k = (S.flatMap (fun c => (codeOf (tableOf S) c).getD []), k) ∧
    (huffEncode (tableOf S) S k).1.length =
      ((tableOf S).map (fun e => S.count e.sym * e.code.length)).sum

/-- R168: no bits give no symbols, whatever the table. Decoding with a table that passed the check: a
concatenation of codes gives their symbols; bits left over that no code begins raise `InvalidPrefixCode` with
the index of the first of them. -/
def Obligations.DecodingMatchesGreedily : Prop :=
  (∀ C : List Entry, huffDecode [] C = .ok []) ∧
  ∀ (C es : List Entry) (tail : Bits), codeTableOk C → (∀ e ∈ es, e ∈ C) →
    huffDecode (es.flatMap Entry.code) C = .ok (es.map Entry.sym) ∧
    (tail ≠ [] → (∀ e ∈ C, ¬ e.code <+: tail) →
      huffDecode (es.flatMap Entry.code ++ tail) C =
        .error ⟨.invalidPrefixCode, (es.flatMap Entry.code).length⟩)

/-- R171: the table check passes exactly the prefix-free mappings with non-empty codes; the index reported
is the least one whose entry is bad in itself or against an earlier entry. -/
def Obligations.TableCheck : Prop :=
  ∀ C : List Entry, (huffCheckTable C = .ok () ↔ codeTableOk C) ∧
    ∀ e, huffCheckTable C = .error e ↔ ∃ i, i < C.length ∧ e = ⟨.badCodeTable, i⟩ ∧
      codeTableOk (C.take i) ∧ ¬ codeTableOk (C.take (i + 1))

/-- R169, R170 and 20_memory.md R62: the bit-packer. Padding 1 to 8, 8 for whole bytes; bit `j` is bit
`7 - j mod 8` of byte `j div 8`, the padding bits are 0. Unpacking gives the bits of the bytes in that order,
the last `pad` of them stripped, none when `pad` is 8. -/
def Obligations.BitPacker : Prop :=
  (∀ bits : Bits, (bitPack bits).1 = 8 - bits.length % 8 ∧ 1 ≤ (bitPack bits).1 ∧
    (bitPack bits).1 ≤ 8 ∧ (bitPack bits).2.length = (bits.length + 7) / 8 ∧
    ∀ j, j < 8 * (bitPack bits).2.length →
      ((bitPack bits).2[j / 8]?).map (fun b => b.getLsbD (7 - j % 8)) =
        some ((bits[j]?).getD false)) ∧
  ∀ (pad : Nat) (P : List Byte), 1 ≤ pad → pad ≤ 8 → (pad ≠ 8 → P ≠ []) →
    (bitUnpack pad P).length = 8 * P.length - (if pad = 8 then 0 else pad) ∧
    ∀ j, j < (bitUnpack pad P).length →
      (bitUnpack pad P)[j]? = (P[j / 8]?).map (fun b => b.getLsbD (7 - j % 8))

/-- 40_rle.md section 3 (`RLE.DECB`) and 41_huffman.md section 6 (`HUF.DECB`): the value checks. The run-list
check passes exactly the run-lists that meet the invariants and else names the byte offset of the first pair
that does not; the checks of a Huffman container come in their order, each with its offset, and nothing else
is checked (R177). -/
def Obligations.ContainerValueChecks : Prop :=
  (∀ R : List SymCount, (checkRuns R = .ok () ↔ runListOk R) ∧
    ∀ e, checkRuns R = .error e ↔ ∃ i, i < R.length ∧ e = ⟨.corruptedData, 8 + 8 * i⟩ ∧
      runListOk (R.take i) ∧ ¬ runListOk (R.take (i + 1))) ∧
  ∀ h : HufContainer,
    (checkHch1 h = .ok () ↔ 1 ≤ h.pad ∧ h.pad ≤ 8 ∧ freqTableOk h.freq ∧
      (h.pad = 8 ∨ h.packed ≠ [])) ∧
    (h.pad < 1 ∨ 8 < h.pad → checkHch1 h = .error ⟨.corruptedData, 4⟩) ∧
    (∀ i, 1 ≤ h.pad → h.pad ≤ 8 → i < h.freq.length → freqTableOk (h.freq.take i) →
      ¬ freqTableOk (h.freq.take (i + 1)) → checkHch1 h = .error ⟨.corruptedData, 12 + 8 * i⟩) ∧
    (1 ≤ h.pad → h.pad < 8 → freqTableOk h.freq → h.packed = [] →
      checkHch1 h = .error ⟨.corruptedData, 12 + 8 * h.freq.length⟩)

/-- 41_huffman.md section 7: the Huffman round trip: decoding with the table of a stream what was encoded
with it gives the stream back, and the table passes the check `HUF.DEC` makes. -/
def Obligations.HuffmanRoundTrip : Prop :=
  ∀ (S : List Sym) (k : Nat), huffCheckTable (tableOf S) = .ok () ∧
    huffDecode (huffEncode (tableOf S) S k).1 (tableOf S) = .ok S

/-- 41_huffman.md section 7: the byte round trip on the machine: in a unit HUF whose `SYM` holds `S`, with
capacities that fit, `HUF.ENCB` and then `HUF.DECB` complete and `SYM` holds `S`. -/
def Obligations.HuffmanByteRoundTrip : Prop :=
  ∀ (s : State) (S : List Sym), s.cfg.wellFormed = true → s.huf.sym.Holds s.huf.symLen S →
    S.length ≤ s.cfg.capSym → (huffFreq S).length ≤ s.cfg.capTab →
    (∀ e ∈ tableOf S, e.code.length ≤ s.cfg.capClen) →
    (huffEncode (tableOf S) S 0).1.length ≤ s.cfg.capBit →
    16 + 8 * (huffFreq S).length + ((huffEncode (tableOf S) S 0).1.length + 7) / 8 ≤ s.cfg.capByt →
    ∃ t r, exec .hufEncb s = .next t ∧ exec .hufDecb t = .next r ∧
      t.huf.ctrl.status = doneWord (S = []) ∧ r.huf.ctrl.status = doneWord (S = []) ∧
      r.huf.sym.Holds r.huf.symLen S

/-! ### The codecs: LZW -/

/-- R219: the laws of the LZW unit. -/
def Obligations.LzwLaws : Prop :=
  (∀ S : List Sym, (∀ c ∈ S, c.toNat ≤ 255) → ∃ K, lzwEncode S = .ok K ∧ lzwDecode K = .ok S ∧
    K.length ≤ S.length ∧ (∀ k ∈ K, k < 256 + S.length) ∧
    (S.length ≤ 2 ^ 32 - 257 →
      (parseHcl1 (serHcl1 (K.map (BitVec.ofNat 32)))).map (List.map BitVec.toNat) = .ok K)) ∧
  ∃ K, lzwEncode [65, 66, 65, 66, 65, 66, 65, 66] = .ok K ∧ K.length < 8 ∧
    lzwDecode K = .ok [65, 66, 65, 66, 65, 66, 65, 66]

/-- R246, R247: the encoder raises `UnsupportedSymbolRange(i)` exactly when `i` is the index of the first
symbol above 255, and raises nothing else. A code sequence decodes exactly when code `i` is at most `255 + i`,
for every `i` (42_lzw.md R216); else `CorruptedLZWStream` names the first code that is not, and nothing else
is raised; every decoded symbol is in `0 .. 255`. -/
def Obligations.LzwErrors : Prop :=
  (∀ (S : List Sym) (e : Report), lzwEncode S = .error e ↔
    ∃ (i : Nat) (c : Sym), e = ⟨.unsupportedSymbolRange, i⟩ ∧ S[i]? = some c ∧ 255 < c.toNat ∧
      ∀ d ∈ S.take i, d.toNat ≤ 255) ∧
  ∀ K : List Nat,
    ((∃ S, lzwDecode K = .ok S) ↔ ∀ (i k : Nat), K[i]? = some k → k ≤ 255 + i) ∧
    (∀ e, lzwDecode K = .error e ↔ ∃ (i k : Nat), e = ⟨.corruptedLZWStream, i⟩ ∧ K[i]? = some k ∧
      255 + i < k ∧ ∀ (j d : Nat), j < i → K[j]? = some d → d ≤ 255 + j) ∧
    ∀ S, lzwDecode K = .ok S → ∀ c ∈ S, c.toNat ≤ 255

/-- 42_lzw.md section 3: the byte round trip on the machine: in a unit LZW whose `SYM` holds `S`, all
symbols at most 255, with capacities that fit, `LZW.ENCB` and then `LZW.DECB` complete and `SYM` holds `S`. -/
def Obligations.LzwByteRoundTrip : Prop :=
  ∀ (s : State) (S : List Sym), s.cfg.wellFormed = true → s.lzw.sym.Holds s.lzw.symLen S →
    (∀ c ∈ S, c.toNat ≤ 255) → S.length ≤ s.cfg.capSym → S.length ≤ s.cfg.capCod →
    8 + 4 * S.length ≤ s.cfg.capByt →
    ∃ t r, exec .lzwEncb s = .next t ∧ exec .lzwDecb t = .next r ∧
      t.lzw.ctrl.status = doneWord (S = []) ∧ r.lzw.ctrl.status = doneWord (S = []) ∧
      r.lzw.sym.Holds r.lzw.symLen S

/-! ### Containers (30_encoding.md section 4) -/

/-- 30_encoding.md R100 to R102: a container parses exactly when it is the serialization of what the parse
gives; numbers, counts and lengths below `2^32`. -/
def Obligations.ContainersParseExactly : Prop :=
  (∀ (B : List Byte) (R : List SymCount), parseHcr1 B = .ok R ↔
    R.length < 2 ^ 32 ∧ (∀ r ∈ R, r.cnt < 2 ^ 32) ∧ B = serHcr1 R) ∧
  (∀ (B : List Byte) (h : HufContainer), parseHch1 B = .ok h ↔
    h.pad < 2 ^ 32 ∧ h.freq.length < 2 ^ 32 ∧ (∀ r ∈ h.freq, r.cnt < 2 ^ 32) ∧
      h.packed.length < 2 ^ 32 ∧ B = serHch1 h) ∧
  ∀ (B : List Byte) (K : List Word), parseHcl1 B = .ok K ↔
    K.length < 2 ^ 32 ∧ B = serHcl1 K

/-- 30_encoding.md R103, 60_exceptions.md R243: the first `m` bytes of a container report the offset of the
first field that cannot be read, 0 for a tag cut short, the start of the packed bytes of a Huffman container
for those cut short; bytes left over report the offset of the first of them; another tag reports 0. -/
def Obligations.TruncatedContainers : Prop :=
  (∀ (R : List SymCount) (m : Nat), R.length < 2 ^ 32 → m < (serHcr1 R).length →
    parseHcr1 ((serHcr1 R).take m) = .error ⟨.malformedSerializedData, 4 * (m / 4)⟩) ∧
  (∀ (h : HufContainer) (m : Nat), h.freq.length < 2 ^ 32 → m < 16 + 8 * h.freq.length →
    parseHch1 ((serHch1 h).take m) = .error ⟨.malformedSerializedData, 4 * (m / 4)⟩) ∧
  (∀ (h : HufContainer) (m : Nat), h.freq.length < 2 ^ 32 → h.packed.length < 2 ^ 32 →
    16 + 8 * h.freq.length ≤ m → m < (serHch1 h).length →
    parseHch1 ((serHch1 h).take m) =
      .error ⟨.malformedSerializedData, 16 + 8 * h.freq.length⟩) ∧
  (∀ (K : List Word) (m : Nat), K.length < 2 ^ 32 → m < (serHcl1 K).length →
    parseHcl1 ((serHcl1 K).take m) = .error ⟨.malformedSerializedData, 4 * (m / 4)⟩) ∧
  (∀ (R : List SymCount) (x : List Byte), R.length < 2 ^ 32 → x ≠ [] →
    parseHcr1 (serHcr1 R ++ x) = .error ⟨.malformedSerializedData, 8 + 8 * R.length⟩) ∧
  (∀ (h : HufContainer) (x : List Byte), h.freq.length < 2 ^ 32 → h.packed.length < 2 ^ 32 →
    x ≠ [] → parseHch1 (serHch1 h ++ x) =
      .error ⟨.malformedSerializedData, 16 + 8 * h.freq.length + h.packed.length⟩) ∧
  (∀ (K : List Word) (x : List Byte), K.length < 2 ^ 32 → x ≠ [] →
    parseHcl1 (serHcl1 K ++ x) = .error ⟨.malformedSerializedData, 8 + 4 * K.length⟩) ∧
  ∀ B : List Byte, (B.take 4 ≠ tagHcr1 → parseHcr1 B = .error ⟨.malformedSerializedData, 0⟩) ∧
    (B.take 4 ≠ tagHch1 → parseHch1 B = .error ⟨.malformedSerializedData, 0⟩) ∧
    (B.take 4 ≠ tagHcl1 → parseHcl1 B = .error ⟨.malformedSerializedData, 0⟩)

/-- 60_exceptions.md section 3 (error entry): every position an operation reports lies within its source, or
at its end where the parse finds a field missing, so that it fits `ERRINFO`; a bit position of `HUF.DECB`
lies within the bits of its container (log 19). -/
def Obligations.ReportedPositionsAreInTheSource : Prop :=
  (∀ (B : List Byte) (e : Report), parseHcr1 B = .error e → e.info ≤ B.length) ∧
  (∀ (B : List Byte) (e : Report), parseHch1 B = .error e → e.info ≤ B.length) ∧
  (∀ (B : List Byte) (e : Report), parseHcl1 B = .error e → e.info ≤ B.length) ∧
  (∀ (B : List Byte) (R : List SymCount) (e : Report), parseHcr1 B = .ok R →
    checkRuns R = .error e → e.info < B.length) ∧
  (∀ (B : List Byte) (h : HufContainer) (e : Report), parseHch1 B = .ok h →
    checkHch1 h = .error e → e.info < B.length) ∧
  (∀ (T : List Sym) (e : Report), rleTextDec T = .error e → e.info < T.length) ∧
  (∀ (C : List Entry) (e : Report), huffCheckTable C = .error e → e.info < C.length) ∧
  (∀ (bits : Bits) (C : List Entry) (e : Report), huffDecode bits C = .error e →
    e.info < bits.length) ∧
  (∀ (B : List Byte) (e : Report), hufDecodeContainer B = .error e →
    (e.cause = .invalidPrefixCode → e.info < 8 * B.length) ∧
    (e.cause ≠ .invalidPrefixCode → e.info ≤ B.length)) ∧
  (∀ (S : List Sym) (e : Report), lzwEncode S = .error e → e.info < S.length) ∧
  ∀ (K : List Nat) (e : Report), lzwDecode K = .error e → e.info < K.length
end

