-- ==== Sys2Proof/Laws/Memory.lean ====
section
/-! SUPPORT. Buffers: reading after writing, the canonical form is kept, contents, free values. -/

namespace Sys2Proof.Machine

variable {α β : Type}

/-! ### One element -/

@[simp] theorem Memory.get_nil (i : Nat) : Memory.get ([] : Memory α) i = none := rfl

theorem Memory.get_set (m : Memory α) (i j : Nat) (v : α) (h : m.wf) :
    (m.set i v).get j = if j = i then some v else m.get j := by
  induction m with
  | nil => simp [Memory.set, Memory.get]
  | cons c rest ih =>
    obtain ⟨k, x⟩ := c
    simp only [Memory.wf, List.map_cons, List.pairwise_cons] at h
    by_cases h1 : i < k
    · simp [Memory.set, Memory.get, h1]
    · by_cases h2 : i = k
      · subst h2
        by_cases hj : j = i <;> simp [Memory.set, Memory.get, hj]
      · simp only [Memory.set, h1, h2, if_false, Memory.get, ih h.2]
        by_cases hj : j = k
        · have : j ≠ i := by omega
          simp [hj, Ne.symm h2]
        · simp [hj]

theorem Memory.mem_set_fst (m : Memory α) (i : Nat) (v : α) {c : Nat × α} (h : c ∈ m.set i v) :
    c = (i, v) ∨ c ∈ m := by
  induction m with
  | nil => simp [Memory.set] at h; exact .inl h
  | cons d rest ih =>
    obtain ⟨k, x⟩ := d
    unfold Memory.set at h
    split at h
    · simpa using h
    · split at h
      · rcases List.mem_cons.mp h with h | h
        · exact .inl h
        · exact .inr (List.mem_cons_of_mem _ h)
      · rcases List.mem_cons.mp h with h | h
        · exact .inr (h ▸ List.mem_cons_self)
        · exact (ih h).imp id (List.mem_cons_of_mem _)

theorem Memory.set_wf (m : Memory α) (i : Nat) (v : α) (h : m.wf) : (m.set i v).wf := by
  induction m with
  | nil => simp [Memory.set, Memory.wf]
  | cons c rest ih =>
    obtain ⟨k, x⟩ := c
    have h0 := h
    simp only [Memory.wf, List.map_cons, List.pairwise_cons, List.mem_map] at h
    by_cases h1 : i < k
    · simp only [Memory.set, h1, if_true, Memory.wf, List.map_cons, List.pairwise_cons] at h0 ⊢
      refine ⟨?_, h0⟩
      intro a ha
      rcases List.mem_cons.mp ha with rfl | ha
      · exact h1
      · exact lt_trans h1 (h0.1 a ha)
    · by_cases h2 : i = k
      · subst h2
        simpa [Memory.set, Memory.wf] using h0
      · simp only [Memory.set, h1, h2, if_false, Memory.wf, List.map_cons, List.pairwise_cons]
        refine ⟨?_, ih h.2⟩
        intro a ha
        obtain ⟨c, hc, rfl⟩ := List.mem_map.mp ha
        rcases Memory.mem_set_fst _ _ _ hc with rfl | hc
        · simp; omega
        · exact h.1 c.1 ⟨c, hc, rfl⟩

theorem Memory.set_within (m : Memory α) (i cap : Nat) (v : α) (hi : i < cap) (h : m.within cap) :
    (m.set i v).within cap := by
  intro c hc
  rcases Memory.mem_set_fst _ _ _ hc with rfl | hc
  · exact hi
  · exact h c hc

/-- A write keeps a buffer's invariant. -/
theorem Memory.set_inv (m : Memory α) (i cap : Nat) (v : α) (hi : i < cap) (h : m.Inv cap) :
    (m.set i v).Inv cap :=
  ⟨m.set_wf i v h.rising, m.set_within i cap v hi h.inside⟩

theorem Memory.nil_inv (cap : Nat) : Memory.Inv ([] : Memory α) cap :=
  ⟨by simp [Memory.wf], by simp [Memory.within]⟩

/-! ### A whole content -/

theorem mem_indexed (i : Nat) (xs : List α) (c : Nat × α) (h : c ∈ indexed i xs) :
    i ≤ c.1 ∧ c.1 < i + xs.length ∧ c.2 ∈ xs := by
  induction xs generalizing i with
  | nil => simp [indexed] at h
  | cons x xs ih =>
    rcases List.mem_cons.mp h with rfl | h
    · simp
    · obtain ⟨h1, h2, h3⟩ := ih (i + 1) h
      exact ⟨by omega, by simp; omega, List.mem_cons_of_mem _ h3⟩

theorem indexed_wf (i : Nat) (xs : List α) : Memory.wf (indexed i xs) := by
  induction xs generalizing i with
  | nil => simp [indexed, Memory.wf]
  | cons x xs ih =>
    simp only [indexed, Memory.wf, List.map_cons, List.pairwise_cons]
    refine ⟨?_, ih (i + 1)⟩
    intro a ha
    obtain ⟨c, hc, rfl⟩ := List.mem_map.mp ha
    have := mem_indexed _ _ c hc
    omega

theorem get_indexed_append (i j : Nat) (xs : List α) (m : Memory α) (hj : i ≤ j) :
    Memory.get (indexed i xs ++ m) j = if j < i + xs.length then xs[j - i]? else Memory.get m j := by
  induction xs generalizing i with
  | nil => simp [indexed]; omega
  | cons x xs ih =>
    by_cases h : j = i
    · subst h; simp [indexed, Memory.get]
    · have h1 : j - i = (j - (i + 1)) + 1 := by omega
      simp only [indexed, List.cons_append, Memory.get, h, if_false, ih (i + 1) (by omega),
        List.length_cons, h1, List.getElem?_cons_succ]
      have : (j < i + 1 + xs.length) ↔ (j < i + (xs.length + 1)) := by omega
      simp only [this]

theorem get_filter_ge (m : Memory α) (n j : Nat) (hj : n ≤ j) :
    Memory.get (m.filter (fun c => decide (n ≤ c.1))) j = Memory.get m j := by
  induction m with
  | nil => rfl
  | cons c rest ih =>
    obtain ⟨k, x⟩ := c
    by_cases hk : n ≤ k
    · simp only [List.filter_cons, hk, decide_true, if_true, Memory.get, ih]
    · have : j ≠ k := by omega
      simp only [List.filter_cons, hk, decide_false, Memory.get, this, if_false]
      simp [ih]

/-- Reading after a completed command's write (10_state.md R37). -/
theorem Memory.get_store (m : Memory α) (xs : List α) (j : Nat) :
    (m.store xs).get j = if j < xs.length then xs[j]? else m.get j := by
  unfold Memory.store
  rw [get_indexed_append 0 j xs _ (Nat.zero_le _)]
  by_cases h : j < xs.length
  · simp [h]
  · simp [h, get_filter_ge m xs.length j (by omega)]

theorem Memory.mem_store (m : Memory α) (xs : List α) {c : Nat × α} (h : c ∈ m.store xs) :
    (c.1 < xs.length ∧ c.2 ∈ xs) ∨ c ∈ m := by
  rcases List.mem_append.mp h with h | h
  · obtain ⟨_, h2, h3⟩ := mem_indexed _ _ _ h
    exact .inl ⟨by omega, h3⟩
  · exact .inr (List.mem_filter.mp h).1

theorem Memory.store_wf (m : Memory α) (xs : List α) (h : m.wf) : (m.store xs).wf := by
  unfold Memory.store Memory.wf
  rw [List.map_append, List.pairwise_append]
  refine ⟨indexed_wf 0 xs, ?_, ?_⟩
  · exact List.Pairwise.sublist (List.filter_sublist.map _) h
  · intro a ha b hb
    obtain ⟨c, hc, rfl⟩ := List.mem_map.mp ha
    obtain ⟨d, hd, rfl⟩ := List.mem_map.mp hb
    have h1 := mem_indexed _ _ _ hc
    have h2 := (List.mem_filter.mp hd).2
    simp at h2
    omega

/-- A completed command's write keeps a buffer's invariant. -/
theorem Memory.store_inv (m : Memory α) (xs : List α) (cap : Nat) (hx : xs.length ≤ cap)
    (h : m.Inv cap) : (m.store xs).Inv cap := by
  refine ⟨m.store_wf xs h.rising, ?_⟩
  intro c hc
  rcases Memory.mem_store _ _ hc with ⟨h1, _⟩ | h1
  · omega
  · exact h.inside c h1

@[simp] theorem Memory.content_length (m : Memory α) (n : Nat) : (m.content n).length = n := by
  simp [Memory.content]

theorem Memory.content_getElem? (m : Memory α) (n i : Nat) :
    (m.content n)[i]? = if i < n then some (m.get i) else none := by
  by_cases h : i < n <;> simp [Memory.content, h]

/-- The content of a destination just written is the result. -/
theorem Memory.content_store (m : Memory α) (xs : List α) :
    (m.store xs).content xs.length = xs.map some := by
  apply List.ext_getElem?
  intro i
  rw [Memory.content_getElem?, Memory.get_store]
  by_cases h : i < xs.length <;> simp [h]

/-! ### Free values -/

/-- Reading a content that was written everywhere draws no free value. -/
@[simp] theorem resolve_map_some (free : Nat → α) (k : Nat) (xs : List α) :
    resolve free k (xs.map some) = (xs, k) := by
  induction xs generalizing k with
  | nil => rfl
  | cons x xs ih => simp [resolve, ih]

@[simp] theorem resolve_length (free : Nat → α) (k : Nat) (xs : List (Option α)) :
    (resolve free k xs).1.length = xs.length := by
  induction xs generalizing k with
  | nil => rfl
  | cons x xs ih => cases x <;> simp [resolve, ih]

/-- A written element is read as it was written. -/
theorem resolve_getElem? (free : Nat → α) (k : Nat) (xs : List (Option α)) (i : Nat) (v : α)
    (h : xs[i]? = some (some v)) : (resolve free k xs).1[i]? = some v := by
  induction xs generalizing k i with
  | nil => simp at h
  | cons x xs ih =>
    cases i with
    | zero => cases x <;> simp_all [resolve]
    | succ i =>
      simp only [List.getElem?_cons_succ] at h
      cases x <;> simp [resolve, ih _ _ h]

/-- A buffer that holds `xs` is read as `xs`, with no free value drawn. -/
theorem Memory.Holds.read {m : Memory α} {len : Word} {xs : List α} (h : m.Holds len xs)
    (free : Nat → α) (k : Nat) : resolve free k (m.content len.toNat) = (xs, k) := by
  rw [h.1, h.2, resolve_map_some]

end Sys2Proof.Machine
end

