-- ==== Sys2Proof/Laws/State.lean ====
section
/-! SUPPORT. One lemma per field per update of State, so that no later proof unfolds a record update. -/

namespace Sys2Proof.Machine

/-! ### The updates of a unit by its name -/

@[simp] theorem State.setCtrl_cfg (s : State) (u : UnitId) (c : Ctrl) :
    (s.setCtrl u c).cfg = s.cfg := by cases u <;> rfl

@[simp] theorem State.setCtrl_agenda (s : State) (u : UnitId) (c : Ctrl) :
    (s.setCtrl u c).agenda = s.agenda := by cases u <;> rfl

@[simp] theorem State.setCtrl_len (s : State) (u : UnitId) (c : Ctrl) (x : Buf) :
    (s.setCtrl u c).len x = s.len x := by cases u <;> cases x <;> rfl

@[simp] theorem State.setCtrl_peek (s : State) (u : UnitId) (c : Ctrl) (x : Buf) (i : Nat) :
    (s.setCtrl u c).peek x i = s.peek x i := by cases u <;> cases x <;> rfl

@[simp] theorem State.setCtrl_ctrl_other (s : State) (u : UnitId) (c : Ctrl) (v : UnitId) (h : v ≠ u) :
    (s.setCtrl u c).ctrl v = s.ctrl v := by
  cases u <;> cases v <;> first | rfl | exact absurd rfl h

@[simp] theorem State.setCtrl_aux (s : State) (u : UnitId) (c : Ctrl) (v : UnitId) :
    (s.setCtrl u c).aux v = s.aux v := by cases u <;> cases v <;> rfl

@[simp] theorem State.setAux_cfg (s : State) (u : UnitId) (a : Aux) :
    (s.setAux u a).cfg = s.cfg := by cases u <;> rfl

@[simp] theorem State.setAux_agenda (s : State) (u : UnitId) (a : Aux) :
    (s.setAux u a).agenda = s.agenda := by cases u <;> rfl

@[simp] theorem State.setAux_len (s : State) (u : UnitId) (a : Aux) (x : Buf) :
    (s.setAux u a).len x = s.len x := by cases u <;> cases x <;> rfl

@[simp] theorem State.setAux_peek (s : State) (u : UnitId) (a : Aux) (x : Buf) (i : Nat) :
    (s.setAux u a).peek x i = s.peek x i := by cases u <;> cases x <;> rfl

@[simp] theorem State.setAux_ctrl (s : State) (u : UnitId) (a : Aux) (v : UnitId) :
    (s.setAux u a).ctrl v = s.ctrl v := by cases u <;> cases v <;> rfl

@[simp] theorem State.setAux_aux_other (s : State) (u : UnitId) (a : Aux) (v : UnitId) (h : v ≠ u) :
    (s.setAux u a).aux v = s.aux v := by
  cases u <;> cases v <;> first | rfl | exact absurd rfl h

@[simp] theorem State.freshScratch_cfg (s : State) (u : UnitId) :
    (s.freshScratch u).cfg = s.cfg := by cases u <;> rfl

@[simp] theorem State.freshScratch_agenda (s : State) (u : UnitId) :
    (s.freshScratch u).agenda = s.agenda := by cases u <;> rfl

@[simp] theorem State.freshScratch_len (s : State) (u : UnitId) (x : Buf) :
    (s.freshScratch u).len x = s.len x := by cases u <;> cases x <;> rfl

@[simp] theorem State.freshScratch_peek (s : State) (u : UnitId) (x : Buf) (i : Nat) :
    (s.freshScratch u).peek x i = s.peek x i := by cases u <;> cases x <;> rfl

@[simp] theorem State.freshScratch_ctrl (s : State) (u : UnitId) (v : UnitId) :
    (s.freshScratch u).ctrl v = s.ctrl v := by cases u <;> cases v <;> rfl

@[simp] theorem State.freshScratch_aux (s : State) (u : UnitId) (v : UnitId) :
    (s.freshScratch u).aux v = s.aux v := by cases u <;> cases v <;> rfl

@[simp] theorem State.dropScratch_cfg (s : State) (u : UnitId) :
    (s.dropScratch u).cfg = s.cfg := by cases u <;> rfl

@[simp] theorem State.dropScratch_agenda (s : State) (u : UnitId) :
    (s.dropScratch u).agenda = s.agenda := by cases u <;> rfl

@[simp] theorem State.dropScratch_len (s : State) (u : UnitId) (x : Buf) :
    (s.dropScratch u).len x = s.len x := by cases u <;> cases x <;> rfl

@[simp] theorem State.dropScratch_peek (s : State) (u : UnitId) (x : Buf) (i : Nat) :
    (s.dropScratch u).peek x i = s.peek x i := by cases u <;> cases x <;> rfl

@[simp] theorem State.dropScratch_ctrl (s : State) (u : UnitId) (v : UnitId) :
    (s.dropScratch u).ctrl v = s.ctrl v := by cases u <;> cases v <;> rfl

@[simp] theorem State.dropScratch_aux (s : State) (u : UnitId) (v : UnitId) :
    (s.dropScratch u).aux v = s.aux v := by cases u <;> cases v <;> rfl

@[simp] theorem State.setFree_cfg (s : State) (u : UnitId) (k : Nat) :
    (s.setFree u k).cfg = s.cfg := by cases u <;> rfl

@[simp] theorem State.setFree_agenda (s : State) (u : UnitId) (k : Nat) :
    (s.setFree u k).agenda = s.agenda := by cases u <;> rfl

@[simp] theorem State.setFree_len (s : State) (u : UnitId) (k : Nat) (x : Buf) :
    (s.setFree u k).len x = s.len x := by cases u <;> cases x <;> rfl

@[simp] theorem State.setFree_peek (s : State) (u : UnitId) (k : Nat) (x : Buf) (i : Nat) :
    (s.setFree u k).peek x i = s.peek x i := by cases u <;> cases x <;> rfl

@[simp] theorem State.setFree_ctrl (s : State) (u : UnitId) (k : Nat) (v : UnitId) :
    (s.setFree u k).ctrl v = s.ctrl v := by cases u <;> cases v <;> rfl

@[simp] theorem State.setFree_aux_other (s : State) (u : UnitId) (k : Nat) (v : UnitId) (h : v ≠ u) :
    (s.setFree u k).aux v = s.aux v := by
  cases u <;> cases v <;> first | rfl | exact absurd rfl h

@[simp] theorem State.answer_cfg (s : State) (u : UnitId) (r : Reply) :
    (s.answer u r).cfg = s.cfg := by cases u <;> rfl

@[simp] theorem State.answer_agenda (s : State) (u : UnitId) (r : Reply) :
    (s.answer u r).agenda = s.agenda := by cases u <;> rfl

@[simp] theorem State.answer_len (s : State) (u : UnitId) (r : Reply) (x : Buf) :
    (s.answer u r).len x = s.len x := by cases u <;> cases x <;> rfl

@[simp] theorem State.answer_peek (s : State) (u : UnitId) (r : Reply) (x : Buf) (i : Nat) :
    (s.answer u r).peek x i = s.peek x i := by cases u <;> cases x <;> rfl

@[simp] theorem State.answer_ctrl (s : State) (u : UnitId) (r : Reply) (v : UnitId) :
    (s.answer u r).ctrl v = s.ctrl v := by cases u <;> cases v <;> rfl

@[simp] theorem State.answer_aux_other (s : State) (u : UnitId) (r : Reply) (v : UnitId) (h : v ≠ u) :
    (s.answer u r).aux v = s.aux v := by
  cases u <;> cases v <;> first | rfl | exact absurd rfl h

@[simp] theorem State.answerFree_cfg (s : State) (u : UnitId) (f : Nat → Reply) :
    (s.answerFree u f).cfg = s.cfg := by cases u <;> rfl

@[simp] theorem State.answerFree_agenda (s : State) (u : UnitId) (f : Nat → Reply) :
    (s.answerFree u f).agenda = s.agenda := by cases u <;> rfl

@[simp] theorem State.answerFree_len (s : State) (u : UnitId) (f : Nat → Reply) (x : Buf) :
    (s.answerFree u f).len x = s.len x := by cases u <;> cases x <;> rfl

@[simp] theorem State.answerFree_peek (s : State) (u : UnitId) (f : Nat → Reply) (x : Buf) (i : Nat) :
    (s.answerFree u f).peek x i = s.peek x i := by cases u <;> cases x <;> rfl

@[simp] theorem State.answerFree_ctrl (s : State) (u : UnitId) (f : Nat → Reply) (v : UnitId) :
    (s.answerFree u f).ctrl v = s.ctrl v := by cases u <;> cases v <;> rfl

@[simp] theorem State.answerFree_aux_other (s : State) (u : UnitId) (f : Nat → Reply) (v : UnitId) (h : v ≠ u) :
    (s.answerFree u f).aux v = s.aux v := by
  cases u <;> cases v <;> first | rfl | exact absurd rfl h

@[simp] theorem State.accept_cfg (s : State) (u : UnitId) (w : Word) :
    (s.accept u w).cfg = s.cfg := by cases u <;> rfl

@[simp] theorem State.accept_agenda (s : State) (u : UnitId) (w : Word) :
    (s.accept u w).agenda = s.agenda := by cases u <;> rfl

@[simp] theorem State.accept_len (s : State) (u : UnitId) (w : Word) (x : Buf) :
    (s.accept u w).len x = s.len x := by cases u <;> cases x <;> rfl

@[simp] theorem State.accept_peek (s : State) (u : UnitId) (w : Word) (x : Buf) (i : Nat) :
    (s.accept u w).peek x i = s.peek x i := by cases u <;> cases x <;> rfl

@[simp] theorem State.accept_ctrl_other (s : State) (u : UnitId) (w : Word) (v : UnitId) (h : v ≠ u) :
    (s.accept u w).ctrl v = s.ctrl v := by
  cases u <;> cases v <;> first | rfl | exact absurd rfl h

@[simp] theorem State.accept_aux (s : State) (u : UnitId) (w : Word) (v : UnitId) :
    (s.accept u w).aux v = s.aux v := by cases u <;> cases v <;> rfl

@[simp] theorem State.raise_cfg (s : State) (u : UnitId) (r : Report) :
    (s.raise u r).cfg = s.cfg := by cases u <;> rfl

@[simp] theorem State.raise_agenda (s : State) (u : UnitId) (r : Report) :
    (s.raise u r).agenda = s.agenda := by cases u <;> rfl

@[simp] theorem State.raise_len (s : State) (u : UnitId) (r : Report) (x : Buf) :
    (s.raise u r).len x = s.len x := by cases u <;> cases x <;> rfl

@[simp] theorem State.raise_peek (s : State) (u : UnitId) (r : Report) (x : Buf) (i : Nat) :
    (s.raise u r).peek x i = s.peek x i := by cases u <;> cases x <;> rfl

@[simp] theorem State.raise_ctrl_other (s : State) (u : UnitId) (r : Report) (v : UnitId) (h : v ≠ u) :
    (s.raise u r).ctrl v = s.ctrl v := by
  cases u <;> cases v <;> first | rfl | exact absurd rfl h

@[simp] theorem State.raise_aux (s : State) (u : UnitId) (r : Report) (v : UnitId) :
    (s.raise u r).aux v = s.aux v := by cases u <;> cases v <;> rfl

@[simp] theorem State.setCtrl_ctrl_same (s : State) (u : UnitId) (c : Ctrl) :
    (s.setCtrl u c).ctrl u = c := by cases u <;> rfl

@[simp] theorem State.accept_ctrl_same (s : State) (u : UnitId) (w : Word) :
    (s.accept u w).ctrl u = Ctrl.accept w := by cases u <;> rfl

@[simp] theorem State.raise_ctrl_same (s : State) (u : UnitId) (r : Report) :
    (s.raise u r).ctrl u = (s.ctrl u).raise r.cause (errInfoOf r.info) := by cases u <;> rfl

@[simp] theorem State.setAux_aux_same (s : State) (u : UnitId) (c : Aux) :
    (s.setAux u c).aux u = c := by cases u <;> rfl

@[simp] theorem State.setFree_aux_same (s : State) (u : UnitId) (k : Nat) :
    (s.setFree u k).aux u = { s.aux u with free := k } := by cases u <;> rfl

@[simp] theorem State.answer_aux_same (s : State) (u : UnitId) (r : Reply) :
    (s.answer u r).aux u = { s.aux u with reply := some r } := by cases u <;> rfl

@[simp] theorem State.answerFree_aux_same (s : State) (u : UnitId) (f : Nat → Reply) :
    (s.answerFree u f).aux u = { free := (s.aux u).free + 1, reply := some (f (s.aux u).free) } := by cases u <;> rfl

/-! ### Units other than the one updated -/

theorem State.setCtrl_sameUnit (s : State) (u : UnitId) (c : Ctrl) (v : UnitId) (h : v ≠ u) :
    s.sameUnit (s.setCtrl u c) v := by
  cases u <;> cases v <;> first | rfl | exact absurd rfl h

theorem State.setAux_sameUnit (s : State) (u : UnitId) (a : Aux) (v : UnitId) (h : v ≠ u) :
    s.sameUnit (s.setAux u a) v := by
  cases u <;> cases v <;> first | rfl | exact absurd rfl h

theorem State.freshScratch_sameUnit (s : State) (u : UnitId) (v : UnitId) (h : v ≠ u) :
    s.sameUnit (s.freshScratch u) v := by
  cases u <;> cases v <;> first | rfl | exact absurd rfl h

theorem State.dropScratch_sameUnit (s : State) (u : UnitId) (v : UnitId) (h : v ≠ u) :
    s.sameUnit (s.dropScratch u) v := by
  cases u <;> cases v <;> first | rfl | exact absurd rfl h

theorem State.setFree_sameUnit (s : State) (u : UnitId) (k : Nat) (v : UnitId) (h : v ≠ u) :
    s.sameUnit (s.setFree u k) v := by
  cases u <;> cases v <;> first | rfl | exact absurd rfl h

theorem State.answer_sameUnit (s : State) (u : UnitId) (r : Reply) (v : UnitId) (h : v ≠ u) :
    s.sameUnit (s.answer u r) v := by
  cases u <;> cases v <;> first | rfl | exact absurd rfl h

theorem State.answerFree_sameUnit (s : State) (u : UnitId) (f : Nat → Reply) (v : UnitId) (h : v ≠ u) :
    s.sameUnit (s.answerFree u f) v := by
  cases u <;> cases v <;> first | rfl | exact absurd rfl h

theorem State.accept_sameUnit (s : State) (u : UnitId) (w : Word) (v : UnitId) (h : v ≠ u) :
    s.sameUnit (s.accept u w) v := by
  cases u <;> cases v <;> first | rfl | exact absurd rfl h

theorem State.raise_sameUnit (s : State) (u : UnitId) (r : Report) (v : UnitId) (h : v ≠ u) :
    s.sameUnit (s.raise u r) v := by
  cases u <;> cases v <;> first | rfl | exact absurd rfl h

/-! ### The word of a reported position -/

theorem errInfoOf_of_lt {n : Nat} (h : n < 2 ^ 32) : errInfoOf n = BitVec.ofNat 32 n := if_pos h

/-! ### Control registers -/

@[simp] theorem Ctrl.accept_cmd (w : Word) : (Ctrl.accept w).cmd = w := rfl

@[simp] theorem Ctrl.complete_cmd (c : Ctrl) (e : Bool) : (c.complete e).cmd = c.cmd := rfl

@[simp] theorem Ctrl.raise_cmd (c : Ctrl) (k : Cause) (i : Word) :
    (c.raise k i).cmd = c.cmd := rfl

@[simp] theorem Ctrl.accept_status (w : Word) : (Ctrl.accept w).status = statusBusy := rfl

@[simp] theorem Ctrl.complete_status (c : Ctrl) (e : Bool) : (c.complete e).status = statusDone e := rfl

@[simp] theorem Ctrl.raise_status (c : Ctrl) (k : Cause) (i : Word) :
    (c.raise k i).status = statusError := rfl

@[simp] theorem Ctrl.accept_err (w : Word) : (Ctrl.accept w).err = 0 := rfl

@[simp] theorem Ctrl.complete_err (c : Ctrl) (e : Bool) : (c.complete e).err = c.err := rfl

@[simp] theorem Ctrl.raise_err (c : Ctrl) (k : Cause) (i : Word) :
    (c.raise k i).err = k.code := rfl

@[simp] theorem Ctrl.accept_errInfo (w : Word) : (Ctrl.accept w).errInfo = 0 := rfl

@[simp] theorem Ctrl.complete_errInfo (c : Ctrl) (e : Bool) : (c.complete e).errInfo = c.errInfo := rfl

@[simp] theorem Ctrl.raise_errInfo (c : Ctrl) (k : Cause) (i : Word) :
    (c.raise k i).errInfo = i := rfl

@[simp] theorem Ctrl.accept_busy (w : Word) : (Ctrl.accept w).busy = true := by
  simp [Ctrl.busy, Ctrl.accept, statusBusy]

@[simp] theorem Ctrl.complete_busy (c : Ctrl) (e : Bool) : (c.complete e).busy = false := by
  cases e <;> simp [Ctrl.busy, Ctrl.complete, statusDone]

@[simp] theorem Ctrl.raise_busy (c : Ctrl) (k : Cause) (i : Word) : (c.raise k i).busy = false := by
  simp [Ctrl.busy, Ctrl.raise, statusError]

/-! ### Writes of a destination and completion, unit by unit -/

@[simp] theorem RleUnit.writeSym_sym (x : RleUnit) (xs : List Sym) :
    (x.writeSym xs).sym = x.sym.store xs := rfl

@[simp] theorem RleUnit.writeSym_symLen (x : RleUnit) (xs : List Sym) :
    (x.writeSym xs).symLen = BitVec.ofNat 32 xs.length := rfl

@[simp] theorem RleUnit.writeSym_run (x : RleUnit) (xs : List Sym) :
    (x.writeSym xs).run = x.run := rfl

@[simp] theorem RleUnit.writeSym_runLen (x : RleUnit) (xs : List Sym) :
    (x.writeSym xs).runLen = x.runLen := rfl

@[simp] theorem RleUnit.writeSym_txt (x : RleUnit) (xs : List Sym) :
    (x.writeSym xs).txt = x.txt := rfl

@[simp] theorem RleUnit.writeSym_txtLen (x : RleUnit) (xs : List Sym) :
    (x.writeSym xs).txtLen = x.txtLen := rfl

@[simp] theorem RleUnit.writeSym_byt (x : RleUnit) (xs : List Sym) :
    (x.writeSym xs).byt = x.byt := rfl

@[simp] theorem RleUnit.writeSym_bytLen (x : RleUnit) (xs : List Sym) :
    (x.writeSym xs).bytLen = x.bytLen := rfl

@[simp] theorem RleUnit.writeSym_ctrl (x : RleUnit) (xs : List Sym) :
    (x.writeSym xs).ctrl = x.ctrl := rfl

@[simp] theorem RleUnit.writeSym_scratch (x : RleUnit) (xs : List Sym) :
    (x.writeSym xs).scratch = x.scratch := rfl

@[simp] theorem RleUnit.writeSym_aux (x : RleUnit) (xs : List Sym) :
    (x.writeSym xs).aux = x.aux := rfl

@[simp] theorem RleUnit.writeRun_sym (x : RleUnit) (xs : List Run) :
    (x.writeRun xs).sym = x.sym := rfl

@[simp] theorem RleUnit.writeRun_symLen (x : RleUnit) (xs : List Run) :
    (x.writeRun xs).symLen = x.symLen := rfl

@[simp] theorem RleUnit.writeRun_run (x : RleUnit) (xs : List Run) :
    (x.writeRun xs).run = x.run.store xs := rfl

@[simp] theorem RleUnit.writeRun_runLen (x : RleUnit) (xs : List Run) :
    (x.writeRun xs).runLen = BitVec.ofNat 32 xs.length := rfl

@[simp] theorem RleUnit.writeRun_txt (x : RleUnit) (xs : List Run) :
    (x.writeRun xs).txt = x.txt := rfl

@[simp] theorem RleUnit.writeRun_txtLen (x : RleUnit) (xs : List Run) :
    (x.writeRun xs).txtLen = x.txtLen := rfl

@[simp] theorem RleUnit.writeRun_byt (x : RleUnit) (xs : List Run) :
    (x.writeRun xs).byt = x.byt := rfl

@[simp] theorem RleUnit.writeRun_bytLen (x : RleUnit) (xs : List Run) :
    (x.writeRun xs).bytLen = x.bytLen := rfl

@[simp] theorem RleUnit.writeRun_ctrl (x : RleUnit) (xs : List Run) :
    (x.writeRun xs).ctrl = x.ctrl := rfl

@[simp] theorem RleUnit.writeRun_scratch (x : RleUnit) (xs : List Run) :
    (x.writeRun xs).scratch = x.scratch := rfl

@[simp] theorem RleUnit.writeRun_aux (x : RleUnit) (xs : List Run) :
    (x.writeRun xs).aux = x.aux := rfl

@[simp] theorem RleUnit.writeTxt_sym (x : RleUnit) (xs : List Sym) :
    (x.writeTxt xs).sym = x.sym := rfl

@[simp] theorem RleUnit.writeTxt_symLen (x : RleUnit) (xs : List Sym) :
    (x.writeTxt xs).symLen = x.symLen := rfl

@[simp] theorem RleUnit.writeTxt_run (x : RleUnit) (xs : List Sym) :
    (x.writeTxt xs).run = x.run := rfl

@[simp] theorem RleUnit.writeTxt_runLen (x : RleUnit) (xs : List Sym) :
    (x.writeTxt xs).runLen = x.runLen := rfl

@[simp] theorem RleUnit.writeTxt_txt (x : RleUnit) (xs : List Sym) :
    (x.writeTxt xs).txt = x.txt.store xs := rfl

@[simp] theorem RleUnit.writeTxt_txtLen (x : RleUnit) (xs : List Sym) :
    (x.writeTxt xs).txtLen = BitVec.ofNat 32 xs.length := rfl

@[simp] theorem RleUnit.writeTxt_byt (x : RleUnit) (xs : List Sym) :
    (x.writeTxt xs).byt = x.byt := rfl

@[simp] theorem RleUnit.writeTxt_bytLen (x : RleUnit) (xs : List Sym) :
    (x.writeTxt xs).bytLen = x.bytLen := rfl

@[simp] theorem RleUnit.writeTxt_ctrl (x : RleUnit) (xs : List Sym) :
    (x.writeTxt xs).ctrl = x.ctrl := rfl

@[simp] theorem RleUnit.writeTxt_scratch (x : RleUnit) (xs : List Sym) :
    (x.writeTxt xs).scratch = x.scratch := rfl

@[simp] theorem RleUnit.writeTxt_aux (x : RleUnit) (xs : List Sym) :
    (x.writeTxt xs).aux = x.aux := rfl

@[simp] theorem RleUnit.writeByt_sym (x : RleUnit) (xs : List Byte) :
    (x.writeByt xs).sym = x.sym := rfl

@[simp] theorem RleUnit.writeByt_symLen (x : RleUnit) (xs : List Byte) :
    (x.writeByt xs).symLen = x.symLen := rfl

@[simp] theorem RleUnit.writeByt_run (x : RleUnit) (xs : List Byte) :
    (x.writeByt xs).run = x.run := rfl

@[simp] theorem RleUnit.writeByt_runLen (x : RleUnit) (xs : List Byte) :
    (x.writeByt xs).runLen = x.runLen := rfl

@[simp] theorem RleUnit.writeByt_txt (x : RleUnit) (xs : List Byte) :
    (x.writeByt xs).txt = x.txt := rfl

@[simp] theorem RleUnit.writeByt_txtLen (x : RleUnit) (xs : List Byte) :
    (x.writeByt xs).txtLen = x.txtLen := rfl

@[simp] theorem RleUnit.writeByt_byt (x : RleUnit) (xs : List Byte) :
    (x.writeByt xs).byt = x.byt.store xs := rfl

@[simp] theorem RleUnit.writeByt_bytLen (x : RleUnit) (xs : List Byte) :
    (x.writeByt xs).bytLen = BitVec.ofNat 32 xs.length := rfl

@[simp] theorem RleUnit.writeByt_ctrl (x : RleUnit) (xs : List Byte) :
    (x.writeByt xs).ctrl = x.ctrl := rfl

@[simp] theorem RleUnit.writeByt_scratch (x : RleUnit) (xs : List Byte) :
    (x.writeByt xs).scratch = x.scratch := rfl

@[simp] theorem RleUnit.writeByt_aux (x : RleUnit) (xs : List Byte) :
    (x.writeByt xs).aux = x.aux := rfl

@[simp] theorem RleUnit.complete_sym (x : RleUnit) : x.complete.sym = x.sym := rfl

@[simp] theorem RleUnit.complete_symLen (x : RleUnit) : x.complete.symLen = x.symLen := rfl

@[simp] theorem RleUnit.complete_run (x : RleUnit) : x.complete.run = x.run := rfl

@[simp] theorem RleUnit.complete_runLen (x : RleUnit) : x.complete.runLen = x.runLen := rfl

@[simp] theorem RleUnit.complete_txt (x : RleUnit) : x.complete.txt = x.txt := rfl

@[simp] theorem RleUnit.complete_txtLen (x : RleUnit) : x.complete.txtLen = x.txtLen := rfl

@[simp] theorem RleUnit.complete_byt (x : RleUnit) : x.complete.byt = x.byt := rfl

@[simp] theorem RleUnit.complete_bytLen (x : RleUnit) : x.complete.bytLen = x.bytLen := rfl

@[simp] theorem RleUnit.complete_ctrl (x : RleUnit) :
    x.complete.ctrl = x.ctrl.complete (emptyFlag x.symLen) := rfl

@[simp] theorem RleUnit.complete_scratch (x : RleUnit) : x.complete.scratch = none := rfl

@[simp] theorem RleUnit.complete_aux (x : RleUnit) : x.complete.aux = x.aux := rfl

@[simp] theorem HufUnit.writeSym_sym (x : HufUnit) (xs : List Sym) :
    (x.writeSym xs).sym = x.sym.store xs := rfl

@[simp] theorem HufUnit.writeSym_symLen (x : HufUnit) (xs : List Sym) :
    (x.writeSym xs).symLen = BitVec.ofNat 32 xs.length := rfl

@[simp] theorem HufUnit.writeSym_bit (x : HufUnit) (xs : List Sym) :
    (x.writeSym xs).bit = x.bit := rfl

@[simp] theorem HufUnit.writeSym_bitLen (x : HufUnit) (xs : List Sym) :
    (x.writeSym xs).bitLen = x.bitLen := rfl

@[simp] theorem HufUnit.writeSym_tab (x : HufUnit) (xs : List Sym) :
    (x.writeSym xs).tab = x.tab := rfl

@[simp] theorem HufUnit.writeSym_tabLen (x : HufUnit) (xs : List Sym) :
    (x.writeSym xs).tabLen = x.tabLen := rfl

@[simp] theorem HufUnit.writeSym_byt (x : HufUnit) (xs : List Sym) :
    (x.writeSym xs).byt = x.byt := rfl

@[simp] theorem HufUnit.writeSym_bytLen (x : HufUnit) (xs : List Sym) :
    (x.writeSym xs).bytLen = x.bytLen := rfl

@[simp] theorem HufUnit.writeSym_ctrl (x : HufUnit) (xs : List Sym) :
    (x.writeSym xs).ctrl = x.ctrl := rfl

@[simp] theorem HufUnit.writeSym_scratch (x : HufUnit) (xs : List Sym) :
    (x.writeSym xs).scratch = x.scratch := rfl

@[simp] theorem HufUnit.writeSym_aux (x : HufUnit) (xs : List Sym) :
    (x.writeSym xs).aux = x.aux := rfl

@[simp] theorem HufUnit.writeBit_sym (x : HufUnit) (xs : List Bool) :
    (x.writeBit xs).sym = x.sym := rfl

@[simp] theorem HufUnit.writeBit_symLen (x : HufUnit) (xs : List Bool) :
    (x.writeBit xs).symLen = x.symLen := rfl

@[simp] theorem HufUnit.writeBit_bit (x : HufUnit) (xs : List Bool) :
    (x.writeBit xs).bit = x.bit.store xs := rfl

@[simp] theorem HufUnit.writeBit_bitLen (x : HufUnit) (xs : List Bool) :
    (x.writeBit xs).bitLen = BitVec.ofNat 32 xs.length := rfl

@[simp] theorem HufUnit.writeBit_tab (x : HufUnit) (xs : List Bool) :
    (x.writeBit xs).tab = x.tab := rfl

@[simp] theorem HufUnit.writeBit_tabLen (x : HufUnit) (xs : List Bool) :
    (x.writeBit xs).tabLen = x.tabLen := rfl

@[simp] theorem HufUnit.writeBit_byt (x : HufUnit) (xs : List Bool) :
    (x.writeBit xs).byt = x.byt := rfl

@[simp] theorem HufUnit.writeBit_bytLen (x : HufUnit) (xs : List Bool) :
    (x.writeBit xs).bytLen = x.bytLen := rfl

@[simp] theorem HufUnit.writeBit_ctrl (x : HufUnit) (xs : List Bool) :
    (x.writeBit xs).ctrl = x.ctrl := rfl

@[simp] theorem HufUnit.writeBit_scratch (x : HufUnit) (xs : List Bool) :
    (x.writeBit xs).scratch = x.scratch := rfl

@[simp] theorem HufUnit.writeBit_aux (x : HufUnit) (xs : List Bool) :
    (x.writeBit xs).aux = x.aux := rfl

@[simp] theorem HufUnit.writeTab_sym (x : HufUnit) (xs : List Entry) :
    (x.writeTab xs).sym = x.sym := rfl

@[simp] theorem HufUnit.writeTab_symLen (x : HufUnit) (xs : List Entry) :
    (x.writeTab xs).symLen = x.symLen := rfl

@[simp] theorem HufUnit.writeTab_bit (x : HufUnit) (xs : List Entry) :
    (x.writeTab xs).bit = x.bit := rfl

@[simp] theorem HufUnit.writeTab_bitLen (x : HufUnit) (xs : List Entry) :
    (x.writeTab xs).bitLen = x.bitLen := rfl

@[simp] theorem HufUnit.writeTab_tab (x : HufUnit) (xs : List Entry) :
    (x.writeTab xs).tab = x.tab.store xs := rfl

@[simp] theorem HufUnit.writeTab_tabLen (x : HufUnit) (xs : List Entry) :
    (x.writeTab xs).tabLen = BitVec.ofNat 32 xs.length := rfl

@[simp] theorem HufUnit.writeTab_byt (x : HufUnit) (xs : List Entry) :
    (x.writeTab xs).byt = x.byt := rfl

@[simp] theorem HufUnit.writeTab_bytLen (x : HufUnit) (xs : List Entry) :
    (x.writeTab xs).bytLen = x.bytLen := rfl

@[simp] theorem HufUnit.writeTab_ctrl (x : HufUnit) (xs : List Entry) :
    (x.writeTab xs).ctrl = x.ctrl := rfl

@[simp] theorem HufUnit.writeTab_scratch (x : HufUnit) (xs : List Entry) :
    (x.writeTab xs).scratch = x.scratch := rfl

@[simp] theorem HufUnit.writeTab_aux (x : HufUnit) (xs : List Entry) :
    (x.writeTab xs).aux = x.aux := rfl

@[simp] theorem HufUnit.writeByt_sym (x : HufUnit) (xs : List Byte) :
    (x.writeByt xs).sym = x.sym := rfl

@[simp] theorem HufUnit.writeByt_symLen (x : HufUnit) (xs : List Byte) :
    (x.writeByt xs).symLen = x.symLen := rfl

@[simp] theorem HufUnit.writeByt_bit (x : HufUnit) (xs : List Byte) :
    (x.writeByt xs).bit = x.bit := rfl

@[simp] theorem HufUnit.writeByt_bitLen (x : HufUnit) (xs : List Byte) :
    (x.writeByt xs).bitLen = x.bitLen := rfl

@[simp] theorem HufUnit.writeByt_tab (x : HufUnit) (xs : List Byte) :
    (x.writeByt xs).tab = x.tab := rfl

@[simp] theorem HufUnit.writeByt_tabLen (x : HufUnit) (xs : List Byte) :
    (x.writeByt xs).tabLen = x.tabLen := rfl

@[simp] theorem HufUnit.writeByt_byt (x : HufUnit) (xs : List Byte) :
    (x.writeByt xs).byt = x.byt.store xs := rfl

@[simp] theorem HufUnit.writeByt_bytLen (x : HufUnit) (xs : List Byte) :
    (x.writeByt xs).bytLen = BitVec.ofNat 32 xs.length := rfl

@[simp] theorem HufUnit.writeByt_ctrl (x : HufUnit) (xs : List Byte) :
    (x.writeByt xs).ctrl = x.ctrl := rfl

@[simp] theorem HufUnit.writeByt_scratch (x : HufUnit) (xs : List Byte) :
    (x.writeByt xs).scratch = x.scratch := rfl

@[simp] theorem HufUnit.writeByt_aux (x : HufUnit) (xs : List Byte) :
    (x.writeByt xs).aux = x.aux := rfl

@[simp] theorem HufUnit.complete_sym (x : HufUnit) : x.complete.sym = x.sym := rfl

@[simp] theorem HufUnit.complete_symLen (x : HufUnit) : x.complete.symLen = x.symLen := rfl

@[simp] theorem HufUnit.complete_bit (x : HufUnit) : x.complete.bit = x.bit := rfl

@[simp] theorem HufUnit.complete_bitLen (x : HufUnit) : x.complete.bitLen = x.bitLen := rfl

@[simp] theorem HufUnit.complete_tab (x : HufUnit) : x.complete.tab = x.tab := rfl

@[simp] theorem HufUnit.complete_tabLen (x : HufUnit) : x.complete.tabLen = x.tabLen := rfl

@[simp] theorem HufUnit.complete_byt (x : HufUnit) : x.complete.byt = x.byt := rfl

@[simp] theorem HufUnit.complete_bytLen (x : HufUnit) : x.complete.bytLen = x.bytLen := rfl

@[simp] theorem HufUnit.complete_ctrl (x : HufUnit) :
    x.complete.ctrl = x.ctrl.complete (emptyFlag x.symLen) := rfl

@[simp] theorem HufUnit.complete_scratch (x : HufUnit) : x.complete.scratch = none := rfl

@[simp] theorem HufUnit.complete_aux (x : HufUnit) : x.complete.aux = x.aux := rfl

@[simp] theorem LzwUnit.writeSym_sym (x : LzwUnit) (xs : List Sym) :
    (x.writeSym xs).sym = x.sym.store xs := rfl

@[simp] theorem LzwUnit.writeSym_symLen (x : LzwUnit) (xs : List Sym) :
    (x.writeSym xs).symLen = BitVec.ofNat 32 xs.length := rfl

@[simp] theorem LzwUnit.writeSym_cod (x : LzwUnit) (xs : List Sym) :
    (x.writeSym xs).cod = x.cod := rfl

@[simp] theorem LzwUnit.writeSym_codLen (x : LzwUnit) (xs : List Sym) :
    (x.writeSym xs).codLen = x.codLen := rfl

@[simp] theorem LzwUnit.writeSym_byt (x : LzwUnit) (xs : List Sym) :
    (x.writeSym xs).byt = x.byt := rfl

@[simp] theorem LzwUnit.writeSym_bytLen (x : LzwUnit) (xs : List Sym) :
    (x.writeSym xs).bytLen = x.bytLen := rfl

@[simp] theorem LzwUnit.writeSym_ctrl (x : LzwUnit) (xs : List Sym) :
    (x.writeSym xs).ctrl = x.ctrl := rfl

@[simp] theorem LzwUnit.writeSym_scratch (x : LzwUnit) (xs : List Sym) :
    (x.writeSym xs).scratch = x.scratch := rfl

@[simp] theorem LzwUnit.writeSym_aux (x : LzwUnit) (xs : List Sym) :
    (x.writeSym xs).aux = x.aux := rfl

@[simp] theorem LzwUnit.writeCod_sym (x : LzwUnit) (xs : List Word) :
    (x.writeCod xs).sym = x.sym := rfl

@[simp] theorem LzwUnit.writeCod_symLen (x : LzwUnit) (xs : List Word) :
    (x.writeCod xs).symLen = x.symLen := rfl

@[simp] theorem LzwUnit.writeCod_cod (x : LzwUnit) (xs : List Word) :
    (x.writeCod xs).cod = x.cod.store xs := rfl

@[simp] theorem LzwUnit.writeCod_codLen (x : LzwUnit) (xs : List Word) :
    (x.writeCod xs).codLen = BitVec.ofNat 32 xs.length := rfl

@[simp] theorem LzwUnit.writeCod_byt (x : LzwUnit) (xs : List Word) :
    (x.writeCod xs).byt = x.byt := rfl

@[simp] theorem LzwUnit.writeCod_bytLen (x : LzwUnit) (xs : List Word) :
    (x.writeCod xs).bytLen = x.bytLen := rfl

@[simp] theorem LzwUnit.writeCod_ctrl (x : LzwUnit) (xs : List Word) :
    (x.writeCod xs).ctrl = x.ctrl := rfl

@[simp] theorem LzwUnit.writeCod_scratch (x : LzwUnit) (xs : List Word) :
    (x.writeCod xs).scratch = x.scratch := rfl

@[simp] theorem LzwUnit.writeCod_aux (x : LzwUnit) (xs : List Word) :
    (x.writeCod xs).aux = x.aux := rfl

@[simp] theorem LzwUnit.writeByt_sym (x : LzwUnit) (xs : List Byte) :
    (x.writeByt xs).sym = x.sym := rfl

@[simp] theorem LzwUnit.writeByt_symLen (x : LzwUnit) (xs : List Byte) :
    (x.writeByt xs).symLen = x.symLen := rfl

@[simp] theorem LzwUnit.writeByt_cod (x : LzwUnit) (xs : List Byte) :
    (x.writeByt xs).cod = x.cod := rfl

@[simp] theorem LzwUnit.writeByt_codLen (x : LzwUnit) (xs : List Byte) :
    (x.writeByt xs).codLen = x.codLen := rfl

@[simp] theorem LzwUnit.writeByt_byt (x : LzwUnit) (xs : List Byte) :
    (x.writeByt xs).byt = x.byt.store xs := rfl

@[simp] theorem LzwUnit.writeByt_bytLen (x : LzwUnit) (xs : List Byte) :
    (x.writeByt xs).bytLen = BitVec.ofNat 32 xs.length := rfl

@[simp] theorem LzwUnit.writeByt_ctrl (x : LzwUnit) (xs : List Byte) :
    (x.writeByt xs).ctrl = x.ctrl := rfl

@[simp] theorem LzwUnit.writeByt_scratch (x : LzwUnit) (xs : List Byte) :
    (x.writeByt xs).scratch = x.scratch := rfl

@[simp] theorem LzwUnit.writeByt_aux (x : LzwUnit) (xs : List Byte) :
    (x.writeByt xs).aux = x.aux := rfl

@[simp] theorem LzwUnit.complete_sym (x : LzwUnit) : x.complete.sym = x.sym := rfl

@[simp] theorem LzwUnit.complete_symLen (x : LzwUnit) : x.complete.symLen = x.symLen := rfl

@[simp] theorem LzwUnit.complete_cod (x : LzwUnit) : x.complete.cod = x.cod := rfl

@[simp] theorem LzwUnit.complete_codLen (x : LzwUnit) : x.complete.codLen = x.codLen := rfl

@[simp] theorem LzwUnit.complete_byt (x : LzwUnit) : x.complete.byt = x.byt := rfl

@[simp] theorem LzwUnit.complete_bytLen (x : LzwUnit) : x.complete.bytLen = x.bytLen := rfl

@[simp] theorem LzwUnit.complete_ctrl (x : LzwUnit) :
    x.complete.ctrl = x.ctrl.complete (emptyFlag x.symLen) := rfl

@[simp] theorem LzwUnit.complete_scratch (x : LzwUnit) : x.complete.scratch = none := rfl

@[simp] theorem LzwUnit.complete_aux (x : LzwUnit) : x.complete.aux = x.aux := rfl

end Sys2Proof.Machine
end

