-- ==== Sys2Proof/Laws/Command.lean ====
section
/-! SUPPORT. What the completion step of a command can do, said once: the order of checks, and the state each
of its outcomes leaves. -/

namespace Sys2Proof.Machine

variable {α : Type}

/-! ### Limits (60_exceptions.md R249) -/

/-- No limit is exceeded. -/
theorem leastExceeded_none (ls : List Limit) :
    leastExceeded ls = none ↔ ∀ l ∈ ls, l.need ≤ l.cap := by
  unfold leastExceeded
  rw [List.min?_eq_none_iff, List.map_eq_nil_iff, List.filter_eq_nil_iff]
  simp

/-- The least id among the limits exceeded. -/
theorem leastExceeded_some (ls : List Limit) (id : Nat) :
    leastExceeded ls = some id ↔
      (∃ l ∈ ls, l.cap < l.need ∧ l.id = id) ∧ ∀ l ∈ ls, l.cap < l.need → id ≤ l.id := by
  unfold leastExceeded
  rw [List.min?_eq_some_iff]
  simp only [List.mem_map, List.mem_filter, decide_eq_true_eq, forall_exists_index, and_imp]
  constructor
  · rintro ⟨⟨l, ⟨hl, h1⟩, h2⟩, h3⟩
    exact ⟨⟨l, hl, h1, h2⟩, fun a ha h => h3 _ a ha h rfl⟩
  · rintro ⟨⟨l, hl, h1, h2⟩, h3⟩
    exact ⟨⟨l, ⟨hl, h1⟩, h2⟩, fun b a ha h e => e ▸ h3 a ha h⟩

@[simp] theorem leastExceeded_single (l : Limit) :
    leastExceeded [l] = if l.cap < l.need then some l.id else none := by
  by_cases h : l.cap < l.need <;> simp [leastExceeded, h]

theorem foldl_max_le (C : List Entry) (a n : Nat) :
    C.foldl (fun m e => max m e.code.length) a ≤ n ↔ a ≤ n ∧ ∀ e ∈ C, e.code.length ≤ n := by
  induction C generalizing a with
  | nil => simp
  | cons e C ih => simp only [List.foldl_cons, ih, List.forall_mem_cons, max_le_iff, and_assoc]

/-- The longest code is within a bound when every code is. -/
theorem longestCode_le (C : List Entry) (n : Nat) :
    longestCode C ≤ n ↔ ∀ e ∈ C, e.code.length ≤ n := by
  simp [longestCode, foldl_max_le]

/-! ### The order of checks (60_exceptions.md R252) -/

theorem byPriority_overflow (id : Nat) (op : Nat → Except Report α × Nat) (limits : α → List Limit)
    (k : Nat) : byPriority (some id) op limits k = (.error (tooLong id), k) := rfl

theorem byPriority_error {op : Nat → Except Report α × Nat} {limits : α → List Limit} {k k' : Nat}
    {e : Report} (h : op k = (.error e, k')) : byPriority none op limits k = (.error e, k') := by
  simp [byPriority, h]

theorem byPriority_tooLong {op : Nat → Except Report α × Nat} {limits : α → List Limit}
    {k k' id : Nat} {a : α} (h : op k = (.ok a, k')) (hl : leastExceeded (limits a) = some id) :
    byPriority none op limits k = (.error (tooLong id), k') := by
  simp [byPriority, h, hl, tooLong]

theorem byPriority_ok {op : Nat → Except Report α × Nat} {limits : α → List Limit} {k k' : Nat}
    {a : α} (h : op k = (.ok a, k')) (hl : leastExceeded (limits a) = none) :
    byPriority none op limits k = (.ok a, k') := by
  simp [byPriority, h, hl]

/-- Everything the checks can answer. -/
theorem byPriority_cases (overflow : Option Nat) (op : Nat → Except Report α × Nat)
    (limits : α → List Limit) (k : Nat) :
    (∃ id, overflow = some id ∧ byPriority overflow op limits k = (.error (tooLong id), k)) ∨
    (∃ e k', overflow = none ∧ op k = (.error e, k') ∧
      byPriority overflow op limits k = (.error e, k')) ∨
    (∃ a k' id, overflow = none ∧ op k = (.ok a, k') ∧ leastExceeded (limits a) = some id ∧
      byPriority overflow op limits k = (.error (tooLong id), k')) ∨
    (∃ a k', overflow = none ∧ op k = (.ok a, k') ∧ leastExceeded (limits a) = none ∧
      byPriority overflow op limits k = (.ok a, k')) := by
  cases overflow with
  | some id => exact .inl ⟨id, rfl, rfl⟩
  | none =>
    rcases hop : op k with ⟨e | a, k'⟩
    · exact .inr (.inl ⟨e, k', rfl, rfl, byPriority_error hop⟩)
    · rcases hl : leastExceeded (limits a) with _ | id
      · exact .inr (.inr (.inr ⟨a, k', rfl, rfl, hl, byPriority_ok hop hl⟩))
      · exact .inr (.inr (.inl ⟨a, k', id, rfl, rfl, hl, byPriority_tooLong hop hl⟩))

/-! ### The completion step, unit by unit (10_state.md R37, R38) -/

/-- A command of RLE that ends with an error changes the report only. -/
theorem rleCommand_error (s : State) (i : Instr) (op : Nat → Except Report α × Nat)
    (limits : α → List Limit) (write : RleUnit → α → RleUnit) (e : Report) (k : Nat)
    (h : byPriority (s.sourceOverflow i) op limits s.rle.aux.free = (.error e, k)) :
    rleCommand s i op limits write = .next { s with rle := s.rle.failed e k } := by
  unfold rleCommand
  rw [h]
  rfl

/-- A command of RLE that ends without error writes its destinations and `STATUS`. -/
theorem rleCommand_ok (s : State) (i : Instr) (op : Nat → Except Report α × Nat)
    (limits : α → List Limit) (write : RleUnit → α → RleUnit) (a : α) (k : Nat)
    (h : byPriority (s.sourceOverflow i) op limits s.rle.aux.free = (.ok a, k)) :
    rleCommand s i op limits write = .next { s with
        rle := (write s.rle a).ended (statusDone (emptyFlag (write s.rle a).symLen)) k } := by
  unfold rleCommand
  rw [h]
  rfl

/-- Everything a command of RLE can do: it answers a next state in which only RLE may differ. -/
theorem rleCommand_cases (s : State) (i : Instr) (op : Nat → Except Report α × Nat)
    (limits : α → List Limit) (write : RleUnit → α → RleUnit) :
    (∃ e k, byPriority (s.sourceOverflow i) op limits s.rle.aux.free = (.error e, k) ∧
      rleCommand s i op limits write = .next { s with rle := s.rle.failed e k }) ∨
    (∃ a k, byPriority (s.sourceOverflow i) op limits s.rle.aux.free = (.ok a, k) ∧
      rleCommand s i op limits write = .next { s with
        rle := (write s.rle a).ended (statusDone (emptyFlag (write s.rle a).symLen)) k }) := by
  rcases h : byPriority (s.sourceOverflow i) op limits s.rle.aux.free with ⟨e | a, k⟩
  · exact .inl ⟨e, k, rfl, rleCommand_error s i op limits write e k h⟩
  · exact .inr ⟨a, k, rfl, rleCommand_ok s i op limits write a k h⟩

/-- A command of HUF that ends with an error changes the report only. -/
theorem hufCommand_error (s : State) (i : Instr) (op : Nat → Except Report α × Nat)
    (limits : α → List Limit) (write : HufUnit → α → HufUnit) (e : Report) (k : Nat)
    (h : byPriority (s.sourceOverflow i) op limits s.huf.aux.free = (.error e, k)) :
    hufCommand s i op limits write = .next { s with huf := s.huf.failed e k } := by
  unfold hufCommand
  rw [h]
  rfl

/-- A command of HUF that ends without error writes its destinations and `STATUS`. -/
theorem hufCommand_ok (s : State) (i : Instr) (op : Nat → Except Report α × Nat)
    (limits : α → List Limit) (write : HufUnit → α → HufUnit) (a : α) (k : Nat)
    (h : byPriority (s.sourceOverflow i) op limits s.huf.aux.free = (.ok a, k)) :
    hufCommand s i op limits write = .next { s with
        huf := (write s.huf a).ended (statusDone (emptyFlag (write s.huf a).symLen)) k } := by
  unfold hufCommand
  rw [h]
  rfl

/-- Everything a command of HUF can do: it answers a next state in which only HUF may differ. -/
theorem hufCommand_cases (s : State) (i : Instr) (op : Nat → Except Report α × Nat)
    (limits : α → List Limit) (write : HufUnit → α → HufUnit) :
    (∃ e k, byPriority (s.sourceOverflow i) op limits s.huf.aux.free = (.error e, k) ∧
      hufCommand s i op limits write = .next { s with huf := s.huf.failed e k }) ∨
    (∃ a k, byPriority (s.sourceOverflow i) op limits s.huf.aux.free = (.ok a, k) ∧
      hufCommand s i op limits write = .next { s with
        huf := (write s.huf a).ended (statusDone (emptyFlag (write s.huf a).symLen)) k }) := by
  rcases h : byPriority (s.sourceOverflow i) op limits s.huf.aux.free with ⟨e | a, k⟩
  · exact .inl ⟨e, k, rfl, hufCommand_error s i op limits write e k h⟩
  · exact .inr ⟨a, k, rfl, hufCommand_ok s i op limits write a k h⟩

/-- A command of LZW that ends with an error changes the report only. -/
theorem lzwCommand_error (s : State) (i : Instr) (op : Nat → Except Report α × Nat)
    (limits : α → List Limit) (write : LzwUnit → α → LzwUnit) (e : Report) (k : Nat)
    (h : byPriority (s.sourceOverflow i) op limits s.lzw.aux.free = (.error e, k)) :
    lzwCommand s i op limits write = .next { s with lzw := s.lzw.failed e k } := by
  unfold lzwCommand
  rw [h]
  rfl

/-- A command of LZW that ends without error writes its destinations and `STATUS`. -/
theorem lzwCommand_ok (s : State) (i : Instr) (op : Nat → Except Report α × Nat)
    (limits : α → List Limit) (write : LzwUnit → α → LzwUnit) (a : α) (k : Nat)
    (h : byPriority (s.sourceOverflow i) op limits s.lzw.aux.free = (.ok a, k)) :
    lzwCommand s i op limits write = .next { s with
        lzw := (write s.lzw a).ended (statusDone (emptyFlag (write s.lzw a).symLen)) k } := by
  unfold lzwCommand
  rw [h]
  rfl

/-- Everything a command of LZW can do: it answers a next state in which only LZW may differ. -/
theorem lzwCommand_cases (s : State) (i : Instr) (op : Nat → Except Report α × Nat)
    (limits : α → List Limit) (write : LzwUnit → α → LzwUnit) :
    (∃ e k, byPriority (s.sourceOverflow i) op limits s.lzw.aux.free = (.error e, k) ∧
      lzwCommand s i op limits write = .next { s with lzw := s.lzw.failed e k }) ∨
    (∃ a k, byPriority (s.sourceOverflow i) op limits s.lzw.aux.free = (.ok a, k) ∧
      lzwCommand s i op limits write = .next { s with
        lzw := (write s.lzw a).ended (statusDone (emptyFlag (write s.lzw a).symLen)) k }) := by
  rcases h : byPriority (s.sourceOverflow i) op limits s.lzw.aux.free with ⟨e | a, k⟩
  · exact .inl ⟨e, k, rfl, lzwCommand_error s i op limits write e k h⟩
  · exact .inr ⟨a, k, rfl, lzwCommand_ok s i op limits write a k h⟩

end Sys2Proof.Machine
end

