-- ==== Sys2Proof/Laws/Container.lean ====
section
/-! SUPPORT. Numbers and containers: a number reads back, the lengths of the serializations. -/

namespace Sys2Proof.Machine

/-! ### Numbers (00_scope.md section 5) -/

@[simp] theorem u32be_length (w : Word) : (u32be w).length = 4 := rfl

@[simp] theorem u32beNat_length (n : Nat) : (u32beNat n).length = 4 := rfl

/-- `rd32` reads back what `u32be` wrote. -/
theorem rd32_u32be (w : Word) :
    rd32 (w.extractLsb' 24 8) (w.extractLsb' 16 8) (w.extractLsb' 8 8) (w.extractLsb' 0 8) = w := by
  apply BitVec.eq_of_toNat_eq
  have h := w.isLt
  simp only [rd32, BitVec.toNat_ofNat, BitVec.extractLsb'_toNat, Nat.shiftRight_eq_div_pow]
  omega

/-- `get32` at the place of a number. -/
@[simp] theorem get32_u32be (p : Nat) (w : Word) (B : List Byte) :
    get32 p (u32be w ++ B) = .ok (w, B) := by
  simp only [u32be, List.cons_append, List.nil_append, get32, rd32_u32be]

/-- `get32` with fewer than four bytes left. -/
theorem get32_short (p : Nat) (B : List Byte) (h : B.length < 4) :
    get32 p B = .error (malformed p) := by
  match B, h with
  | [], _ => rfl
  | [_], _ => rfl
  | [_, _], _ => rfl
  | [_, _, _], _ => rfl

theorem rd32_toNat (b0 b1 b2 b3 : Byte) : (rd32 b0 b1 b2 b3).toNat =
    b0.toNat * 16777216 + b1.toNat * 65536 + b2.toNat * 256 + b3.toNat := by
  have h0 := b0.isLt
  have h1 := b1.isLt
  have h2 := b2.isLt
  have h3 := b3.isLt
  rw [rd32, BitVec.toNat_ofNat, Nat.mod_eq_of_lt]
  · norm_num
  · norm_num at *
    omega

/-- A byte of a word is a digit of its value. -/
theorem extract_byte {w : Word} {b : Byte} (q s : Nat) (hq : q = 2 ^ s)
    (h : w.toNat / q % 256 = b.toNat) : w.extractLsb' s 8 = b := by
  apply BitVec.eq_of_toNat_eq
  rw [BitVec.extractLsb'_toNat, Nat.shiftRight_eq_div_pow, ← hq, ← h]

/-- `u32be` writes back what `rd32` read. -/
theorem u32be_rd32 (b0 b1 b2 b3 : Byte) : u32be (rd32 b0 b1 b2 b3) = [b0, b1, b2, b3] := by
  have h0 := b0.isLt
  have h1 := b1.isLt
  have h2 := b2.isLt
  have h3 := b3.isLt
  have hr := rd32_toNat b0 b1 b2 b3
  simp only [u32be, List.cons.injEq, and_true]
  refine ⟨extract_byte 16777216 _ (by norm_num) ?_, extract_byte 65536 _ (by norm_num) ?_,
    extract_byte 256 _ (by norm_num) ?_, extract_byte 1 _ (by norm_num) ?_⟩ <;>
    rw [hr] <;> norm_num at * <;> omega

/-- Where a number is read, four bytes stand that are its `u32be`. -/
theorem get32_ok {p : Nat} {B rest : List Byte} {w : Word} (h : get32 p B = .ok (w, rest)) :
    B = u32be w ++ rest := by
  match B, h with
  | b0 :: b1 :: b2 :: b3 :: r, h =>
    simp only [get32, Except.ok.injEq, Prod.mk.injEq] at h
    obtain ⟨rfl, rfl⟩ := h
    simp [u32be_rd32]
  | [], h => cases h
  | [_], h => cases h
  | [_, _], h => cases h
  | [_, _, _], h => cases h

/-! ### Lengths of the containers (30_encoding.md R100 to R102) -/

@[simp] theorem pairBytes_length (r : SymCount) : (pairBytes r).length = 8 := rfl

theorem flatMap_length_const {α β : Type} (f : α → List β) (n : Nat) (xs : List α)
    (h : ∀ x, (f x).length = n) : (xs.flatMap f).length = n * xs.length := by
  induction xs with
  | nil => simp
  | cons x xs ih => simp [ih, h, Nat.mul_succ, Nat.add_comm]

/-- `8 + 8n` bytes (30_encoding.md R100). -/
@[simp] theorem serHcr1_length (R : List SymCount) : (serHcr1 R).length = 8 + 8 * R.length := by
  simp [serHcr1, tagHcr1, flatMap_length_const pairBytes 8 R pairBytes_length]
  omega

/-- `16 + 8n + m` bytes (30_encoding.md R101). -/
@[simp] theorem serHch1_length (h : HufContainer) :
    (serHch1 h).length = 16 + 8 * h.freq.length + h.packed.length := by
  simp [serHch1, tagHch1, flatMap_length_const pairBytes 8 h.freq pairBytes_length]
  omega

/-- `8 + 4n` bytes (30_encoding.md R102). -/
@[simp] theorem serHcl1_length (K : List Word) : (serHcl1 K).length = 8 + 4 * K.length := by
  simp [serHcl1, tagHcl1, flatMap_length_const u32be 4 K u32be_length]
  omega

/-! ### Bytes of the bit-packer (41_huffman.md R169, R170) -/

@[simp] theorem byteBits_length (b : Byte) : (byteBits b).length = 8 := rfl

end Sys2Proof.Machine
end

