-- ==== Sys2Proof/Laws/Invariant.lean ====
section
/-! SUPPORT. Parts of the invariant of Safety.lean: the control registers after each event of a command's
life, a unit with nothing in it, the capacities. -/

namespace Sys2Proof.Machine

theorem Ctrl.reset_inv (u : UnitId) : Ctrl.reset.Inv u where
  phase := .inl rfl
  idle := fun _ => rfl
  noError := fun _ => rfl
  error := fun h => by simp [Ctrl.reset, statusError] at h
  info := fun _ => rfl
  doneLegal := fun h => by simp [Ctrl.reset, statusDone] at h
  illegal := fun h => by simp [Ctrl.reset, statusError] at h

/-- After acceptance (10_state.md R35), whatever the word. -/
theorem Ctrl.accept_inv (u : UnitId) (w : Word) : (Ctrl.accept w).Inv u where
  phase := .inr (.inl rfl)
  idle := fun h => by simp [Ctrl.accept, statusBusy, statusIdle] at h
  noError := fun _ => rfl
  error := fun h => by simp [Ctrl.accept, statusBusy, statusError] at h
  info := fun _ => rfl
  doneLegal := fun h => by simp [Ctrl.accept, statusBusy, statusDone] at h
  illegal := fun h => by simp [Ctrl.accept, statusBusy, statusError] at h

@[simp] theorem Ctrl.reset_busy : Ctrl.reset.busy = false := by decide

/-- A unit in the reset state (10_state.md R40). -/
theorem RleUnit.reset_inv (c : Config) (a : Aux) : (RleUnit.reset a).Inv c where
  ctrl := Ctrl.reset_inv _
  sym := Memory.nil_inv _
  run := Memory.nil_inv _
  txt := Memory.nil_inv _
  byt := Memory.nil_inv _
  scratch := by simp [RleUnit.reset]

theorem HufUnit.reset_inv (c : Config) (a : Aux) : (HufUnit.reset a).Inv c where
  ctrl := Ctrl.reset_inv _
  sym := Memory.nil_inv _
  bit := Memory.nil_inv _
  tab := Memory.nil_inv _
  byt := Memory.nil_inv _
  codes := by simp [HufUnit.reset]
  scratch := by simp [HufUnit.reset]

theorem LzwUnit.reset_inv (c : Config) (a : Aux) : (LzwUnit.reset a).Inv c where
  ctrl := Ctrl.reset_inv _
  sym := Memory.nil_inv _
  cod := Memory.nil_inv _
  byt := Memory.nil_inv _
  scratch := by simp [LzwUnit.reset]

/-- Every capacity is below `2^32` (00_scope.md R9), so that every length fits a length register. -/
theorem Config.cap_lt {c : Config} (h : c.wellFormed = true) (b : Buf) : c.cap b < 2 ^ 32 := by
  simp only [Config.wellFormed, Bool.and_eq_true, decide_eq_true_eq] at h
  cases b <;> simp only [Config.cap] <;> omega

/-- The other end: every capacity is at least 1. -/
theorem Config.cap_pos {c : Config} (h : c.wellFormed = true) (b : Buf) : 1 ≤ c.cap b := by
  simp only [Config.wellFormed, Bool.and_eq_true, decide_eq_true_eq] at h
  cases b <;> simp only [Config.cap] <;> omega

/-- A length within a capacity is what its register holds. -/
theorem toNat_ofNat_of_le_cap {c : Config} (h : c.wellFormed = true) (b : Buf) {n : Nat}
    (hn : n ≤ c.cap b) : (BitVec.ofNat 32 n).toNat = n := by
  have := Config.cap_lt h b
  rw [BitVec.toNat_ofNat]
  exact Nat.mod_eq_of_lt (by omega)

end Sys2Proof.Machine
end

