-- ==== Sys2Proof/Laws/PerInstr.lean ====
section
/-! SUPPORT. What holds of every command as syntax, one lemma per constructor of `Instr`. -/

namespace Sys2Proof.Laws

/-- The fields of a command's word: `zero` is 0, `unit` names the unit that owns the command, `func` names
the command within that unit, bit 0 of it tells a decoder from an encoder; so the word, written to `CMD` of
that unit, decodes to the command (30_encoding.md R91 to R93). -/
def EncodedFields.Statement (i : Instr) : Prop :=
  zeroField (encode i) = 0 ∧
  unitOfNumber (unitField (encode i)).toNat = some i.unit ∧
  instrOfFunc i.unit (funcField (encode i)).toNat = some i ∧
  (funcField (encode i)).getLsbD 0 = i.isDecoder ∧
  decode i.unit (encode i) = .ok i ∧
  decodeTableWord 32 (encode i).toNat = some i

namespace EncodedFields

theorem rleEnc : Statement .rleEnc := by unfold Statement; decide
theorem rleDec : Statement .rleDec := by unfold Statement; decide
theorem rleEncb : Statement .rleEncb := by unfold Statement; decide
theorem rleDecb : Statement .rleDecb := by unfold Statement; decide
theorem rleEncs : Statement .rleEncs := by unfold Statement; decide
theorem rleDecs : Statement .rleDecs := by unfold Statement; decide
theorem hufEnc : Statement .hufEnc := by unfold Statement; decide
theorem hufDec : Statement .hufDec := by unfold Statement; decide
theorem hufEncb : Statement .hufEncb := by unfold Statement; decide
theorem hufDecb : Statement .hufDecb := by unfold Statement; decide
theorem lzwEnc : Statement .lzwEnc := by unfold Statement; decide
theorem lzwDec : Statement .lzwDec := by unfold Statement; decide
theorem lzwEncb : Statement .lzwEncb := by unfold Statement; decide
theorem lzwDecb : Statement .lzwDecb := by unfold Statement; decide

end EncodedFields
end Sys2Proof.Laws
end

