-- ==== Sys2Proof/Laws/Step.lean ====
section
/-! SUPPORT. The host port, the completion step and the step of the machine: for each, once, everything it
can do. -/

namespace Sys2Proof.Machine

/-! ### The host port (20_memory.md R64 to R69) -/

/-- `RegRead` (R69): a length register of a busy unit, or any other register. -/
theorem State.regRead_cases (s : State) (u : UnitId) (n : Nat) :
    (s.busy u = true ∧ isLengthReg u n = true ∧
      s.regRead u n = s.answerFree u (fun k => .word (Config.freeWord u k))) ∨
    ((s.busy u = false ∨ isLengthReg u n = false) ∧
      s.regRead u n = s.answer u (.word (s.reg u n))) := by
  unfold State.regRead
  cases hb : s.busy u <;> cases hn : isLengthReg u n <;> simp

/-- `RegWrite` (R69; 10_state.md R23, R35, R39): lost, an acceptance, or a length register. -/
theorem State.regWrite_cases (s : State) (u : UnitId) (n : Nat) (v : Word) :
    (s.busy u = true ∧ s.regWrite u n v = s) ∨
    (s.busy u = false ∧ n = 0 ∧ s.regWrite u n v = s.accept u v) ∨
    (s.busy u = false ∧ n ≠ 0 ∧ s.regWrite u n v = s.setLen u n v) := by
  unfold State.regWrite
  cases hb : s.busy u
  · by_cases hn : n = 0
    · exact .inr (.inl ⟨rfl, hn, by simp [hn]⟩)
    · exact .inr (.inr ⟨rfl, hn, by simp [hn]⟩)
  · exact .inl ⟨rfl, by simp⟩

/-- `BufRead` (R64, R69): the element as written, or the next free value. -/
theorem State.bufRead_cases (s : State) (b : Buf) (i : Nat) :
    (s.busy b.unit = false ∧ i < s.cfg.cap b ∧ ∃ v, s.peek b i = some v ∧
      s.bufRead b i = s.answer b.unit (.elem v)) ∨
    ((s.busy b.unit = true ∨ s.cfg.cap b ≤ i ∨ s.peek b i = none) ∧
      s.bufRead b i = s.answerFree b.unit (fun k => .elem (freeElem s.cfg b k))) := by
  unfold State.bufRead
  cases hb : s.busy b.unit
  · by_cases hi : s.cfg.cap b ≤ i
    · exact .inr ⟨.inr (.inl hi), by simp [hi]⟩
    · rcases hp : s.peek b i with _ | v
      · exact .inr ⟨.inr (.inr rfl), by simp [hi]⟩
      · exact .inl ⟨rfl, by omega, v, rfl, by simp [hi]⟩
  · exact .inr ⟨.inl rfl, by simp⟩

/-- `BufWrite` (R64, R69): lost, or one element. -/
theorem State.bufWrite_cases (s : State) (b : Buf) (i : Nat) (v : Elem) :
    ((s.busy b.unit = true ∨ s.cfg.cap b ≤ i) ∧ s.bufWrite b i v = s) ∨
    (s.busy b.unit = false ∧ i < s.cfg.cap b ∧ s.bufWrite b i v = s.poke b i v) := by
  unfold State.bufWrite
  cases hb : s.busy b.unit
  · by_cases hi : s.cfg.cap b ≤ i
    · exact .inl ⟨.inr hi, by simp [hi]⟩
    · exact .inr ⟨rfl, by omega, by simp [hi]⟩
  · exact .inl ⟨.inl rfl, by simp⟩

/-- A free element is a value of its buffer's type; a free code is within `CAP_CLEN` (log 17). -/
theorem freeElem_fits (c : Config) (b : Buf) (k : Nat) : (freeElem c b k).fits c b = true := by
  cases b <;> simp [freeElem, Elem.fits, Entry.wellFormed, freeEntry, List.length_take]

/-! ### Storing one element -/

@[simp] theorem State.poke_cfg (s : State) (b : Buf) (i : Nat) (v : Elem) :
    (s.poke b i v).cfg = s.cfg := by cases b <;> cases v <;> rfl

@[simp] theorem State.poke_agenda (s : State) (b : Buf) (i : Nat) (v : Elem) :
    (s.poke b i v).agenda = s.agenda := by cases b <;> cases v <;> rfl

@[simp] theorem State.poke_len (s : State) (b : Buf) (i : Nat) (v : Elem) (c : Buf) :
    (s.poke b i v).len c = s.len c := by cases b <;> cases v <;> cases c <;> rfl

@[simp] theorem State.poke_ctrl (s : State) (b : Buf) (i : Nat) (v : Elem) (u : UnitId) :
    (s.poke b i v).ctrl u = s.ctrl u := by cases b <;> cases v <;> cases u <;> rfl

@[simp] theorem State.poke_aux (s : State) (b : Buf) (i : Nat) (v : Elem) (u : UnitId) :
    (s.poke b i v).aux u = s.aux u := by cases b <;> cases v <;> cases u <;> rfl

@[simp] theorem State.poke_hasScratch (s : State) (b : Buf) (i : Nat) (v : Elem) (u : UnitId) :
    (s.poke b i v).hasScratch u = s.hasScratch u := by
  cases b <;> cases v <;> cases u <;> rfl

/-- No other buffer changes. -/
theorem State.poke_peek_other (s : State) (b c : Buf) (i j : Nat) (v : Elem) (h : c ≠ b) :
    (s.poke b i v).peek c j = s.peek c j := by
  cases b <;> cases c <;> first | exact absurd rfl h | (cases v <;> rfl)

/-! ### Writing one length register -/

@[simp] theorem State.setLen_cfg (s : State) (u : UnitId) (n : Nat) (v : Word) :
    (s.setLen u n v).cfg = s.cfg := by cases u <;> rfl

@[simp] theorem State.setLen_agenda (s : State) (u : UnitId) (n : Nat) (v : Word) :
    (s.setLen u n v).agenda = s.agenda := by cases u <;> rfl

/-- No control register, no scratch, no element and nothing of the model's own changes. -/
theorem State.setLen_frame (s : State) (u : UnitId) (n : Nat) (v : Word) (w : UnitId) :
    (s.setLen u n v).ctrl w = s.ctrl w ∧ (s.setLen u n v).aux w = s.aux w ∧
      (s.setLen u n v).hasScratch w = s.hasScratch w ∧
      ∀ b i, (s.setLen u n v).peek b i = s.peek b i := by
  refine ⟨?_, ?_, ?_, fun b i => ?_⟩ <;> cases u <;>
    simp only [State.setLen, RleUnit.setLen, HufUnit.setLen, LzwUnit.setLen] <;> split <;>
    rfl

/-! ### Completion and the step -/

/-- The completion step: the command in `CMD`, or `IllegalCommand` (60_exceptions.md R250). -/
theorem State.completeUnit_cases (s : State) (u : UnitId) :
    (∃ i, decode u (s.ctrl u).cmd = .ok i ∧ s.completeUnit u = exec i s) ∨
    (∃ r, decode u (s.ctrl u).cmd = .error r ∧ s.completeUnit u = .next (s.raise u illegal)) := by
  unfold State.completeUnit
  rcases decode u (s.ctrl u).cmd with r | i
  · exact .inr ⟨r, rfl, rfl⟩
  · exact .inl ⟨i, rfl, rfl⟩

theorem step_nil {s : State} (h : s.agenda = []) : step s = s.quiesce := by
  unfold step; rw [h]

theorem step_cons {s : State} {e : Event} {rest : List Event} (h : s.agenda = e :: rest) :
    step s = { s with agenda := rest }.handle e := by
  unfold step; rw [h]

/-- Everything a step can do. -/
theorem step_cases (s : State) :
    (s.agenda = [] ∧ s.firstBusy = none ∧ step s = .next s) ∨
    (∃ u, s.agenda = [] ∧ s.firstBusy = some u ∧ step s = s.completeUnit u) ∨
    (∃ op rest, s.agenda = .port op :: rest ∧ step s = { s with agenda := rest }.port op) ∨
    (∃ u rest, s.agenda = .complete u :: rest ∧ s.busy u = true ∧
      step s = { s with agenda := rest }.completeUnit u) ∨
    (∃ u rest, s.agenda = .complete u :: rest ∧ s.busy u = false ∧
      step s = .next { s with agenda := rest }) ∨
    (∃ rest, s.agenda = .reset :: rest ∧
      step s = .next { s with agenda := rest }.resetInput) := by
  rcases ha : s.agenda with _ | ⟨e, rest⟩
  · rcases hf : s.firstBusy with _ | u
    · exact .inl ⟨rfl, rfl, by rw [step_nil ha, State.quiesce, hf]⟩
    · exact .inr (.inl ⟨u, rfl, rfl, by rw [step_nil ha, State.quiesce, hf]⟩)
  · cases e with
    | port op => exact .inr (.inr (.inl ⟨op, rest, rfl, step_cons ha⟩))
    | complete u =>
      have hbusy : ({ s with agenda := rest } : State).busy u = s.busy u := by cases u <;> rfl
      cases hb : s.busy u
      · refine .inr (.inr (.inr (.inr (.inl ⟨u, rest, rfl, hb, ?_⟩))))
        simp [step_cons ha, State.handle, hbusy, hb]
      · refine .inr (.inr (.inr (.inl ⟨u, rest, rfl, hb, ?_⟩)))
        simp [step_cons ha, State.handle, hbusy, hb]
    | reset => exact .inr (.inr (.inr (.inr (.inr ⟨rest, rfl, step_cons ha⟩))))

/-- The first busy unit is busy. -/
theorem State.firstBusy_busy {s : State} {u : UnitId} (h : s.firstBusy = some u) :
    s.busy u = true := by
  unfold State.firstBusy at h
  split at h
  · next hb => cases h; exact hb
  · split at h
    · next hb => cases h; exact hb
    · split at h
      · next hb => cases h; exact hb
      · cases h

end Sys2Proof.Machine
end

