-- ==== Sys2Proof/Machine/Script.lean ====
section
/-! DEFINITION. Host scripts (30_encoding.md R106): what port operations each line of the notation issues at
the state where it is reached, and what an `EXPECT` line asks of it. -/

namespace Sys2Proof.Machine

/-- The register number of a buffer's length register (10_state.md R23). -/
def lengthReg : Buf → Nat
  | .rleSym => 4
  | .rleRun => 5
  | .rleByt => 6
  | .rleTxt => 7
  | .hufSym => 4
  | .hufBit => 5
  | .hufTab => 6
  | .hufByt => 7
  | .lzwSym => 4
  | .lzwCod => 5
  | .lzwByt => 6

/-- The lines of a host script (30_encoding.md R106). -/
inductive Line where
  | load (b : Buf) (es : List Elem)
  | len (b : Buf) (n : Word)
  | cmd (i : Instr)
  | raw (u : UnitId) (w : Word)
  | wait (u : UnitId)
  | copy (src dst : Buf)
  | expectReg (u : UnitId) (n : Nat) (v : Word)
  | expectBuf (b : Buf) (es : List Elem)
  deriving DecidableEq, Repr

/-- `BufWrite(b, i, e)` for the elements from index `i` on. -/
def writesFrom (b : Buf) (i : Nat) : List Elem → List Event
  | [] => []
  | e :: es => .port (.bufWrite b i e) :: writesFrom b (i + 1) es

/-- The length a `COPY` finds, what the port answers to the read of the length register: a free word while
the unit is busy (20_memory.md R69, U3). DESIGN CHOICE (log 20): `u.X_LEN` of the line is read once, before
the elements. -/
def State.copiedLen (s : State) (b : Buf) : Word :=
  if s.busy b.unit then Config.freeWord b.unit (s.aux b.unit).free else s.len b

/-- The elements a `COPY` reads: element by element what the port answers to the reads of `readsOf`, a free
value where nothing was written since reset (U1), at or above the capacity (U2), and everywhere while the
unit is busy (20_memory.md R69, U3; log 20). -/
def State.copied (s : State) (b : Buf) : List Elem :=
  let found := (List.range (s.copiedLen b).toNat).map
    (fun i => if s.busy b.unit || decide (s.cfg.cap b ≤ i) then none else s.peek b i)
  let drawn := if s.busy b.unit then (s.aux b.unit).free + 1 else (s.aux b.unit).free
  (resolve (freeElem s.cfg b) drawn found).1

/-- The reads of a `COPY`: the length register, then the elements. -/
def readsOf (b : Buf) (n : Nat) : List Event :=
  .port (.regRead b.unit (lengthReg b)) :: (List.range n).map (fun i => .port (.bufRead b i))

/-- The events a line issues. A `WAIT` lasts until the unit has completed and ends with the read of
`STATUS` that shows it (70_reset_and_hazards.md R289, R293; log 18). -/
def Line.events (s : State) : Line → List Event
  | .load b es =>
    writesFrom b 0 es ++ [.port (.regWrite b.unit (lengthReg b) (BitVec.ofNat 32 es.length))]
  | .len b n => [.port (.regWrite b.unit (lengthReg b) n)]
  | .cmd i => [.port (.regWrite i.unit 0 (encode i))]
  | .raw u w => [.port (.regWrite u 0 w)]
  | .wait u => [.complete u, .port (.regRead u 1)]
  | .copy src dst =>
    readsOf src (s.copiedLen src).toNat ++ writesFrom dst 0 (s.copied src)
      ++ [.port (.regWrite dst.unit (lengthReg dst) (s.copiedLen src))]
  | .expectReg _ _ _ => []
  | .expectBuf _ _ => []

/-- What an `EXPECT` line asks: that the rules say a read returns this register value, or this content of the
buffer. DESIGN CHOICE (log 20): where the rules leave the read open (a length register or a buffer of a busy
unit, U3; an element never written since reset, U1; an index at or above the capacity, U2) no expectation is
met. Every other line asks nothing. -/
def Line.holds (s : State) : Line → Bool
  | .expectReg u n v => !(s.busy u && isLengthReg u n) && decide (s.reg u n = v)
  | .expectBuf b es =>
    !s.busy b.unit && decide ((s.len b).toNat ≤ s.cfg.cap b) &&
      decide ((List.range (s.len b).toNat).map (s.peek b) = es.map some)
  | .load _ _ => true
  | .len _ _ => true
  | .cmd _ => true
  | .raw _ _ => true
  | .wait _ => true
  | .copy _ _ => true

/-- Run one line: its events, then its expectation; `none` when an expectation fails or the machine
stops. -/
def State.runLine (s : State) (l : Line) : Option State :=
  let es := l.events s
  match Host.Core.run ⟨State, Fault, Refusal, step, State.reset⟩ es.length { s with agenda := es } with
  | .next t => if l.holds t then some t else none
  | .fault _ => none
  | .refused _ => none

/-- Run a script. -/
def State.runScript (s : State) : List Line → Option State
  | [] => some s
  | l :: ls =>
    match s.runLine l with
    | some t => t.runScript ls
    | none => none

end Sys2Proof.Machine
end

