-- ==== Sys2Proof/Tests/Slice0.lean ====
section
/-! SUPPORT. Tests: command words written out from the spec's encoding, ill-formed terms that the checks
refuse, commands on the spec's test vectors, and for every statement with hypotheses a state that meets
them. -/

namespace Sys2Proof.Tests

open Sys2Proof.Machine

-- One kernel check at a time: each takes a thread of its own.
set_option Elab.async false

/-! ### Helpers -/

def syms (l : List Nat) : List Sym := l.map (BitVec.ofNat 32)

def bytes (l : List Nat) : List Byte := l.map (BitVec.ofNat 8)

def bits (l : List Nat) : Bits := l.map (fun n => n == 1)

/-- An idle machine with nothing loaded. -/
def idle (c : Config) : State := { State.reset with cfg := c }

def rle (c : Config) (f : RleUnit → RleUnit) : State := { idle c with rle := f (idle c).rle }

def huf (c : Config) (f : HufUnit → HufUnit) : State := { idle c with huf := f (idle c).huf }

def lzw (c : Config) (f : LzwUnit → LzwUnit) : State := { idle c with lzw := f (idle c).lzw }

/-- What is read of the state that an outcome is, if it is one. -/
def after {α : Type} (o : Host.Outcome State Fault Refusal) (f : State → α) : Option α :=
  match o with
  | .next t => some (f t)
  | .fault _ => none
  | .refused _ => none

theorem next_of_after {o : Host.Outcome State Fault Refusal} {p : State → Bool}
    (h : after o p = some true) : ∃ t, o = .next t ∧ p t = true := by
  cases o with
  | next t => exact ⟨t, rfl, by simpa [after] using h⟩
  | fault r => cases h
  | refused r => cases h

/-! ### Decoding: the opcode map of 30_encoding.md R92, bit by bit: `zero`, `unit`, `func` -/

theorem test_decode_rleEnc : decode .rle (0#24 ++ 0b0001#4 ++ 0b0000#4) = .ok .rleEnc := by decide
theorem test_decode_rleDec : decode .rle (0#24 ++ 0b0001#4 ++ 0b0001#4) = .ok .rleDec := by decide
theorem test_decode_rleEncb : decode .rle (0#24 ++ 0b0001#4 ++ 0b0010#4) = .ok .rleEncb := by decide
theorem test_decode_rleDecb : decode .rle (0#24 ++ 0b0001#4 ++ 0b0011#4) = .ok .rleDecb := by decide
theorem test_decode_rleEncs : decode .rle (0#24 ++ 0b0001#4 ++ 0b0100#4) = .ok .rleEncs := by decide
theorem test_decode_rleDecs : decode .rle (0#24 ++ 0b0001#4 ++ 0b0101#4) = .ok .rleDecs := by decide
theorem test_decode_hufEnc : decode .huf (0#24 ++ 0b0010#4 ++ 0b0000#4) = .ok .hufEnc := by decide
theorem test_decode_hufDec : decode .huf (0#24 ++ 0b0010#4 ++ 0b0001#4) = .ok .hufDec := by decide
theorem test_decode_hufEncb : decode .huf (0#24 ++ 0b0010#4 ++ 0b0010#4) = .ok .hufEncb := by decide
theorem test_decode_hufDecb : decode .huf (0#24 ++ 0b0010#4 ++ 0b0011#4) = .ok .hufDecb := by decide
theorem test_decode_lzwEnc : decode .lzw (0#24 ++ 0b0011#4 ++ 0b0000#4) = .ok .lzwEnc := by decide
theorem test_decode_lzwDec : decode .lzw (0#24 ++ 0b0011#4 ++ 0b0001#4) = .ok .lzwDec := by decide
theorem test_decode_lzwEncb : decode .lzw (0#24 ++ 0b0011#4 ++ 0b0010#4) = .ok .lzwEncb := by decide
theorem test_decode_lzwDecb : decode .lzw (0#24 ++ 0b0011#4 ++ 0b0011#4) = .ok .lzwDecb := by decide

/-- 95_test_vectors.md section 7, V-I1 to V-I6. -/
theorem test_decode_illegal_rle :
    decode .rle 0x00000000 = .error .noUnit ∧ decode .rle 0x00000016 = .error .noFunc ∧
    decode .rle 0x0000001F = .error .noFunc ∧ decode .rle 0x00000020 = .error .otherUnit ∧
    decode .rle 0x00000110 = .error .zeroField ∧ decode .rle 0x80000010 = .error .zeroField := by
  decide

/-- V-I7 to V-I13. -/
theorem test_decode_illegal_huf_lzw :
    decode .huf 0x00000024 = .error .noFunc ∧ decode .huf 0x00000025 = .error .noFunc ∧
    decode .huf 0x00000010 = .error .otherUnit ∧ decode .lzw 0x00000034 = .error .noFunc ∧
    decode .lzw 0x00000003 = .error .noUnit ∧ decode .lzw 0x00000040 = .error .noUnit ∧
    decode .lzw 0xFFFFFFFF = .error .zeroField := by
  decide

/-- spec/opcode_table.json, the first and the last row. -/
theorem test_decodeTableWord :
    decodeTableWord 32 0x10 = some .rleEnc ∧ decodeTableWord 32 0x33 = some .lzwDecb ∧
    decodeTableWord 32 0x34 = none := by
  decide

/-! ### Well-formedness: an ill-formed term for each check -/

theorem test_wf_config : Config.refcfg.wellFormed = true ∧ Config.small.wellFormed = true := by
  decide

theorem test_wf_refuses_capSym :
    ({ Config.small with capSym := 0 } : Config).wellFormed = false ∧
    ({ Config.small with capSym := 2 ^ 32 - 256 } : Config).wellFormed = false ∧
    ({ Config.small with capSym := 2 ^ 32 - 257 } : Config).wellFormed = true := by decide

theorem test_wf_refuses_capRun :
    ({ Config.small with capRun := 0 } : Config).wellFormed = false ∧
    ({ Config.small with capRun := 2 ^ 32 } : Config).wellFormed = false := by decide

theorem test_wf_refuses_capTxt :
    ({ Config.small with capTxt := 0 } : Config).wellFormed = false ∧
    ({ Config.small with capTxt := 2 ^ 32 } : Config).wellFormed = false := by decide

theorem test_wf_refuses_capBit :
    ({ Config.small with capBit := 0 } : Config).wellFormed = false ∧
    ({ Config.small with capBit := 2 ^ 32 } : Config).wellFormed = false := by decide

theorem test_wf_refuses_capTab :
    ({ Config.small with capTab := 0 } : Config).wellFormed = false ∧
    ({ Config.small with capTab := 2 ^ 32 } : Config).wellFormed = false := by decide

theorem test_wf_refuses_capClen :
    ({ Config.small with capClen := 0 } : Config).wellFormed = false ∧
    ({ Config.small with capClen := 2 ^ 32 } : Config).wellFormed = false := by decide

theorem test_wf_refuses_capCod :
    ({ Config.small with capCod := 0 } : Config).wellFormed = false ∧
    ({ Config.small with capCod := 2 ^ 32 } : Config).wellFormed = false := by decide

theorem test_wf_refuses_capByt :
    ({ Config.small with capByt := 0 } : Config).wellFormed = false ∧
    ({ Config.small with capByt := 2 ^ 32 } : Config).wellFormed = false := by decide

/-- A command for another unit. -/
theorem test_wf_refuses_unit :
    Instr.wellFormedFor .rle .rleEncs = true ∧ Instr.wellFormedFor .huf .rleEncs = false := by decide

/-- A code of more than `CAP_CLEN` bits (2 in the small configuration). -/
theorem test_wf_refuses_code :
    Entry.wellFormed .small ⟨65, bits [1, 0]⟩ = true ∧
    Entry.wellFormed .small ⟨65, bits [1, 0, 1]⟩ = false := by decide

/-- A value of another type than the buffer's. -/
theorem test_wf_refuses_element :
    Elem.fits .small .rleSym (.sym 1) = true ∧ Elem.fits .small .rleSym (.byte 1) = false ∧
    Elem.fits .small .rleRun (.sym 1) = false ∧ Elem.fits .small .lzwCod (.sym 1) = false ∧
    Elem.fits .small .hufBit (.byte 1) = false ∧
    Elem.fits .small .hufTab (.entry ⟨65, bits [1, 0, 1]⟩) = false := by decide

/-! ### Commands on the vectors of 95_test_vectors.md -/

/-- V-RLE1. -/
theorem test_rleEnc :
    after (exec .rleEnc (rle .refcfg (·.writeSym (syms [1, 1, 1, 2, 2, 3, 3, 3, 3]))))
      (fun t => (t.rle.run, t.rle.runLen, t.rle.ctrl.status)) =
    some ([(0, ⟨1, 3⟩), (1, ⟨2, 2⟩), (2, ⟨3, 4⟩)], 3, 0x2) := by decide +kernel

/-- V-K12: the source's own length, whatever the elements. -/
theorem test_rleEnc_source :
    after (exec .rleEnc (rle .small (fun x => { x with symLen := 9 }))) (fun t => t.rle.ctrl) =
    some ⟨0, 0x4, 7, 0⟩ := by decide +kernel

/-- V-RLE12: equal neighbours accepted. -/
theorem test_rleDec :
    after (exec .rleDec (rle .refcfg (·.writeRun [⟨7, 2⟩, ⟨7, 1⟩])))
      (fun t => (t.rle.sym, t.rle.symLen, t.rle.ctrl.status)) =
    some ([(0, 7), (1, 7), (2, 7)], 3, 0x2) := by decide +kernel

/-- V-K3: the sum is not reduced modulo `2^32`. -/
theorem test_rleDec_sum :
    after (exec .rleDec (rle .refcfg (·.writeRun [⟨1, 4294967295⟩, ⟨2, 4294967295⟩])))
      (fun t => (t.rle.ctrl, t.rle.symLen)) = some (⟨0, 0x4, 7, 0⟩, 0) := by decide +kernel

/-- V-K16. -/
theorem test_rleEncb :
    after (exec .rleEncb (rle .small (·.writeSym (syms [1, 1, 2, 2]))))
      (fun t => (t.rle.byt.map Prod.snd, t.rle.bytLen, t.rle.runLen)) =
    some (bytes [0x48, 0x43, 0x52, 0x31, 0, 0, 0, 2, 0, 0, 0, 1, 0, 0, 0, 2, 0, 0, 0, 2, 0, 0, 0, 2],
      24, 0) := by decide +kernel

/-- V-K17: two limits exceeded, the least id. -/
theorem test_rleEncb_least :
    after (exec .rleEncb (rle .small (·.writeSym (syms [1, 2, 3])))) (fun t => t.rle.ctrl) =
    some ⟨0, 0x4, 7, 1⟩ := by decide +kernel

/-- V-RLE3. -/
theorem test_rleDecb :
    after (exec .rleDecb (rle .refcfg (·.writeByt
        (bytes [0x48, 0x43, 0x52, 0x31, 0, 0, 0, 1, 0, 0, 0, 7, 0, 0, 0, 1]))))
      (fun t => (t.rle.sym, t.rle.symLen, t.rle.ctrl.status)) =
    some ([(0, 7)], 1, 0x2) := by decide +kernel

/-- V-RLE28: invalid and truncated, the parse comes first. -/
theorem test_rleDecb_order :
    after (exec .rleDecb (rle .refcfg (·.writeByt
        (bytes [0x48, 0x43, 0x52, 0x31, 0, 0, 0, 2, 0, 0, 0, 1, 0, 0, 0, 0, 0, 0, 0, 2]))))
      (fun t => t.rle.ctrl) = some ⟨0, 0x4, 1, 20⟩ := by decide +kernel

/-- V-T4: a two-digit count. -/
theorem test_rleEncs :
    after (exec .rleEncs (rle .refcfg (·.writeSym (List.replicate 12 97))))
      (fun t => (t.rle.txt.map Prod.snd, t.rle.txtLen, t.rle.ctrl.status)) =
    some (syms [49, 50, 97], 3, 0x2) := by decide +kernel

/-- V-T26: symbols above 255 and the symbol 0 are ordinary. -/
theorem test_rleDecs :
    after (exec .rleDecs (rle .refcfg (·.writeTxt (syms [0x32, 300, 0x31, 0x30, 0]))))
      (fun t => (t.rle.sym.map Prod.snd, t.rle.symLen)) =
    some (syms [300, 300, 0, 0, 0, 0, 0, 0, 0, 0, 0, 0], 12) := by decide +kernel

/-- V-T16: the token began at index 2. -/
theorem test_rleDecs_error :
    after (exec .rleDecs (rle .refcfg (·.writeTxt (syms [0x32, 97, 0x33]))))
      (fun t => (t.rle.ctrl, t.rle.symLen)) = some (⟨0, 0x4, 1, 2⟩, 0) := by decide +kernel

/-- V-H6: the leaf of weight 1 is popped first, then the smaller symbol of weight 2. -/
theorem test_hufEnc :
    after (exec .hufEnc (huf .refcfg (·.writeSym (syms [65, 65, 66, 66, 67]))))
      (fun t => (t.huf.tab.map Prod.snd, t.huf.bit.map Prod.snd)) =
    some ([⟨65, bits [1, 1]⟩, ⟨66, bits [0]⟩, ⟨67, bits [1, 0]⟩], bits [1, 1, 1, 1, 0, 0, 1, 0]) := by
  decide +kernel

/-- V-K26: ids 2, 3 and 7 exceeded, the least is reported. -/
theorem test_hufEnc_least :
    after (exec .hufEnc (huf .small (·.writeSym (syms [1, 1, 1, 1, 2, 2, 3, 4]))))
      (fun t => (t.huf.ctrl, t.huf.bitLen)) = some (⟨0, 0x4, 7, 2⟩, 0) := by decide +kernel

/-- V-D8: the order of the entries is free. -/
theorem test_hufDec :
    after (exec .hufDec (huf .refcfg (fun x => (x.writeBit (bits [1, 1, 0])).writeTab
        [⟨66, bits [1, 1]⟩, ⟨65, bits [0]⟩, ⟨67, bits [1, 0]⟩])))
      (fun t => (t.huf.sym.map Prod.snd, t.huf.symLen)) = some (syms [66, 65], 2) := by
  decide +kernel

/-- V-D18: the table is checked even with no bits. -/
theorem test_hufDec_table :
    after (exec .hufDec (huf .refcfg (·.writeTab
        [⟨65, bits [0]⟩, ⟨66, bits [1]⟩, ⟨67, bits [1, 0]⟩])))
      (fun t => t.huf.ctrl) = some ⟨0, 0x4, 6, 2⟩ := by decide +kernel

/-- V-H3. -/
theorem test_hufEncb :
    after (exec .hufEncb (huf .refcfg (·.writeSym (syms [120, 120, 120]))))
      (fun t => (t.huf.byt.map Prod.snd, t.huf.bytLen, t.huf.bitLen)) =
    some (bytes [0x48, 0x43, 0x48, 0x31, 0, 0, 0, 5, 0, 0, 0, 1, 0, 0, 0, 0x78, 0, 0, 0, 3,
      0, 0, 0, 1, 0], 25, 0) := by decide +kernel

/-- V-C21: the seven stripped bits are not examined. -/
theorem test_hufDecb :
    after (exec .hufDecb (huf .refcfg (·.writeByt (bytes [0x48, 0x43, 0x48, 0x31, 0, 0, 0, 7,
        0, 0, 0, 3, 0, 0, 0, 0x41, 0, 0, 0, 3, 0, 0, 0, 0x42, 0, 0, 0, 2, 0, 0, 0, 0x43, 0, 0, 0, 1,
        0, 0, 0, 2, 0x1F, 0x7F]))))
      (fun t => t.huf.sym.map Prod.snd) = some (syms [65, 65, 65, 66, 66, 67]) := by decide +kernel

/-- V-C17: `padding` 3 with no packed byte. -/
theorem test_hufDecb_padding :
    after (exec .hufDecb (huf .refcfg (·.writeByt (bytes [0x48, 0x43, 0x48, 0x31, 0, 0, 0, 3,
        0, 0, 0, 0, 0, 0, 0, 0]))))
      (fun t => t.huf.ctrl) = some ⟨0, 0x4, 2, 12⟩ := by decide +kernel

/-- V-L1. -/
theorem test_lzwEnc :
    after (exec .lzwEnc (lzw .refcfg (·.writeSym (syms [65, 66, 65, 66, 65, 66, 65, 66]))))
      (fun t => (t.lzw.cod.map Prod.snd, t.lzw.codLen)) = some (syms [65, 66, 256, 258, 66], 5) := by
  decide +kernel

/-- V-L15: nothing is written. -/
theorem test_lzwEnc_range :
    after (exec .lzwEnc (lzw .refcfg (·.writeSym (syms [1, 2, 256, 3]))))
      (fun t => (t.lzw.ctrl, t.lzw.cod)) = some (⟨0, 0x4, 5, 2⟩, []) := by decide +kernel

/-- V-L19: 257 is `next_code` after two codes. -/
theorem test_lzwDec :
    after (exec .lzwDec (lzw .refcfg (·.writeCod (syms [65, 66, 257]))))
      (fun t => (t.lzw.sym.map Prod.snd, t.lzw.symLen)) = some (syms [65, 66, 66, 66], 4) := by
  decide +kernel

/-- V-L25: `next_code` is 257. -/
theorem test_lzwDec_corrupt :
    after (exec .lzwDec (lzw .refcfg (·.writeCod (syms [65, 66, 258]))))
      (fun t => t.lzw.ctrl) = some ⟨0, 0x4, 4, 2⟩ := by decide +kernel

/-- V-L5. -/
theorem test_lzwEncb :
    after (exec .lzwEncb (lzw .refcfg (·.writeSym (syms [65, 65, 65]))))
      (fun t => (t.lzw.byt.map Prod.snd, t.lzw.bytLen, t.lzw.codLen)) =
    some (bytes [0x48, 0x43, 0x4C, 0x31, 0, 0, 0, 2, 0, 0, 0, 0x41, 0, 0, 1, 0], 16, 0) := by
  decide +kernel

/-- V-L6. -/
theorem test_lzwDecb :
    after (exec .lzwDecb (lzw .refcfg (·.writeByt (bytes [0x48, 0x43, 0x4C, 0x31, 0, 0, 0, 3,
        0, 0, 0, 0x41, 0, 0, 1, 0, 0, 0, 0, 0x41]))))
      (fun t => t.lzw.sym.map Prod.snd) = some (syms [65, 65, 65, 65]) := by decide +kernel

/-- V-L34: a byte left over. -/
theorem test_lzwDecb_left_over :
    after (exec .lzwDecb (lzw .refcfg (·.writeByt
        (bytes [0x48, 0x43, 0x4C, 0x31, 0, 0, 0, 0, 0]))))
      (fun t => t.lzw.ctrl) = some ⟨0, 0x4, 1, 8⟩ := by decide +kernel

/-! ### Steps -/

/-- The first command after reset (70_reset_and_hazards.md section 2), run as the very next step. -/
theorem test_first_command :
    after (step (State.reset.withFetchWord 32 0x10)) (fun t => t.rle.ctrl) =
    some ⟨0x10, 0xA, 0, 0⟩ := by decide +kernel

/-- 95_test_vectors.md P5, second outcome row by row: the write of line 3 is lost while the unit is busy. -/
theorem test_busy_write_lost :
    after (Host.Core.run Sys2Proof.core 3 { (rle .refcfg (·.writeSym (syms [100, 100, 100]))) with
        agenda := [.port (.regWrite .rle 0 0x10), .port (.bufWrite .rleSym 0 (.sym 120)),
          .complete .rle] })
      (fun t => (t.rle.run, t.rle.sym.map Prod.snd)) =
    some ([(0, ⟨100, 3⟩)], syms [100, 100, 100]) := by decide +kernel

/-- 30_encoding.md R106: a `COPY` of an idle unit carries its content and its length. -/
theorem test_copy :
    ((rle .small (·.writeSym (syms [7, 7]))).runLine (.copy .rleSym .lzwSym)).map
      (fun t => (t.lzw.sym.map Prod.snd, t.lzw.symLen)) = some (syms [7, 7], 2) := by decide +kernel

/-- 20_memory.md R69, U3: no expectation of a busy unit's length register or buffer is met; one of `STATUS`
is. -/
theorem test_expect_busy :
    let s := (rle .small (·.writeSym (syms [7, 7]))).accept .rle 0x10
    (Line.expectReg .rle 4 2).holds s = false ∧
    (Line.expectBuf .rleSym [.sym 7, .sym 7]).holds s = false ∧
    (Line.expectReg .rle 1 0x1).holds s = true := by decide +kernel

/-! ### What the statements' hypotheses ask for is met

For every statement with hypotheses, a concrete state and operands that meet them all, for every clause; at
the ends of a range where it has ends. The states are built here, no expected result is the model's. -/

/-- Unit RLE busy with the command word `w`, over the small configuration. -/
def busyRle (w : Word) (agenda : List Event) : State :=
  { (idle .small).accept .rle w with agenda := agenda }

/-- The small idle machine with events to come. -/
def waiting (agenda : List Event) : State := { idle .small with agenda := agenda }

theorem waiting_inv (agenda : List Event) : (waiting agenda).Inv where
  cfg := show Config.small.wellFormed = true by decide
  rle := RleUnit.reset_inv _ _
  huf := HufUnit.reset_inv _ _
  lzw := LzwUnit.reset_inv _ _

theorem busyRle_inv (w : Word) (agenda : List Event) : (busyRle w agenda).Inv where
  cfg := show Config.small.wellFormed = true by decide
  rle := ⟨Ctrl.accept_inv _ _, Memory.nil_inv _, Memory.nil_inv _, Memory.nil_inv _, Memory.nil_inv _,
    show some RleScratch.init = if (Ctrl.accept w).busy then some RleScratch.init else none by simp⟩
  huf := HufUnit.reset_inv _ _
  lzw := LzwUnit.reset_inv _ _

/-- ResetState: both cases. -/
theorem test_meets_ResetState :
    (State.reset = State.reset ∨ ∃ s0 : State, State.reset = s0.resetInput) ∧
    ∃ s0 : State, (busyRle 0x10 []).resetInput = s0.resetInput :=
  ⟨.inl rfl, busyRle 0x10 [], rfl⟩

/-- ResetDropsTheCommand: with a command in progress. -/
theorem test_meets_ResetDropsTheCommand :
    (busyRle 0x10 [.reset]).agenda = .reset :: [] ∧ (busyRle 0x10 [.reset]).busy .rle = true := by
  decide

/-- FirstCommandAfterReset: after reset, and with the least capacity it allows. -/
theorem test_meets_FirstCommandAfterReset :
    (State.reset.unitReset .rle ∧ State.reset.unitReset .huf ∧ State.reset.unitReset .lzw ∧
      16 ≤ State.reset.cfg.capByt) ∧
    (idle { Config.small with capByt := 16 }).unitReset .huf ∧
      16 ≤ (idle { Config.small with capByt := 16 }).cfg.capByt :=
  ⟨⟨rfl, rfl, rfl, by decide⟩, rfl, by decide⟩

/-- Acceptance: a legal word, an illegal word, and the completion of the illegal one. -/
theorem test_meets_Acceptance :
    ((waiting [.port (.regWrite .rle 0 0x10)]).agenda = .port (.regWrite .rle 0 0x10) :: [] ∧
      (waiting [.port (.regWrite .rle 0 0x10)]).busy .rle = false) ∧
    ((waiting [.port (.regWrite .rle 0 0)]).agenda = .port (.regWrite .rle 0 0) :: [] ∧
      (waiting [.port (.regWrite .rle 0 0)]).busy .rle = false) ∧
    (busyRle 0 [.complete .rle]).agenda = .complete .rle :: [] ∧
      (busyRle 0 [.complete .rle]).busy .rle = true ∧
      ∀ i, decode .rle ((busyRle 0 [.complete .rle]).ctrl .rle).cmd ≠ .ok i := by
  refine ⟨by decide, by decide, by decide, by decide, fun i h => ?_⟩
  cases (show decode .rle ((busyRle 0 [.complete .rle]).ctrl .rle).cmd = .error .noUnit by decide).symm.trans h

/-- IllegalCommandReport: for each way a word can be illegal. -/
theorem test_meets_IllegalCommandReport :
    ∀ w ∈ [(0x80000010 : Word), 0x00000040, 0x00000020, 0x00000016],
      (busyRle w [.complete .rle]).agenda = .complete .rle :: [] ∧
      (busyRle w [.complete .rle]).busy .rle = true ∧
      ∃ r, decode .rle ((busyRle w [.complete .rle]).ctrl .rle).cmd = .error r := by
  intro w hw
  simp only [List.mem_cons, List.not_mem_nil, or_false] at hw
  rcases hw with rfl | rfl | rfl | rfl
  · exact ⟨by decide, by decide, .zeroField, by decide⟩
  · exact ⟨by decide, by decide, .noUnit, by decide⟩
  · exact ⟨by decide, by decide, .otherUnit, by decide⟩
  · exact ⟨by decide, by decide, .noFunc, by decide⟩

/-- StepRunsTheDecodedCommand: a completion on the agenda, and an empty agenda. -/
theorem test_meets_StepRunsTheDecodedCommand :
    ((busyRle 0x15 [.complete .rle]).agenda = .complete .rle :: [] ∧
      (busyRle 0x15 [.complete .rle]).busy .rle = true ∧
      decode .rle ((busyRle 0x15 [.complete .rle]).ctrl .rle).cmd = .ok .rleDecs) ∧
    (busyRle 0x10 []).agenda = [] ∧ (busyRle 0x10 []).firstBusy = some .rle ∧
      decode .rle ((busyRle 0x10 []).ctrl .rle).cmd = .ok .rleEnc := by decide

/-- StepGoesOn: a `BufWrite` the port does not have. -/
theorem test_meets_StepGoesOn :
    (waiting [.port (.bufWrite .hufTab 0 (.entry ⟨65, bits [1, 0, 1]⟩))]).agenda =
      .port (.bufWrite .hufTab 0 (.entry ⟨65, bits [1, 0, 1]⟩)) :: [] ∧
    Elem.fits (waiting []).cfg .hufTab (.entry ⟨65, bits [1, 0, 1]⟩) = false := by decide

/-- EveryCommandCompletes: an illegal word in `CMD`. -/
theorem test_meets_EveryCommandCompletes :
    decode .rle ((busyRle 0x16 []).ctrl .rle).cmd = .error .noFunc := by decide

/-- ErrorChangesNothing: a command that ends with an error. -/
theorem test_meets_ErrorChangesNothing :
    ∃ t, exec .rleDecb (idle .small) = .next t ∧ (t.ctrl (Instr.unit .rleDecb)).status = 0x4 := by
  obtain ⟨t, h, h1⟩ := next_of_after (o := exec .rleDecb (idle .small))
    (p := fun t => decide ((t.ctrl (Instr.unit .rleDecb)).status = 0x4)) (by decide +kernel)
  exact ⟨t, h, by simpa using h1⟩

/-- OnlyDestinationsChange: a command that writes a destination, seen at its source. -/
theorem test_meets_OnlyDestinationsChange :
    (∃ t, exec .rleEnc (rle .small (·.writeSym (syms [1, 1]))) = .next t ∧ t.rle.runLen = 1) ∧
    Buf.rleSym ∉ Instr.destinations .rleEnc ∧ Buf.hufBit ∈ Instr.sources .hufDec := by
  obtain ⟨t, h, h1⟩ := next_of_after (o := exec .rleEnc (rle .small (·.writeSym (syms [1, 1]))))
    (p := fun t => decide (t.rle.runLen = 1)) (by decide +kernel)
  exact ⟨⟨t, h, by simpa using h1⟩, by decide, by decide⟩

/-- CompletionFrame: a command with two destinations that ends without error; indices below and at a new
length. -/
theorem test_meets_CompletionFrame :
    (huf .small (·.writeSym (syms [1, 1]))).cfg.wellFormed = true ∧
    ∃ t, exec .hufEnc (huf .small (·.writeSym (syms [1, 1]))) = .next t ∧
      (t.ctrl (Instr.unit .hufEnc)).status ≠ 0x4 ∧ Buf.hufBit ∈ Instr.destinations .hufEnc ∧
      1 < (t.len .hufBit).toNat ∧ ¬ 2 < (t.len .hufBit).toNat := by
  obtain ⟨t, h, h1⟩ := next_of_after (o := exec .hufEnc (huf .small (·.writeSym (syms [1, 1]))))
    (p := fun t => decide ((t.ctrl (Instr.unit .hufEnc)).status ≠ 0x4 ∧
      1 < (t.len .hufBit).toNat ∧ ¬ 2 < (t.len .hufBit).toNat)) (by decide +kernel)
  have h1 := of_decide_eq_true h1
  exact ⟨by decide, t, h, h1.1, by decide, h1.2⟩

/-- SourceOverflow: one source one element too long; two sources too long, the lesser id (V-K12, V-K29). -/
theorem test_meets_SourceOverflow :
    (let s := rle .small (fun x => { x with symLen := 9 });
      Buf.rleSym ∈ Instr.sources .rleEnc ∧ s.cfg.cap .rleSym < (s.len .rleSym).toNat ∧
      ∀ c ∈ Instr.sources .rleEnc, s.cfg.cap c < (s.len c).toNat → Buf.id .rleSym ≤ c.id) ∧
    (let s := huf .small (fun x => { x with bitLen := 9, tabLen := 3 });
      Buf.hufBit ∈ Instr.sources .hufDec ∧ s.cfg.cap .hufBit < (s.len .hufBit).toNat ∧
      ∀ c ∈ Instr.sources .hufDec, s.cfg.cap c < (s.len c).toNat → Buf.id .hufBit ≤ c.id) ∧
    leastExceeded [⟨5, 25, 24⟩, ⟨1, 3, 2⟩] = some 1 := by decide

/-- ResultDependsOnSourcesOnly: two states with all source elements written that differ in the count of free
values, in a destination, above a length and in the agenda. -/
theorem test_meets_ResultDependsOnSourcesOnly :
    let s := rle .small (·.writeSym (syms [1, 1]))
    let s' : State := { rle .small (fun x => { x with
      sym := [(0, 1), (1, 1), (2, 9)], symLen := 2, run := [(0, ⟨7, 7⟩)], runLen := 1,
      aux := ⟨3, none⟩ }) with agenda := [.reset] }
    s.cfg = s'.cfg ∧ s.ctrl (Instr.unit .rleEnc) = s'.ctrl (Instr.unit .rleEnc) ∧
    (∀ b ∈ Instr.sources .rleEnc, s.len b = s'.len b ∧
      ∀ j, j < (s.len b).toNat → s.peek b j = s'.peek b j) ∧
    ∀ b ∈ Instr.sources .rleEnc, ∀ j, j < (s.len b).toNat → (s.peek b j).isSome = true := by
  refine ⟨rfl, rfl, ?_, ?_⟩ <;> intro b hb <;>
    simp only [Instr.sources, List.mem_singleton] at hb <;> subst hb
  · refine ⟨by decide, fun j hj => ?_⟩
    have hj : j < 2 := hj
    interval_cases j <;> rfl
  · intro j hj
    have hj : j < 2 := hj
    interval_cases j <;> rfl

/-- ResultDependsOnSourcesOnly: a source element never written, the counts of free values equal. -/
theorem test_meets_ResultDependsOnSourcesOnly_open :
    let s := rle .small (fun x => { x with symLen := 1 })
    let s' := rle .small (fun x => { x with symLen := 1, runLen := 1 })
    s.cfg = s'.cfg ∧ s.ctrl (Instr.unit .rleEnc) = s'.ctrl (Instr.unit .rleEnc) ∧
    (∀ b ∈ Instr.sources .rleEnc, s.len b = s'.len b ∧
      ∀ j, j < (s.len b).toNat → s.peek b j = s'.peek b j) ∧
    (s.aux (Instr.unit .rleEnc)).free = (s'.aux (Instr.unit .rleEnc)).free := by
  refine ⟨rfl, rfl, ?_, rfl⟩
  intro b hb
  simp only [Instr.sources, List.mem_singleton] at hb
  subst hb
  exact ⟨rfl, fun _ _ => rfl⟩

/-- UnitsAreIndependent: a completion in one unit and a command for another. -/
theorem test_meets_UnitsAreIndependent :
    Event.unit (.complete .rle) = some .rle ∧
    Event.unit (.port (.regWrite .huf 0 0x20)) = some .huf ∧ UnitId.rle ≠ UnitId.huf ∧
    (∃ t, (busyRle 0x10 []).handle (.complete .rle) = .next t) ∧
    ∃ t, (busyRle 0x10 []).handle (.port (.regWrite .huf 0 0x20)) = .next t := by
  refine ⟨rfl, rfl, by decide, ?_, _, rfl⟩
  obtain ⟨t, h, -⟩ := next_of_after (o := (busyRle 0x10 []).handle (.complete .rle))
    (p := fun _ => true) (by decide +kernel)
  exact ⟨t, h⟩

/-- BusyUnitsComplete: all three units busy, no event left. -/
theorem test_meets_BusyUnitsComplete :
    let s := ((((idle .small).accept .rle 0x10).accept .huf 0x20).accept .lzw 0xFF)
    s.agenda = [] ∧ s.busy .rle = true ∧ s.busy .huf = true ∧ s.busy .lzw = true := by decide

/-- StepKeepsInvariant: a state with a command in progress, and its step. -/
theorem test_meets_StepKeepsInvariant :
    (busyRle 0x10 []).Inv ∧ ∃ t, step (busyRle 0x10 []) = .next t := by
  obtain ⟨t, h, -⟩ := next_of_after (o := step (busyRle 0x10 [])) (p := fun _ => true)
    (by decide +kernel)
  exact ⟨busyRle_inv _ _, t, h⟩

/-- PhaseTransitions: an acceptance, a completion, a reset, and an event of another unit. -/
theorem test_meets_PhaseTransitions :
    (∃ s t : State, s.Inv ∧ step s = .next t ∧ s.agenda = [.port (.regWrite .rle 0 0x10)] ∧
      (s.ctrl .rle).status ≠ 0x1) ∧
    (∃ s t : State, s.Inv ∧ step s = .next t ∧ s.agenda = [.complete .rle] ∧
      (s.ctrl .rle).status = 0x1) ∧
    (∃ s t : State, s.Inv ∧ step s = .next t ∧ s.agenda = [.reset] ∧ (s.ctrl .rle).status = 0x1) ∧
    ∃ s t : State, s.Inv ∧ step s = .next t ∧ s.agenda = [.port (.regWrite .lzw 4 1)] ∧
      (s.ctrl .rle).status = 0x1 := by
  obtain ⟨t, h, -⟩ := next_of_after (o := step (busyRle 0x10 [.complete .rle]))
    (p := fun _ => true) (by decide +kernel)
  exact ⟨⟨waiting [.port (.regWrite .rle 0 0x10)], _, waiting_inv _, rfl, rfl, by decide⟩,
    ⟨_, t, busyRle_inv _ _, h, rfl, by decide⟩,
    ⟨busyRle 0x10 [.reset], _, busyRle_inv _ _, rfl, rfl, by decide⟩,
    ⟨busyRle 0x10 [.port (.regWrite .lzw 4 1)], _, busyRle_inv _ _, rfl, rfl, by decide⟩⟩

/-- BusyUnitIgnoresWrites: a write of `CMD`, of a length register, of an element. -/
theorem test_meets_BusyUnitIgnoresWrites :
    ((busyRle 0x10 [.port (.regWrite .rle 0 0x14)]).agenda = .port (.regWrite .rle 0 0x14) :: [] ∧
      (busyRle 0x10 [.port (.regWrite .rle 0 0x14)]).busy .rle = true) ∧
    (busyRle 0x10 [.port (.bufWrite .rleSym 7 (.sym 120))]).agenda =
        .port (.bufWrite .rleSym 7 (.sym 120)) :: [] ∧
      Elem.fits (busyRle 0x10 []).cfg .rleSym (.sym 120) = true ∧
      (busyRle 0x10 [.port (.bufWrite .rleSym 7 (.sym 120))]).busy (Buf.unit .rleSym) = true := by
  decide

/-- RegisterReads: every register number of an idle unit and the first it does not have; a control register
and an absent number of a busy unit; the first and the last length register of a busy unit. -/
theorem test_meets_RegisterReads :
    (∀ u ∈ [UnitId.rle, .huf, .lzw], ∀ n ∈ [0, 1, 2, 3, 4, 5, 6, 7, 8],
      (waiting [.port (.regRead u n)]).agenda = .port (.regRead u n) :: [] ∧
      (waiting [.port (.regRead u n)]).busy u = false) ∧
    (∀ n ∈ [0, 1, 2, 3, 8], (busyRle 0x10 [.port (.regRead .rle n)]).agenda =
      .port (.regRead .rle n) :: [] ∧ ¬ (4 ≤ n ∧ n ≤ 6 ∨ n = 7 ∧ UnitId.rle ≠ .lzw)) ∧
    ∀ n ∈ [4, 7], (busyRle 0x10 [.port (.regRead .rle n)]).agenda = .port (.regRead .rle n) :: [] ∧
      (busyRle 0x10 [.port (.regRead .rle n)]).busy .rle = true ∧
      (4 ≤ n ∧ n ≤ 6 ∨ n = 7 ∧ UnitId.rle ≠ .lzw) := by decide

/-- LengthRegisterWrites: the first and the last length register, and numbers that are none. -/
theorem test_meets_LengthRegisterWrites :
    ∀ n ∈ [1, 3, 4, 6, 7, 8],
      (waiting [.port (.regWrite .lzw n 5)]).agenda = .port (.regWrite .lzw n 5) :: [] ∧
      (waiting [.port (.regWrite .lzw n 5)]).busy .lzw = false ∧ n ≠ 0 ∧
      ((4 ≤ n ∧ n ≤ 6 ∨ n = 7 ∧ UnitId.lzw ≠ .lzw) ↔ n = 4 ∨ n = 6) := by decide

/-- BufWriteReplacesOneElement: the last index below the capacity, and the capacity. -/
theorem test_meets_BufWriteReplacesOneElement :
    ∀ i ∈ [0, 7, 8], (waiting [.port (.bufWrite .rleSym i (.sym 5))]).Inv ∧
      (waiting [.port (.bufWrite .rleSym i (.sym 5))]).agenda =
        .port (.bufWrite .rleSym i (.sym 5)) :: [] ∧
      (waiting [.port (.bufWrite .rleSym i (.sym 5))]).busy (Buf.unit .rleSym) = false ∧
      Elem.fits (waiting []).cfg .rleSym (.sym 5) = true ∧
      (waiting []).cfg.cap .rleSym = 8 := by
  intro i _
  exact ⟨waiting_inv _, rfl, by simp [waiting, idle, State.busy, State.ctrl, State.reset,
    RleUnit.reset, Ctrl.reset, Ctrl.busy, Buf.unit], rfl, rfl⟩

/-- BufReadReturnsTheElement: a written element; a busy unit; the capacity; an element never written. -/
theorem test_meets_BufReadReturnsTheElement :
    (let s : State := { rle .small (·.writeSym (syms [5])) with agenda := [.port (.bufRead .rleSym 0)] };
      s.agenda = .port (.bufRead .rleSym 0) :: [] ∧ s.busy (Buf.unit .rleSym) = false ∧
      0 < s.cfg.cap .rleSym ∧ s.peek .rleSym 0 = some (.sym 5)) ∧
    (busyRle 0x10 [.port (.bufRead .rleSym 0)]).busy (Buf.unit .rleSym) = true ∧
    (waiting [.port (.bufRead .rleSym 8)]).cfg.cap .rleSym ≤ 8 ∧
    (waiting [.port (.bufRead .rleSym 7)]).peek .rleSym 7 = none := by decide

/-- DestinationReadsBack: a shorter result over a longer content. -/
theorem test_meets_DestinationReadsBack :
    Memory.wf ([(0, 1), (1, 2), (5, 3)] : Memory Nat) ∧ ([7] : List Nat).length < 2 ^ 32 := by
  decide

/-! The statements about the commands' results: a source too long, every branch of the result, at the
capacities of the small configuration or of one that differs where no source of the small one gets there. -/

/-- RleEncResult: 9 symbols; 8 symbols in 2 runs; 3 runs. -/
theorem test_meets_RleEncResult :
    Config.small.capSym < (9#32).toNat ∧
    (let s := rle .small (·.writeSym (syms [1, 1, 1, 1, 2, 2, 2, 2]));
      s.rle.symLen.toNat = s.cfg.capSym ∧
      s.rle.readSym s.rle.aux.free = (syms [1, 1, 1, 1, 2, 2, 2, 2], 0) ∧
      (rleRuns (syms [1, 1, 1, 1, 2, 2, 2, 2])).length = s.cfg.capRun) ∧
    let s := rle .small (·.writeSym (syms [1, 2, 3]));
    s.rle.symLen.toNat ≤ s.cfg.capSym ∧ s.rle.readSym s.rle.aux.free = (syms [1, 2, 3], 0) ∧
      s.cfg.capRun < (rleRuns (syms [1, 2, 3])).length := by decide +kernel

/-- RleDecResult: 3 pairs; 8 symbols (V-K13); 9 symbols (V-K14). -/
theorem test_meets_RleDecResult :
    Config.small.capRun < (3#32).toNat ∧
    (let s := rle .small (·.writeRun [⟨1, 8⟩]);
      s.cfg.wellFormed = true ∧ s.rle.runLen.toNat ≤ s.cfg.capRun ∧
      s.rle.readRun s.rle.aux.free = ([⟨1, 8⟩], 0) ∧
      ((([⟨1, 8⟩] : List Run).map Run.counted).map SymCount.cnt).sum = s.cfg.capSym) ∧
    let s := rle .small (·.writeRun [⟨1, 9⟩]);
    s.rle.readRun s.rle.aux.free = ([⟨1, 9⟩], 0) ∧
      s.cfg.capSym < ((([⟨1, 9⟩] : List Run).map Run.counted).map SymCount.cnt).sum := by
  decide +kernel

/-- RleEncbResult: 24 bytes (V-K16); two limits exceeded (V-K17). -/
theorem test_meets_RleEncbResult :
    (let s := rle .small (·.writeSym (syms [1, 1, 2, 2]));
      s.rle.symLen.toNat ≤ s.cfg.capSym ∧
      s.rle.readSym s.rle.aux.free = (syms [1, 1, 2, 2], 0) ∧
      (rleRuns (syms [1, 1, 2, 2])).length = s.cfg.capRun ∧
      8 + 8 * (rleRuns (syms [1, 1, 2, 2])).length = s.cfg.capByt) ∧
    let s := rle .small (·.writeSym (syms [1, 2, 3]));
    s.rle.readSym s.rle.aux.free = (syms [1, 2, 3], 0) ∧
      leastExceeded [⟨1, (rleRuns (syms [1, 2, 3])).length, s.cfg.capRun⟩,
        ⟨5, 8 + 8 * (rleRuns (syms [1, 2, 3])).length, s.cfg.capByt⟩] = some 1 := by decide +kernel

/-- The bytes of an RLE container of one pair. -/
def onePair (sym cnt : Nat) : List Byte := serHcr1 [⟨BitVec.ofNat 32 sym, cnt⟩]

/-- RleDecbResult: 25 bytes; no container; a count 0; 8 symbols; 9 symbols. -/
theorem test_meets_RleDecbResult :
    Config.small.capByt < (25#32).toNat ∧ Config.small.wellFormed = true ∧
    (let s := rle .small id;
      s.rle.bytLen.toNat ≤ s.cfg.capByt ∧ s.rle.readByt s.rle.aux.free = ([], 0) ∧
      parseHcr1 [] = .error (malformed 0)) ∧
    (let s := rle .small (·.writeByt (onePair 1 0));
      s.rle.readByt s.rle.aux.free = (onePair 1 0, 0) ∧ parseHcr1 (onePair 1 0) = .ok [⟨1, 0⟩] ∧
      checkRuns [⟨1, 0⟩] = .error ⟨.corruptedData, 8⟩) ∧
    (let s := rle .small (·.writeByt (onePair 1 8));
      s.rle.bytLen.toNat ≤ s.cfg.capByt ∧ s.rle.readByt s.rle.aux.free = (onePair 1 8, 0) ∧
      parseHcr1 (onePair 1 8) = .ok [⟨1, 8⟩] ∧ checkRuns [⟨1, 8⟩] = .ok () ∧ 1 ≤ s.cfg.capRun ∧
      (([⟨1, 8⟩] : List SymCount).map SymCount.cnt).sum = s.cfg.capSym) ∧
    let s := rle .small (·.writeByt (onePair 1 9));
    s.rle.readByt s.rle.aux.free = (onePair 1 9, 0) ∧ parseHcr1 (onePair 1 9) = .ok [⟨1, 9⟩] ∧
      checkRuns [⟨1, 9⟩] = .ok () ∧
      leastExceeded [⟨1, 1, s.cfg.capRun⟩,
        ⟨0, (([⟨1, 9⟩] : List SymCount).map SymCount.cnt).sum, s.cfg.capSym⟩] = some 0 := by
  decide +kernel

/-- RleEncsResult: four symbols of text (V-K18); two limits exceeded (V-K19). -/
theorem test_meets_RleEncsResult :
    (let s := rle .small (·.writeSym (syms [97, 97, 98]));
      s.rle.symLen.toNat ≤ s.cfg.capSym ∧
      s.rle.readSym s.rle.aux.free = (syms [97, 97, 98], 0) ∧
      (rleRuns (syms [97, 97, 98])).length = s.cfg.capRun ∧
      (rleTextEnc (syms [97, 97, 98])).length = s.cfg.capTxt) ∧
    let s := rle .small (·.writeSym (syms [97, 98, 99]));
    s.rle.readSym s.rle.aux.free = (syms [97, 98, 99], 0) ∧
      leastExceeded [⟨1, (rleRuns (syms [97, 98, 99])).length, s.cfg.capRun⟩,
        ⟨6, (rleTextEnc (syms [97, 98, 99])).length, s.cfg.capTxt⟩] = some 1 := by decide +kernel

/-- RleDecsResult: 5 symbols of text (V-K23); a symbol with no count; 8 symbols; 9 symbols (V-K21). -/
theorem test_meets_RleDecsResult :
    Config.small.capTxt < (5#32).toNat ∧ Config.small.wellFormed = true ∧
    (let s := rle .small (·.writeTxt (syms [97]));
      s.rle.txtLen.toNat ≤ s.cfg.capTxt ∧ s.rle.readTxt s.rle.aux.free = (syms [97], 0) ∧
      rleTextDec (syms [97]) = .error (malformed 0)) ∧
    (let s := rle .small (·.writeTxt (syms [0x38, 97]));
      s.rle.readTxt s.rle.aux.free = (syms [0x38, 97], 0) ∧
      rleTextDec (syms [0x38, 97]) = .ok (List.replicate 8 97) ∧
      (List.replicate 8 (97 : Sym)).length = s.cfg.capSym) ∧
    let s := rle .small (·.writeTxt (syms [0x39, 97]));
    s.rle.readTxt s.rle.aux.free = (syms [0x39, 97], 0) ∧
      rleTextDec (syms [0x39, 97]) = .ok (List.replicate 9 97) ∧
      s.cfg.capSym < (List.replicate 9 (97 : Sym)).length := by decide +kernel

/-- HufEncResult: 8 bits, 2 entries (V-K24); 3 entries (V-K25); a code of exactly 2 bits. -/
theorem test_meets_HufEncResult :
    (let s := huf .small (·.writeSym (syms [1, 2, 1, 2, 1, 2, 1, 2]));
      s.huf.symLen.toNat = s.cfg.capSym ∧
      s.huf.readSym s.huf.aux.free = (syms [1, 2, 1, 2, 1, 2, 1, 2], 0) ∧
      s.huf.readSym 0 = (syms [1, 2, 1, 2, 1, 2, 1, 2], 0) ∧
      huffEncode (tableOf (syms [1, 2, 1, 2, 1, 2, 1, 2])) (syms [1, 2, 1, 2, 1, 2, 1, 2]) 0 =
        (bits [0, 1, 0, 1, 0, 1, 0, 1], 0) ∧
      (tableOf (syms [1, 2, 1, 2, 1, 2, 1, 2])).length = s.cfg.capTab ∧
      (∀ e ∈ tableOf (syms [1, 2, 1, 2, 1, 2, 1, 2]), e.code.length ≤ s.cfg.capClen) ∧
      (bits [0, 1, 0, 1, 0, 1, 0, 1]).length = s.cfg.capBit) ∧
    (let s := huf .small (·.writeSym (syms [1, 2, 3]));
      s.huf.readSym s.huf.aux.free = (syms [1, 2, 3], 0) ∧ s.huf.readSym 0 = (syms [1, 2, 3], 0) ∧
      leastExceeded [⟨3, (tableOf (syms [1, 2, 3])).length, s.cfg.capTab⟩,
        ⟨7, longestCode (tableOf (syms [1, 2, 3])), s.cfg.capClen⟩,
        ⟨2, (huffEncode (tableOf (syms [1, 2, 3])) (syms [1, 2, 3]) 0).1.length, s.cfg.capBit⟩] =
          some 3) ∧
    longestCode (tableOf (syms [1, 2, 3])) = Config.small.capClen := by decide +kernel

/-- HufDecResult: 9 bits; 3 entries; a bad table; bits no code begins; 8 symbols (V-K28); 9 symbols, with
room for 9 bits. -/
theorem test_meets_HufDecResult :
    (Config.small.capBit < (9#32).toNat ∧ Config.small.capTab < (3#32).toNat ∧
      (8#32).toNat ≤ Config.small.capBit ∧ Config.small.wellFormed = true) ∧
    (let s := huf .small (·.writeTab [⟨65, []⟩]);
      s.huf.bitLen.toNat ≤ s.cfg.capBit ∧ s.huf.tabLen.toNat ≤ s.cfg.capTab ∧
      s.huf.readTab s.cfg s.huf.aux.free = ([⟨65, []⟩], 0) ∧ s.huf.readBit 0 = ([], 0) ∧
      huffCheckTable [⟨65, []⟩] = .error ⟨.badCodeTable, 0⟩) ∧
    (let s := huf .small (fun x => (x.writeTab [⟨9, bits [1]⟩]).writeBit (bits [0]));
      s.huf.readTab s.cfg s.huf.aux.free = ([⟨9, bits [1]⟩], 0) ∧
      s.huf.readBit 0 = (bits [0], 0) ∧ huffCheckTable [⟨9, bits [1]⟩] = .ok () ∧
      huffDecode (bits [0]) [⟨9, bits [1]⟩] = .error ⟨.invalidPrefixCode, 0⟩) ∧
    (let s := huf .small (fun x =>
        (x.writeTab [⟨1, bits [0]⟩]).writeBit (bits [0, 0, 0, 0, 0, 0, 0, 0]));
      s.huf.bitLen.toNat = s.cfg.capBit ∧
      s.huf.readTab s.cfg s.huf.aux.free = ([⟨1, bits [0]⟩], 0) ∧
      s.huf.readBit 0 = (bits [0, 0, 0, 0, 0, 0, 0, 0], 0) ∧
      huffCheckTable [⟨1, bits [0]⟩] = .ok () ∧
      huffDecode (bits [0, 0, 0, 0, 0, 0, 0, 0]) [⟨1, bits [0]⟩] = .ok (List.replicate 8 1) ∧
      (List.replicate 8 (1 : Sym)).length = s.cfg.capSym) ∧
    let s := huf { Config.small with capBit := 9 } (fun x =>
      (x.writeTab [⟨1, bits [0]⟩]).writeBit (bits [0, 0, 0, 0, 0, 0, 0, 0, 0]));
    s.cfg.wellFormed = true ∧ s.huf.bitLen.toNat ≤ s.cfg.capBit ∧
      s.huf.readTab s.cfg s.huf.aux.free = ([⟨1, bits [0]⟩], 0) ∧
      s.huf.readBit 0 = (bits [0, 0, 0, 0, 0, 0, 0, 0, 0], 0) ∧
      huffCheckTable [⟨1, bits [0]⟩] = .ok () ∧
      huffDecode (bits [0, 0, 0, 0, 0, 0, 0, 0, 0]) [⟨1, bits [0]⟩] = .ok (List.replicate 9 1) ∧
      s.cfg.capSym < (List.replicate 9 (1 : Sym)).length := by decide +kernel

/-- HufEncbResult: 25 bytes with room for 25, and without (V-K27). -/
theorem test_meets_HufEncbResult :
    (let s := huf { Config.small with capByt := 25 } (·.writeSym (syms [1, 1, 1, 1]));
      s.huf.symLen.toNat ≤ s.cfg.capSym ∧
      s.huf.readSym s.huf.aux.free = (syms [1, 1, 1, 1], 0) ∧
      s.huf.readSym 0 = (syms [1, 1, 1, 1], 0) ∧
      huffEncode (tableOf (syms [1, 1, 1, 1])) (syms [1, 1, 1, 1]) 0 = (bits [0, 0, 0, 0], 0) ∧
      bitPack (bits [0, 0, 0, 0]) = (4, [0]) ∧ (huffFreq (syms [1, 1, 1, 1])).length ≤ s.cfg.capTab ∧
      (∀ e ∈ tableOf (syms [1, 1, 1, 1]), e.code.length ≤ s.cfg.capClen) ∧
      (bits [0, 0, 0, 0]).length ≤ s.cfg.capBit ∧
      16 + 8 * (huffFreq (syms [1, 1, 1, 1])).length + ([0] : List Byte).length = s.cfg.capByt) ∧
    leastExceeded [⟨3, (huffFreq (syms [1, 1, 1, 1])).length, Config.small.capTab⟩,
      ⟨7, longestCode (tableOf (syms [1, 1, 1, 1])), Config.small.capClen⟩,
      ⟨2, (bits [0, 0, 0, 0]).length, Config.small.capBit⟩,
      ⟨5, 16 + 8 * (huffFreq (syms [1, 1, 1, 1])).length + ([0] : List Byte).length,
        Config.small.capByt⟩] = some 5 := by decide +kernel

/-- The small configuration with room for a container of one entry and two packed bytes. -/
def roomy : Config := { Config.small with capByt := 26 }

/-- A Huffman container of one entry. -/
def oneEntry (pad : Nat) (P : List Byte) : HufContainer := ⟨pad, [⟨5, 1⟩], P⟩

/-- HufDecbResult: a container too long; none; `padding` 9; a bit no code begins; 8 bits; 16 bits. -/
theorem test_meets_HufDecbResult :
    (Config.small.capByt < (25#32).toNat ∧ roomy.wellFormed = true ∧
      parseHch1 [] = .error (malformed 0)) ∧
    (let s := huf roomy (·.writeByt (serHch1 (oneEntry 9 [0])));
      s.huf.bytLen.toNat ≤ s.cfg.capByt ∧
      s.huf.readByt s.huf.aux.free = (serHch1 (oneEntry 9 [0]), 0) ∧
      parseHch1 (serHch1 (oneEntry 9 [0])) = .ok (oneEntry 9 [0]) ∧
      checkHch1 (oneEntry 9 [0]) = .error ⟨.corruptedData, 4⟩) ∧
    (parseHch1 (serHch1 (oneEntry 5 [0x20])) = .ok (oneEntry 5 [0x20]) ∧
      checkHch1 (oneEntry 5 [0x20]) = .ok () ∧
      huffCodes (huffTree (oneEntry 5 [0x20]).freq) = [⟨5, bits [0]⟩] ∧
      bitUnpack 5 [0x20] = bits [0, 0, 1] ∧
      huffDecode (bits [0, 0, 1]) [⟨5, bits [0]⟩] = .error ⟨.invalidPrefixCode, 2⟩) ∧
    (let s := huf roomy (·.writeByt (serHch1 (oneEntry 8 [0])));
      s.huf.readByt s.huf.aux.free = (serHch1 (oneEntry 8 [0]), 0) ∧
      parseHch1 (serHch1 (oneEntry 8 [0])) = .ok (oneEntry 8 [0]) ∧
      checkHch1 (oneEntry 8 [0]) = .ok () ∧ bitUnpack 8 [0] = List.replicate 8 false ∧
      huffDecode (List.replicate 8 false) [⟨5, bits [0]⟩] = .ok (List.replicate 8 5) ∧
      1 ≤ s.cfg.capTab ∧ 1 ≤ s.cfg.capClen ∧ 8 = s.cfg.capBit ∧ 8 = s.cfg.capSym) ∧
    (let s := huf roomy (·.writeByt (serHch1 (oneEntry 8 [0, 0])));
      s.huf.bytLen.toNat = s.cfg.capByt ∧
      s.huf.readByt s.huf.aux.free = (serHch1 (oneEntry 8 [0, 0]), 0) ∧
      parseHch1 (serHch1 (oneEntry 8 [0, 0])) = .ok (oneEntry 8 [0, 0]) ∧
      checkHch1 (oneEntry 8 [0, 0]) = .ok () ∧ bitUnpack 8 [0, 0] = List.replicate 16 false ∧
      huffDecode (List.replicate 16 false) [⟨5, bits [0]⟩] = .ok (List.replicate 16 5)) ∧
    leastExceeded [⟨3, 1, roomy.capTab⟩, ⟨7, longestCode [⟨5, bits [0]⟩], roomy.capClen⟩,
      ⟨2, 16, roomy.capBit⟩, ⟨0, 16, roomy.capSym⟩] = some 0 := by decide +kernel

/-- LzwEncResult: 9 symbols; a symbol above 255; 3 codes (V-K31); 4 codes (V-K32). -/
theorem test_meets_LzwEncResult :
    Config.small.capSym < (9#32).toNat ∧
    (let s := lzw .small (·.writeSym (syms [256]));
      s.lzw.symLen.toNat ≤ s.cfg.capSym ∧ s.lzw.readSym s.lzw.aux.free = (syms [256], 0) ∧
      lzwEncode (syms [256]) = .error ⟨.unsupportedSymbolRange, 0⟩) ∧
    (let s := lzw .small (·.writeSym (syms [1, 1, 1, 1, 1, 1]));
      s.lzw.readSym s.lzw.aux.free = (syms [1, 1, 1, 1, 1, 1], 0) ∧
      lzwEncode (syms [1, 1, 1, 1, 1, 1]) = .ok [1, 256, 257] ∧ 3 = s.cfg.capCod) ∧
    let s := lzw .small (·.writeSym (syms [1, 2, 3, 4]));
    s.lzw.readSym s.lzw.aux.free = (syms [1, 2, 3, 4], 0) ∧
      lzwEncode (syms [1, 2, 3, 4]) = .ok [1, 2, 3, 4] ∧ s.cfg.capCod < 4 := by decide +kernel

/-- LzwDecResult: 4 codes; a code out of range (V-K36); 6 symbols (V-K34), with room for 6 and for 5. -/
theorem test_meets_LzwDecResult :
    (Config.small.capCod < (4#32).toNat ∧
      ({ Config.small with capSym := 6 } : Config).wellFormed = true) ∧
    (let s := lzw .small (·.writeCod (syms [1, 256, 999]));
      s.lzw.codLen.toNat = s.cfg.capCod ∧
      s.lzw.readCod s.lzw.aux.free = (syms [1, 256, 999], 0) ∧
      lzwDecode ((syms [1, 256, 999]).map BitVec.toNat) = .error ⟨.corruptedLZWStream, 2⟩) ∧
    let s := lzw { Config.small with capSym := 6 } (·.writeCod (syms [1, 256, 257]));
    s.lzw.readCod s.lzw.aux.free = (syms [1, 256, 257], 0) ∧
      lzwDecode ((syms [1, 256, 257]).map BitVec.toNat) = .ok (List.replicate 6 1) ∧
      (List.replicate 6 (1 : Sym)).length = s.cfg.capSym ∧
      ({ Config.small with capSym := 5 } : Config).capSym < (List.replicate 6 (1 : Sym)).length := by
  decide +kernel

/-- LzwEncbResult: 20 bytes with room for 20 (V-K37); 4 codes (V-K38); a symbol above 255. -/
theorem test_meets_LzwEncbResult :
    (let s := lzw { Config.small with capByt := 20 } (·.writeSym (syms [1, 2, 3]));
      s.lzw.symLen.toNat ≤ s.cfg.capSym ∧ s.lzw.readSym s.lzw.aux.free = (syms [1, 2, 3], 0) ∧
      lzwEncode (syms [1, 2, 3]) = .ok [1, 2, 3] ∧ 3 = s.cfg.capCod ∧ 8 + 4 * 3 = s.cfg.capByt) ∧
    (lzwEncode (syms [1, 2, 3, 4]) = .ok [1, 2, 3, 4] ∧
      leastExceeded [⟨4, 4, Config.small.capCod⟩, ⟨5, 8 + 4 * 4, Config.small.capByt⟩] = some 4) ∧
    lzwEncode (syms [1, 300]) = .error ⟨.unsupportedSymbolRange, 1⟩ := by decide +kernel

/-- LzwDecbResult: 25 bytes; no container; a first code 256 (V-L36); 3 codes; 4 codes, 10 symbols
(V-K39). -/
theorem test_meets_LzwDecbResult :
    (Config.small.capByt < (25#32).toNat ∧ Config.small.wellFormed = true ∧
      parseHcl1 [] = .error (malformed 0)) ∧
    (parseHcl1 (serHcl1 (syms [256])) = .ok (syms [256]) ∧
      lzwDecode ((syms [256]).map BitVec.toNat) = .error ⟨.corruptedLZWStream, 0⟩) ∧
    (let s := lzw .small (·.writeByt (serHcl1 (syms [1, 256, 257])));
      s.lzw.bytLen.toNat ≤ s.cfg.capByt ∧
      s.lzw.readByt s.lzw.aux.free = (serHcl1 (syms [1, 256, 257]), 0) ∧
      parseHcl1 (serHcl1 (syms [1, 256, 257])) = .ok (syms [1, 256, 257]) ∧
      lzwDecode ((syms [1, 256, 257]).map BitVec.toNat) = .ok (List.replicate 6 1) ∧
      3 = s.cfg.capCod ∧ 6 ≤ s.cfg.capSym) ∧
    let s := lzw .small (·.writeByt (serHcl1 (syms [1, 256, 257, 258])));
    s.lzw.bytLen.toNat = s.cfg.capByt ∧
      s.lzw.readByt s.lzw.aux.free = (serHcl1 (syms [1, 256, 257, 258]), 0) ∧
      parseHcl1 (serHcl1 (syms [1, 256, 257, 258])) = .ok (syms [1, 256, 257, 258]) ∧
      lzwDecode ((syms [1, 256, 257, 258]).map BitVec.toNat) = .ok (List.replicate 10 1) ∧
      leastExceeded [⟨4, 4, s.cfg.capCod⟩, ⟨0, 10, s.cfg.capSym⟩] = some 0 := by decide +kernel

/-! The statements about the codecs. -/

/-- RleLaws: symbols that are no digits. -/
theorem test_meets_RleLaws :
    (syms [97, 97, 0x2F, 0x3A]).length < 2 ^ 32 ∧
    ∀ c ∈ syms [97, 97, 0x2F, 0x3A], isDigit c = false := by simp [syms, isDigit]

/-- TextTokens: a token with a leading zero and one of count 0, trailing digits, a symbol with no count. -/
theorem test_meets_TextTokens :
    Token.ok ⟨syms [0x30, 0x33], 97⟩ ∧ Token.ok ⟨syms [0x30], 98⟩ ∧
    (syms [0x31, 0x39] ≠ [] ∧ ∀ d ∈ syms [0x31, 0x39], isDigit d = true) ∧
    isDigit 0x2F = false ∧ 1 ≤ 1 := by
  simp [Token.ok, syms, isDigit]

/-- TreeTransition: the first and the last transition of a table of three entries. -/
theorem test_meets_TreeTransition :
    2 ≤ ((TreeBuilder.init [⟨65, 3⟩, ⟨66, 2⟩, ⟨67, 1⟩]).run 0).queue.length ∧
    ((TreeBuilder.init [⟨65, 3⟩, ⟨66, 2⟩, ⟨67, 1⟩]).run 1).queue.length = 2 := by decide

/-- TreeShape and CodesArePrefixFree: tables of one and of two entries. -/
theorem test_meets_TreeShape :
    ([⟨65, 3⟩] : List SymCount) ≠ [] ∧ freqTableOk [⟨65, 3⟩] ∧ freqTableOk [⟨65, 3⟩, ⟨66, 1⟩] ∧
    2 ≤ ([⟨65, 3⟩, ⟨66, 1⟩] : List SymCount).length := by
  refine ⟨by decide, ?_, ?_, by decide⟩ <;> simp [freqTableOk]

/-- EncodingConcatenatesCodes: a stream with a symbol in it. -/
theorem test_meets_EncodingConcatenatesCodes :
    (65 : Sym) ∈ syms [65, 65, 66] ∧ tableOf (syms [65, 65, 66]) = [⟨65, bits [1]⟩, ⟨66, bits [0]⟩] := by
  decide +kernel

/-- DecodingMatchesGreedily: a table that passes, entries of it, bits that no code of it begins. -/
theorem test_meets_DecodingMatchesGreedily :
    codeTableOk [⟨65, bits [0]⟩, ⟨66, bits [1, 1]⟩] ∧
    (∀ e ∈ [(⟨66, bits [1, 1]⟩ : Entry)], e ∈ [(⟨65, bits [0]⟩ : Entry), ⟨66, bits [1, 1]⟩]) ∧
    bits [1] ≠ [] ∧
    ∀ e ∈ [(⟨65, bits [0]⟩ : Entry), ⟨66, bits [1, 1]⟩], ¬ e.code <+: bits [1] := by
  refine ⟨⟨by decide, ?_⟩, by decide, by decide, by decide⟩
  simp only [List.pairwise_cons, List.mem_cons, List.not_mem_nil, or_false, forall_eq]
  exact ⟨by decide, by simp⟩

/-- BitPacker: `pad` at both ends of its range. -/
theorem test_meets_BitPacker :
    1 ≤ 1 ∧ 8 ≤ 8 ∧ (1 ≠ 8 → bytes [0xA5] ≠ []) ∧ ((8 : Nat) ≠ 8 → ([] : List Byte) ≠ []) ∧
    0 < 8 * (bitPack (bits [1])).2.length ∧ 6 < (bitUnpack 1 (bytes [0xA5])).length := by decide

/-- ContainerValueChecks: each check of a Huffman container, `padding` at both ends of its range. -/
theorem test_meets_ContainerValueChecks :
    ((oneEntry 0 [0]).pad < 1 ∧ 8 < (oneEntry 9 [0]).pad) ∧
    (1 ≤ (oneEntry 1 [0]).pad ∧ (oneEntry 8 [0]).pad ≤ 8 ∧
      freqTableOk (List.take 1 [⟨5, 1⟩, ⟨5, 1⟩]) ∧
      ¬ freqTableOk (List.take 2 [⟨5, 1⟩, ⟨5, 1⟩])) ∧
    (1 ≤ (oneEntry 7 []).pad ∧ (oneEntry 7 []).pad < 8 ∧ freqTableOk (oneEntry 7 []).freq ∧
      (oneEntry 7 []).packed = []) ∧
    runListOk (List.take 1 [⟨5, 1⟩, ⟨5, 1⟩]) ∧ ¬ runListOk (List.take 2 [⟨5, 1⟩, ⟨5, 1⟩]) := by
  refine ⟨by decide, ⟨by decide, by decide, ?_, ?_⟩, ⟨by decide, by decide, ?_, by decide⟩, ?_, ?_⟩ <;>
    simp [freqTableOk, runListOk, oneEntry]

/-- HuffmanByteRoundTrip: three symbols in a unit with room for them. -/
theorem test_meets_HuffmanByteRoundTrip :
    let S := syms [5, 5, 6];
    let s := huf .refcfg (·.writeSym S);
    s.cfg.wellFormed = true ∧ s.huf.sym.Holds s.huf.symLen S ∧ S.length ≤ s.cfg.capSym ∧
    (huffFreq S).length ≤ s.cfg.capTab ∧ (∀ e ∈ tableOf S, e.code.length ≤ s.cfg.capClen) ∧
    (huffEncode (tableOf S) S 0).1.length ≤ s.cfg.capBit ∧
    16 + 8 * (huffFreq S).length + ((huffEncode (tableOf S) S 0).1.length + 7) / 8 ≤ s.cfg.capByt := by
  refine ⟨by decide +kernel, ⟨by decide +kernel, by decide +kernel⟩, ?_⟩
  decide +kernel

/-- LzwLaws: a source of symbols at most 255. -/
theorem test_meets_LzwLaws :
    (∀ c ∈ syms [0, 255, 0], c.toNat ≤ 255) ∧ (syms [0, 255, 0]).length ≤ 2 ^ 32 - 257 := by
  simp [syms]

/-- LzwByteRoundTrip: symbols at both ends of the range, in a unit with just enough room. -/
theorem test_meets_LzwByteRoundTrip :
    let S := syms [0, 255, 0];
    let s := lzw { Config.small with capSym := 3, capByt := 20 } (·.writeSym S);
    s.cfg.wellFormed = true ∧ s.lzw.sym.Holds s.lzw.symLen S ∧ (∀ c ∈ S, c.toNat ≤ 255) ∧
    S.length = s.cfg.capSym ∧ S.length = s.cfg.capCod ∧ 8 + 4 * S.length = s.cfg.capByt := by
  exact ⟨by decide +kernel, ⟨by decide +kernel, by decide +kernel⟩, by simp [syms], by decide, by decide,
    by decide⟩

/-- TruncatedContainers: a cut of each container one byte before its end, a Huffman container cut before, at
the start of and inside its packed bytes, bytes left over, another tag. -/
theorem test_meets_TruncatedContainers :
    ([⟨5, 1⟩] : List SymCount).length < 2 ^ 32 ∧ 15 < (serHcr1 [⟨5, 1⟩]).length ∧
    ((oneEntry 8 [0, 0]).freq.length < 2 ^ 32 ∧ (oneEntry 8 [0, 0]).packed.length < 2 ^ 32 ∧
      23 < 16 + 8 * (oneEntry 8 [0, 0]).freq.length ∧
      16 + 8 * (oneEntry 8 [0, 0]).freq.length ≤ 24 ∧ 24 < (serHch1 (oneEntry 8 [0, 0])).length ∧
      25 < (serHch1 (oneEntry 8 [0, 0])).length) ∧
    ([5] : List Word).length < 2 ^ 32 ∧ 11 < (serHcl1 [5]).length ∧ ([0] : List Byte) ≠ [] ∧
    (bytes [0x48, 0x43, 0x52]).take 4 ≠ tagHcr1 ∧ tagHcr1.take 4 ≠ tagHch1 ∧
    tagHch1.take 4 ≠ tagHcl1 := by decide

/-- ReportedPositionsAreInTheSource: an error of every kind. -/
theorem test_meets_ReportedPositionsAreInTheSource :
    parseHcr1 (tagHcr1 ++ bytes [0, 0]) = .error (malformed 4) ∧
    (parseHcr1 (onePair 1 0) = .ok [⟨1, 0⟩] ∧ checkRuns [⟨1, 0⟩] = .error ⟨.corruptedData, 8⟩) ∧
    rleTextDec (syms [0x31, 97, 98]) = .error (malformed 2) ∧
    huffCheckTable [⟨65, bits [0]⟩, ⟨65, bits [1]⟩] = .error ⟨.badCodeTable, 1⟩ ∧
    huffDecode (bits [0, 1]) [⟨65, bits [0]⟩] = .error ⟨.invalidPrefixCode, 1⟩ ∧
    hufDecodeContainer (serHch1 (oneEntry 9 [0])) = .error ⟨.corruptedData, 4⟩ ∧
    (parseHch1 (serHch1 (oneEntry 9 [0])) = .ok (oneEntry 9 [0]) ∧
      checkHch1 (oneEntry 9 [0]) = .error ⟨.corruptedData, 4⟩) ∧
    hufDecodeContainer (serHch1 (oneEntry 5 [0x20])) = .error ⟨.invalidPrefixCode, 2⟩ ∧
    parseHch1 (tagHch1 ++ bytes [0, 0, 0, 8]) = .error (malformed 8) ∧
    parseHcl1 tagHcl1 = .error (malformed 4) ∧
    lzwEncode (syms [1, 256]) = .error ⟨.unsupportedSymbolRange, 1⟩ ∧
    lzwDecode [1, 257] = .error ⟨.corruptedLZWStream, 1⟩ := by decide +kernel

end Sys2Proof.Tests
end

section
/-! PROOFS. A unit in the reset state (10_state.md R40): what its registers, its scratch and its buffers
read. -/

namespace Sys2Proof.Machine

theorem State.reset_unitReset (u : UnitId) : State.reset.unitReset u := by cases u <;> rfl

theorem State.resetInput_unitReset (s : State) (u : UnitId) : s.resetInput.unitReset u := by
  cases u <;> rfl

/-! ### One unit -/

@[simp] theorem RleUnit.reset_reg (a : Aux) (n : Nat) : (RleUnit.reset a).reg n = 0 := by
  unfold RleUnit.reg; split <;> rfl

@[simp] theorem HufUnit.reset_reg (a : Aux) (n : Nat) : (HufUnit.reset a).reg n = 0 := by
  unfold HufUnit.reg; split <;> rfl

@[simp] theorem LzwUnit.reset_reg (a : Aux) (n : Nat) : (LzwUnit.reset a).reg n = 0 := by
  unfold LzwUnit.reg; split <;> rfl

/-! ### The machine, by the unit's name -/

section
variable {s : State} {u : UnitId}

theorem State.unitReset.ctrl_eq (h : s.unitReset u) : s.ctrl u = .reset := by
  cases u <;> exact congrArg (·.ctrl) h

theorem State.unitReset.reg_eq (h : s.unitReset u) (n : Nat) : s.reg u n = 0 := by
  cases u with
  | rle => exact (congrArg (·.reg n) h).trans (RleUnit.reset_reg _ n)
  | huf => exact (congrArg (·.reg n) h).trans (HufUnit.reset_reg _ n)
  | lzw => exact (congrArg (·.reg n) h).trans (LzwUnit.reset_reg _ n)

theorem State.unitReset.hasScratch_eq (h : s.unitReset u) : s.hasScratch u = false := by
  cases u <;> exact congrArg (·.scratch.isSome) h

theorem State.unitReset.len_eq {b : Buf} (h : s.unitReset b.unit) : s.len b = 0 := by
  cases b <;> (simp only [Buf.unit, State.unitReset] at h; rw [State.len, h]; rfl)

theorem State.unitReset.peek_eq {b : Buf} (h : s.unitReset b.unit) (i : Nat) :
    s.peek b i = none := by
  cases b <;> (simp only [Buf.unit, State.unitReset] at h; rw [State.peek, h]; rfl)

end

/-- Settles O3: both states have every unit in the reset state, and the clauses hold of such a unit. -/
theorem resetState : Obligations.ResetState := by
  intro s u hs
  have hreset : ∀ v, s.unitReset v := by
    rcases hs with rfl | ⟨s0, rfl⟩
    · exact State.reset_unitReset
    · exact s0.resetInput_unitReset
  exact ⟨(hreset u).ctrl_eq, (hreset u).reg_eq, (hreset u).hasScratch_eq,
    fun b => ⟨(hreset b.unit).len_eq, (hreset b.unit).peek_eq⟩⟩

end Sys2Proof.Machine
end

section
/-! PROOFS. Taking an event off the agenda, acceptance of a command word, and the end of an illegal one. -/

namespace Sys2Proof.Machine

/-! ### The state without its oldest event -/

@[simp] theorem State.withAgenda_ctrl (s : State) (rest : List Event) (u : UnitId) :
    ({ s with agenda := rest } : State).ctrl u = s.ctrl u := by cases u <;> rfl

@[simp] theorem State.withAgenda_aux (s : State) (rest : List Event) (u : UnitId) :
    ({ s with agenda := rest } : State).aux u = s.aux u := by cases u <;> rfl

@[simp] theorem State.withAgenda_busy (s : State) (rest : List Event) (u : UnitId) :
    ({ s with agenda := rest } : State).busy u = s.busy u := by cases u <;> rfl

@[simp] theorem State.withAgenda_len (s : State) (rest : List Event) (b : Buf) :
    ({ s with agenda := rest } : State).len b = s.len b := by cases b <;> rfl

@[simp] theorem State.withAgenda_peek (s : State) (rest : List Event) (b : Buf) (i : Nat) :
    ({ s with agenda := rest } : State).peek b i = s.peek b i := by cases b <;> rfl

theorem State.withAgenda_sameUnit (s : State) (rest : List Event) (t : State) (u : UnitId) :
    ({ s with agenda := rest } : State).sameUnit t u ↔ s.sameUnit t u := by cases u <;> exact Iff.rfl

/-! ### Acceptance (10_state.md R35) -/

theorem State.accept_initialScratch (s : State) (u : UnitId) (w : Word) :
    (s.accept u w).initialScratch u := by cases u <;> rfl

theorem State.regWrite_cmd {s : State} {u : UnitId} (h : s.busy u = false) (w : Word) :
    s.regWrite u 0 w = s.accept u w := by
  obtain ⟨hbusy, -⟩ | ⟨-, -, heq⟩ | ⟨-, hzero, -⟩ := s.regWrite_cases u 0 w
  · exact absurd hbusy (by simp [h])
  · exact heq
  · exact absurd rfl hzero

theorem step_regWrite_cmd {s : State} {u : UnitId} {w : Word} {rest : List Event}
    (ha : s.agenda = .port (.regWrite u 0 w) :: rest) (hb : s.busy u = false) :
    step s = .next ({ s with agenda := rest }.accept u w) := by
  rw [step_cons ha, State.handle, State.port, State.regWrite_cmd (by simpa using hb)]

/-! ### Completion of a word that is not legal (60_exceptions.md R250) -/

theorem State.completeUnit_of_illegal {s : State} {u : UnitId}
    (h : ∀ i, decode u (s.ctrl u).cmd ≠ .ok i) : s.completeUnit u = .next (s.raise u illegal) := by
  obtain ⟨i, hi, -⟩ | ⟨_, -, heq⟩ := s.completeUnit_cases u
  · exact absurd hi (h i)
  · exact heq

theorem step_complete {s : State} {u : UnitId} {rest : List Event}
    (ha : s.agenda = .complete u :: rest) (hb : s.busy u = true) :
    step s = { s with agenda := rest }.completeUnit u := by
  rw [step_cons ha, State.handle, if_pos (by simpa using hb)]

theorem step_complete_illegal {s : State} {u : UnitId} {rest : List Event}
    (ha : s.agenda = .complete u :: rest) (hb : s.busy u = true)
    (hill : ∀ i, decode u (s.ctrl u).cmd ≠ .ok i) :
    step s = .next ({ s with agenda := rest }.raise u illegal) := by
  rw [step_complete ha hb, State.completeUnit_of_illegal (by simpa using hill)]

/-- Settles O6: the next state is acceptance, or error entry with `illegal`, in the state without the
event; the fields of each are read off its own lemmas. -/
theorem acceptance : Obligations.Acceptance := by
  refine ⟨fun s u w rest ha hb => ?_, fun s u rest ha hb hill => ?_⟩
  · refine ⟨_, step_regWrite_cmd ha hb, State.accept_ctrl_same _ u w, State.accept_initialScratch _ u w,
      fun b => ?_, fun v hv => ?_, ?_, ?_, ?_⟩
    · simp [State.sameBuf]
    · exact (State.withAgenda_sameUnit s rest _ v).mp (State.accept_sameUnit _ u w v hv)
    · simp
    · simp
    · simp
  · refine ⟨_, step_complete_illegal ha hb hill, ?_, ?_⟩
    · rw [State.raise_ctrl_same, Ctrl.raise_status, statusError]
    · rw [State.raise_ctrl_same, Ctrl.raise_err, illegal, Cause.code]

end Sys2Proof.Machine
end

section
/-! PROOFS. What a command leaves unchanged (20_memory.md R74): the buffers that are not its
destinations. -/

namespace Sys2Proof.Machine

/-! ### One buffer in two states -/

theorem State.sameBuf.trans {s t r : State} {b : Buf} (h : s.sameBuf t b) (h' : t.sameBuf r b) :
    s.sameBuf r b :=
  ⟨h.1.trans h'.1, fun i => (h.2 i).trans (h'.2 i)⟩

/-! ### Writing one destination leaves every other buffer alone (10_state.md R37) -/

section
variable (s : State) {b : Buf}

theorem RleUnit.writeSym_sameBuf (S : List Sym) (h : b ≠ .rleSym) :
    s.sameBuf { s with rle := s.rle.writeSym S } b := by
  cases b <;> first | exact absurd rfl h | exact ⟨rfl, fun _ => rfl⟩

theorem RleUnit.writeRun_sameBuf (R : List Run) (h : b ≠ .rleRun) :
    s.sameBuf { s with rle := s.rle.writeRun R } b := by
  cases b <;> first | exact absurd rfl h | exact ⟨rfl, fun _ => rfl⟩

theorem RleUnit.writeTxt_sameBuf (T : List Sym) (h : b ≠ .rleTxt) :
    s.sameBuf { s with rle := s.rle.writeTxt T } b := by
  cases b <;> first | exact absurd rfl h | exact ⟨rfl, fun _ => rfl⟩

theorem RleUnit.writeByt_sameBuf (B : List Byte) (h : b ≠ .rleByt) :
    s.sameBuf { s with rle := s.rle.writeByt B } b := by
  cases b <;> first | exact absurd rfl h | exact ⟨rfl, fun _ => rfl⟩

theorem HufUnit.writeSym_sameBuf (S : List Sym) (h : b ≠ .hufSym) :
    s.sameBuf { s with huf := s.huf.writeSym S } b := by
  cases b <;> first | exact absurd rfl h | exact ⟨rfl, fun _ => rfl⟩

theorem HufUnit.writeBit_sameBuf (c : Bits) (h : b ≠ .hufBit) :
    s.sameBuf { s with huf := s.huf.writeBit c } b := by
  cases b <;> first | exact absurd rfl h | exact ⟨rfl, fun _ => rfl⟩

theorem HufUnit.writeTab_sameBuf (C : List Entry) (h : b ≠ .hufTab) :
    s.sameBuf { s with huf := s.huf.writeTab C } b := by
  cases b <;> first | exact absurd rfl h | exact ⟨rfl, fun _ => rfl⟩

theorem HufUnit.writeByt_sameBuf (B : List Byte) (h : b ≠ .hufByt) :
    s.sameBuf { s with huf := s.huf.writeByt B } b := by
  cases b <;> first | exact absurd rfl h | exact ⟨rfl, fun _ => rfl⟩

theorem LzwUnit.writeSym_sameBuf (S : List Sym) (h : b ≠ .lzwSym) :
    s.sameBuf { s with lzw := s.lzw.writeSym S } b := by
  cases b <;> first | exact absurd rfl h | exact ⟨rfl, fun _ => rfl⟩

theorem LzwUnit.writeCod_sameBuf (K : List Word) (h : b ≠ .lzwCod) :
    s.sameBuf { s with lzw := s.lzw.writeCod K } b := by
  cases b <;> first | exact absurd rfl h | exact ⟨rfl, fun _ => rfl⟩

theorem LzwUnit.writeByt_sameBuf (B : List Byte) (h : b ≠ .lzwByt) :
    s.sameBuf { s with lzw := s.lzw.writeByt B } b := by
  cases b <;> first | exact absurd rfl h | exact ⟨rfl, fun _ => rfl⟩

end

/-! ### The end of a command changes no buffer (10_state.md R37; 60_exceptions.md R253) -/

section
variable (s : State) (b : Buf)

theorem RleUnit.ended_sameBuf (x : RleUnit) (status : Word) (k : Nat) :
    { s with rle := x }.sameBuf { s with rle := x.ended status k } b := by
  cases b <;> exact ⟨rfl, fun _ => rfl⟩

theorem RleUnit.failed_sameBuf (e : Report) (k : Nat) :
    s.sameBuf { s with rle := s.rle.failed e k } b := by
  cases b <;> exact ⟨rfl, fun _ => rfl⟩

theorem HufUnit.ended_sameBuf (x : HufUnit) (status : Word) (k : Nat) :
    { s with huf := x }.sameBuf { s with huf := x.ended status k } b := by
  cases b <;> exact ⟨rfl, fun _ => rfl⟩

theorem HufUnit.failed_sameBuf (e : Report) (k : Nat) :
    s.sameBuf { s with huf := s.huf.failed e k } b := by
  cases b <;> exact ⟨rfl, fun _ => rfl⟩

theorem LzwUnit.ended_sameBuf (x : LzwUnit) (status : Word) (k : Nat) :
    { s with lzw := x }.sameBuf { s with lzw := x.ended status k } b := by
  cases b <;> exact ⟨rfl, fun _ => rfl⟩

theorem LzwUnit.failed_sameBuf (e : Report) (k : Nat) :
    s.sameBuf { s with lzw := s.lzw.failed e k } b := by
  cases b <;> exact ⟨rfl, fun _ => rfl⟩

end

/-! ### A command changes no buffer but those its write changes -/

section
variable {α : Type} {s t : State} {i : Instr} {op : Nat → Except Report α × Nat}
  {limits : α → List Limit} {b : Buf}

theorem rleCommand_sameBuf {write : RleUnit → α → RleUnit}
    (h : rleCommand s i op limits write = .next t)
    (hw : ∀ a, s.sameBuf { s with rle := write s.rle a } b) : s.sameBuf t b := by
  obtain ⟨e, k, -, heq⟩ | ⟨a, k, -, heq⟩ := rleCommand_cases s i op limits write
  · cases heq.symm.trans h
    exact RleUnit.failed_sameBuf s b e k
  · cases heq.symm.trans h
    exact (hw a).trans (RleUnit.ended_sameBuf s b _ _ k)

theorem hufCommand_sameBuf {write : HufUnit → α → HufUnit}
    (h : hufCommand s i op limits write = .next t)
    (hw : ∀ a, s.sameBuf { s with huf := write s.huf a } b) : s.sameBuf t b := by
  obtain ⟨e, k, -, heq⟩ | ⟨a, k, -, heq⟩ := hufCommand_cases s i op limits write
  · cases heq.symm.trans h
    exact HufUnit.failed_sameBuf s b e k
  · cases heq.symm.trans h
    exact (hw a).trans (HufUnit.ended_sameBuf s b _ _ k)

theorem lzwCommand_sameBuf {write : LzwUnit → α → LzwUnit}
    (h : lzwCommand s i op limits write = .next t)
    (hw : ∀ a, s.sameBuf { s with lzw := write s.lzw a } b) : s.sameBuf t b := by
  obtain ⟨e, k, -, heq⟩ | ⟨a, k, -, heq⟩ := lzwCommand_cases s i op limits write
  · cases heq.symm.trans h
    exact LzwUnit.failed_sameBuf s b e k
  · cases heq.symm.trans h
    exact (hw a).trans (LzwUnit.ended_sameBuf s b _ _ k)

/-- Each command writes the buffers 30_encoding.md R96 names as its destinations and no other. -/
theorem exec_sameBuf (h : exec i s = .next t) (hb : b ∉ i.destinations) : s.sameBuf t b := by
  have hne : ∀ c ∈ i.destinations, b ≠ c := fun c hc hbc => hb (hbc ▸ hc)
  unfold exec at h
  cases i with
  | rleEnc => exact rleCommand_sameBuf h fun _ => RleUnit.writeRun_sameBuf s _ (hne _ (.head _))
  | rleDec | rleDecb | rleDecs =>
    exact rleCommand_sameBuf h fun _ => RleUnit.writeSym_sameBuf s _ (hne _ (.head _))
  | rleEncb => exact rleCommand_sameBuf h fun _ => RleUnit.writeByt_sameBuf s _ (hne _ (.head _))
  | rleEncs => exact rleCommand_sameBuf h fun _ => RleUnit.writeTxt_sameBuf s _ (hne _ (.head _))
  | hufEnc =>
    exact hufCommand_sameBuf h fun a =>
      (HufUnit.writeBit_sameBuf s a.bits (hne _ (.head _))).trans
        (HufUnit.writeTab_sameBuf _ a.table (hne _ (.tail _ (.head _))))
  | hufEncb => exact hufCommand_sameBuf h fun _ => HufUnit.writeByt_sameBuf s _ (hne _ (.head _))
  | hufDec | hufDecb =>
    exact hufCommand_sameBuf h fun _ => HufUnit.writeSym_sameBuf s _ (hne _ (.head _))
  | lzwEnc => exact lzwCommand_sameBuf h fun _ => LzwUnit.writeCod_sameBuf s _ (hne _ (.head _))
  | lzwEncb => exact lzwCommand_sameBuf h fun _ => LzwUnit.writeByt_sameBuf s _ (hne _ (.head _))
  | lzwDec | lzwDecb =>
    exact lzwCommand_sameBuf h fun _ => LzwUnit.writeSym_sameBuf s _ (hne _ (.head _))

end

theorem Instr.sources_not_destinations (i : Instr) : ∀ b ∈ i.sources, b ∉ i.destinations := by
  cases i <;> decide

/-- Settles O12: the buffers outside a command's destinations are those its writes leave alone. -/
theorem onlyDestinationsChange : Obligations.OnlyDestinationsChange :=
  ⟨fun _ _ _ _ h hb => exec_sameBuf h hb, Instr.sources_not_destinations⟩

end Sys2Proof.Machine
end

section
/-! PROOFS. The bit-packer (41_huffman.md R169, R170; 20_memory.md R62): the bits of a byte sequence, one by
one, and packing as their inverse. -/

namespace Sys2Proof.Machine

/-! ### The bits of a byte sequence -/

theorem byteBits_getElem? (b : Byte) {j : Nat} (h : j < 8) :
    (byteBits b)[j]? = some (b.getLsbD (7 - j)) := by
  interval_cases j <;> rfl

@[simp] theorem flatMap_byteBits_length (P : List Byte) :
    (P.flatMap byteBits).length = 8 * P.length := by
  simp [List.length_flatMap, Nat.mul_comm]

theorem flatMap_byteBits_getElem? (P : List Byte) (j : Nat) :
    (P.flatMap byteBits)[j]? = (P[j / 8]?).map (fun b => b.getLsbD (7 - j % 8)) := by
  induction P generalizing j with
  | nil => rfl
  | cons b P ih =>
    rw [List.flatMap_cons]
    by_cases h : j < 8
    · rw [List.getElem?_append_left h, byteBits_getElem? b h, Nat.div_eq_of_lt h,
        Nat.mod_eq_of_lt h]
      rfl
    · obtain ⟨k, rfl⟩ := Nat.exists_eq_add_of_le' (not_lt.mp h)
      rw [List.getElem?_append_right (by simp), byteBits_length, Nat.add_sub_cancel, ih,
        Nat.add_div_right k (by decide), Nat.add_mod_right, List.getElem?_cons_succ]

/-! ### Packing whole bytes -/

theorem byteBits_packed : ∀ b7 b6 b5 b4 b3 b2 b1 b0 : Bool,
    byteBits (BitVec.ofNat 8 (bitVal b7 128 + bitVal b6 64 + bitVal b5 32 + bitVal b4 16
      + bitVal b3 8 + bitVal b2 4 + bitVal b1 2 + bitVal b0 1)) = [b7, b6, b5, b4, b3, b2, b1, b0] := by
  decide

/-- Whole bytes of a bitstring have the bits of the bitstring. -/
theorem flatMap_byteBits_packBytes (bits : Bits) (h : bits.length % 8 = 0) :
    (packBytes bits).flatMap byteBits = bits := by
  induction bits using packBytes.induct with
  | case1 b7 b6 b5 b4 b3 b2 b1 b0 bits ih =>
    rw [packBytes, List.flatMap_cons, byteBits_packed,
      ih (by simp only [List.length_cons] at h; omega)]
    rfl
  | case2 bits hfew =>
    rcases bits with _ | ⟨b7, _ | ⟨b6, _ | ⟨b5, _ | ⟨b4, _ | ⟨b3, _ | ⟨b2, _ | ⟨b1, _ | ⟨b0, bits⟩⟩⟩⟩⟩⟩⟩⟩
    rotate_right
    · exact (hfew b7 b6 b5 b4 b3 b2 b1 b0 bits rfl).elim
    · rfl
    all_goals simp at h

/-! ### Padding (41_huffman.md R169) -/

theorem padded_eq_append (bits : Bits) :
    ∃ n, padded bits = bits ++ List.replicate n false ∧
      bits.length + n = 8 * ((bits.length + 7) / 8) := by
  unfold padded
  split
  next h => exact ⟨0, by simp, by unfold padOf at h; omega⟩
  next h => exact ⟨padOf bits, rfl, by unfold padOf at h ⊢; omega⟩

@[simp] theorem padded_length (bits : Bits) :
    (padded bits).length = 8 * ((bits.length + 7) / 8) := by
  obtain ⟨n, heq, hn⟩ := padded_eq_append bits
  simp [heq, hn]

theorem padded_getElem? (bits : Bits) {j : Nat} (h : j < (padded bits).length) :
    (padded bits)[j]? = some ((bits[j]?).getD false) := by
  obtain ⟨n, heq, -⟩ := padded_eq_append bits
  rw [heq] at h ⊢
  by_cases hj : j < bits.length
  · simp [List.getElem?_append_left hj, hj]
  · have hn : j - bits.length < n := by simp at h; omega
    simp [List.getElem?_append_right (not_lt.mp hj), hn, not_lt.mp hj]

/-! ### `bit_pack` and `bit_unpack` -/

/-- The packed bytes have the bits of the padded bitstring. -/
theorem flatMap_byteBits_bitPack (bits : Bits) :
    (bitPack bits).2.flatMap byteBits = padded bits :=
  flatMap_byteBits_packBytes _ (by simp)

@[simp] theorem bitPack_length (bits : Bits) :
    (bitPack bits).2.length = (bits.length + 7) / 8 := by
  have h := congrArg List.length (flatMap_byteBits_bitPack bits)
  simp only [flatMap_byteBits_length, padded_length] at h
  omega

/-- All bits of the bytes but the last `pad`, none stripped when `pad` is 8. -/
theorem bitUnpack_eq_take (pad : Nat) (P : List Byte) :
    bitUnpack pad P = (P.flatMap byteBits).take (8 * P.length - if pad = 8 then 0 else pad) := by
  unfold bitUnpack
  split
  · exact (List.take_of_length_le (flatMap_byteBits_length P).le).symm
  · rfl

@[simp] theorem bitUnpack_length (pad : Nat) (P : List Byte) :
    (bitUnpack pad P).length = 8 * P.length - if pad = 8 then 0 else pad := by
  rw [bitUnpack_eq_take, List.length_take, flatMap_byteBits_length, min_eq_left (Nat.sub_le _ _)]

/-- Settles O51: the bits of the packed bytes are the padded bitstring, those of an unpacked bitstring a
prefix of the bits of the bytes. -/
theorem bitPacker : Obligations.BitPacker := by
  refine ⟨fun bits => ⟨rfl, ?_, Nat.sub_le _ _, bitPack_length bits, fun j hj => ?_⟩,
    fun pad P _ _ _ => ⟨bitUnpack_length pad P, fun j hj => ?_⟩⟩
  · have := Nat.mod_lt bits.length (y := 8) (by decide)
    simp only [bitPack, padOf]
    omega
  · rw [← flatMap_byteBits_getElem?, flatMap_byteBits_bitPack,
      padded_getElem? bits (by simpa using hj)]
  · rw [bitUnpack_length] at hj
    rw [bitUnpack_eq_take, List.getElem?_take_of_lt hj, flatMap_byteBits_getElem?]

end Sys2Proof.Machine
end

section
/-! PROOFS. The command word (30_encoding.md R90 to R95): the legal words of a unit are the words of its
commands. -/

namespace Sys2Proof

/-! ### The fields of a word (R91) -/

/-- The three fields cover the 32 bits of a word. -/
theorem word_ext_fields {w v : Word} (hz : zeroField w = zeroField v) (hu : unitField w = unitField v)
    (hf : funcField w = funcField v) : w = v := by
  have hz := congrArg BitVec.toNat hz
  have hu := congrArg BitVec.toNat hu
  have hf := congrArg BitVec.toNat hf
  simp only [zeroField, unitField, funcField, BitVec.extractLsb'_toNat,
    Nat.shiftRight_eq_div_pow] at hz hu hf
  exact BitVec.eq_of_toNat_eq (by omega)

theorem unitOfNumber_inj {n m : Nat} {u : UnitId} (hn : unitOfNumber n = some u)
    (hm : unitOfNumber m = some u) : n = m := by
  unfold unitOfNumber at hn hm
  split at hn <;> cases hn <;> (split at hm <;> cases hm; rfl)

/-! ### The commands of a unit (R92) -/

theorem instrOfFunc_unit {u : UnitId} {n : Nat} {i : Instr} (h : instrOfFunc u n = some i) :
    i.unit = u := by
  unfold instrOfFunc at h
  split at h <;> cases h <;> rfl

theorem instrOfFunc_inj {u : UnitId} {n m : Nat} {i : Instr} (hn : instrOfFunc u n = some i)
    (hm : instrOfFunc u m = some i) : n = m := by
  unfold instrOfFunc at hn
  split at hn <;> cases hn <;> (unfold instrOfFunc at hm; split at hm <;> cases hm; rfl)

/-- The greatest `func` of a unit. -/
def lastFunc : UnitId → Nat
  | .rle => 5
  | .huf => 3
  | .lzw => 3

theorem exists_instrOfFunc_iff (u : UnitId) (n : Nat) :
    (∃ i, instrOfFunc u n = some i) ↔ n ≤ lastFunc u := by
  constructor
  · rintro ⟨i, h⟩
    unfold instrOfFunc at h
    split at h <;> cases h <;> decide
  · intro h
    cases u <;> (simp only [lastFunc] at h; interval_cases n <;> exact ⟨_, rfl⟩)

theorem encodedFields : ∀ i : Instr, Laws.EncodedFields.Statement i
  | .rleEnc => Laws.EncodedFields.rleEnc
  | .rleDec => Laws.EncodedFields.rleDec
  | .rleEncb => Laws.EncodedFields.rleEncb
  | .rleDecb => Laws.EncodedFields.rleDecb
  | .rleEncs => Laws.EncodedFields.rleEncs
  | .rleDecs => Laws.EncodedFields.rleDecs
  | .hufEnc => Laws.EncodedFields.hufEnc
  | .hufDec => Laws.EncodedFields.hufDec
  | .hufEncb => Laws.EncodedFields.hufEncb
  | .hufDecb => Laws.EncodedFields.hufDecb
  | .lzwEnc => Laws.EncodedFields.lzwEnc
  | .lzwDec => Laws.EncodedFields.lzwDec
  | .lzwEncb => Laws.EncodedFields.lzwEncb
  | .lzwDecb => Laws.EncodedFields.lzwDecb

/-- The four ways a word is illegal, excluded one by one (R94). -/
theorem decode_eq_ok_iff_fields (u : UnitId) (w : Word) (i : Instr) :
    decode u w = .ok i ↔ zeroField w = 0 ∧ unitOfNumber (unitField w).toNat = some u ∧
      instrOfFunc u (funcField w).toNat = some i := by
  unfold decode
  split
  · simp_all
  · split
    · simp_all
    · split
      · simp_all
      · split <;> simp_all

/-- `decode` inverts `encode`: both words have the same three fields. -/
theorem decode_eq_ok_iff_encode (u : UnitId) (w : Word) (i : Instr) :
    decode u w = .ok i ↔ i.unit = u ∧ w = encode i := by
  obtain ⟨hzero, hunit, hfunc, -, hdecode, -⟩ := encodedFields i
  constructor
  · intro h
    obtain ⟨hz, hu, hf⟩ := (decode_eq_ok_iff_fields u w i).mp h
    obtain rfl := instrOfFunc_unit hf
    exact ⟨rfl, word_ext_fields (hz.trans hzero.symm) (BitVec.eq_of_toNat_eq (unitOfNumber_inj hu hunit))
      (BitVec.eq_of_toNat_eq (instrOfFunc_inj hf hfunc))⟩
  · rintro ⟨rfl, rfl⟩
    exact hdecode

theorem exists_decode_iff (u : UnitId) (w : Word) : (∃ i, decode u w = .ok i) ↔
    zeroField w = 0 ∧ unitOfNumber (unitField w).toNat = some u ∧
    (funcField w).toNat ≤ lastFunc u := by
  simp only [decode_eq_ok_iff_fields, exists_and_left, exists_instrOfFunc_iff]

/-- Settles O2: a word is legal when its fields are those of a command of the unit, and a command's word
has no other fields. -/
theorem legalWordsAreTheFourteen : Obligations.LegalWordsAreTheFourteen := by
  refine ⟨decode_eq_ok_iff_encode, exists_decode_iff, by decide, fun i => ?_⟩
  obtain ⟨-, -, -, hbit, -⟩ := encodedFields i
  exact hbit

end Sys2Proof
end

section
/-! PROOFS. The counted-text form of RLE (30_encoding.md R97; 40_rle.md R136, R138): decimal counts and
the scan over tokens. -/

namespace Sys2Proof.Machine

/-! ### Digits -/

theorem isDigit_iff (s : Sym) : isDigit s = true ↔ 0x30 ≤ s.toNat ∧ s.toNat ≤ 0x39 :=
  decide_eq_true_iff

theorem digitSym_toNat {d : Nat} (h : d < 10) : (digitSym d).toNat = 0x30 + d := by
  simp only [digitSym, BitVec.toNat_ofNat]
  omega

theorem isDigit_digitSym {d : Nat} (h : d < 10) : isDigit (digitSym d) = true := by
  rw [isDigit_iff, digitSym_toNat h]
  omega

theorem digitVal_digitSym {d : Nat} (h : d < 10) : digitVal (digitSym d) = d := by
  rw [digitVal, digitSym_toNat h, Nat.add_sub_cancel_left]

theorem digitSym_ne_zero {d : Nat} (h : d < 10) (h0 : d ≠ 0) : digitSym d ≠ 0x30 := by
  intro heq
  exact h0 ((digitVal_digitSym h).symm.trans (congrArg digitVal heq))

/-! ### `decimal(n)` -/

theorem decimalFrom_eq_digits (fuel n : Nat) (acc : List Sym) (h : n ≤ fuel) :
    decimalFrom fuel n acc = ((Nat.digits 10 n).map digitSym).reverse ++ acc := by
  induction fuel generalizing n acc with
  | zero => simp [decimalFrom, Nat.le_zero.mp h]
  | succ fuel ih =>
    rw [decimalFrom]
    split
    next h0 => simp [h0]
    next h0 =>
      rw [ih _ _ (by omega), Nat.digits_def' (by decide) (Nat.pos_of_ne_zero h0)]
      simp

/-- The decimal digits of `n`, the most significant first. -/
theorem decimal_eq_digits (n : Nat) : decimal n = ((Nat.digits 10 n).map digitSym).reverse := by
  rw [decimal, decimalFrom_eq_digits n n [] le_rfl, List.append_nil]

theorem decimal_ne_nil {n : Nat} (h : 1 ≤ n) : decimal n ≠ [] := by
  simpa [decimal_eq_digits, Nat.digits_eq_nil_iff_eq_zero] using Nat.one_le_iff_ne_zero.mp h

theorem isDigit_of_mem_decimal {n : Nat} {d : Sym} (h : d ∈ decimal n) : isDigit d = true := by
  rw [decimal_eq_digits, List.mem_reverse, List.mem_map] at h
  obtain ⟨k, hk, rfl⟩ := h
  exact isDigit_digitSym (Nat.digits_lt_base (by decide) hk)

theorem digitsValue_reverse_digitSym (ds : List Nat) (h : ∀ d ∈ ds, d < 10) :
    digitsValue (ds.map digitSym).reverse = Nat.ofDigits 10 ds := by
  rw [digitsValue, List.foldl_reverse]
  induction ds with
  | nil => rfl
  | cons d ds ih =>
    obtain ⟨hd, hds⟩ := List.forall_mem_cons.mp h
    rw [List.map_cons, List.foldr_cons, ih hds, digitVal_digitSym hd, Nat.ofDigits_cons]
    simp [Nat.add_comm, Nat.mul_comm]

theorem digitsValue_decimal (n : Nat) : digitsValue (decimal n) = n := by
  rw [decimal_eq_digits, digitsValue_reverse_digitSym _ fun _ => Nat.digits_lt_base (by decide),
    Nat.ofDigits_digits]

/-- No leading zero: the last of the library's digits is not 0. -/
theorem decimal_head?_ne_zero {n : Nat} (h : 1 ≤ n) : (decimal n).head? ≠ some 0x30 := by
  have hne : Nat.digits 10 n ≠ [] := Nat.digits_ne_nil_iff_ne_zero.mpr (Nat.one_le_iff_ne_zero.mp h)
  rw [decimal_eq_digits, List.head?_reverse, List.getLast?_map, List.getLast?_eq_some_getLast hne]
  simpa using digitSym_ne_zero (Nat.digits_lt_base (by decide) (List.getLast_mem hne))
    (Nat.getLast_digit_ne_zero 10 (Nat.one_le_iff_ne_zero.mp h))

/-! ### The counts of the run-list -/

theorem rleStep_cnt_pos {R : List SymCount} (h : ∀ r ∈ R, 1 ≤ r.cnt) (c : Sym) :
    ∀ r ∈ rleStep R c, 1 ≤ r.cnt := by
  unfold rleStep
  split
  · simp
  · split <;> simp_all

theorem rleRuns_cnt_pos (S : List Sym) : ∀ r ∈ rleRuns S, 1 ≤ r.cnt := by
  intro r hr
  exact List.foldlRecOn (motive := fun R => ∀ r ∈ R, 1 ≤ r.cnt) S rleStep (by simp [RleScratch.init])
    (fun _ hR c _ => rleStep_cnt_pos hR c) r (List.mem_reverse.mp hr)

/-! ### The scan over a text (40_rle.md R138) -/

/-- The run a token stands for. -/
def Token.run (t : Token) : SymCount where
  sym := t.sym
  cnt := digitsValue t.digits

/-- Digits extend the count of the current token. -/
theorem textTokensFrom_digits (D T : List Sym) (i : Nat) (x : TextScratch)
    (hD : ∀ d ∈ D, isDigit d = true) :
    textTokensFrom i x (D ++ T) =
      textTokensFrom (i + D.length)
        ⟨x.start, D.foldl (fun n d => n * 10 + digitVal d) x.cnt, x.nd + D.length⟩ T := by
  induction D generalizing i x with
  | nil => rfl
  | cons d D ih =>
    obtain ⟨hd, hD⟩ := List.forall_mem_cons.mp hD
    rw [List.cons_append, textTokensFrom, if_pos hd, ih _ _ hD, List.length_cons, List.foldl_cons]
    simp only [Nat.add_assoc, Nat.add_comm 1]

/-- Digits at the beginning of a token. -/
theorem textTokensFrom_init_digits (D T : List Sym) (i : Nat) (hD : ∀ d ∈ D, isDigit d = true) :
    textTokensFrom i (.init i) (D ++ T) =
      textTokensFrom (i + D.length) ⟨i, digitsValue D, D.length⟩ T := by
  rw [textTokensFrom_digits D T i _ hD]
  simp [TextScratch.init, RleScratch.init, digitsValue]

theorem textTokensFrom_token {t : Token} (ht : t.ok) (T : List Sym) (i : Nat) :
    textTokensFrom i (.init i) (t.text ++ T) =
      (textTokensFrom (i + t.text.length) (.init (i + t.text.length)) T).map (t.run :: ·) := by
  obtain ⟨hne, hdigits, hsym⟩ := ht
  rw [Token.text, List.append_assoc, textTokensFrom_init_digits _ _ _ hdigits, List.singleton_append,
    textTokensFrom, if_neg (by simp [hsym]), if_neg (by simpa using hne), List.length_append,
    List.length_singleton, ← Nat.add_assoc]
  split <;> simp_all [Except.map, Token.run]

theorem textTokensFrom_tokens (ts : List Token) (hts : ∀ t ∈ ts, t.ok) (T : List Sym) (i : Nat) :
    textTokensFrom i (.init i) (ts.flatMap Token.text ++ T) =
      (textTokensFrom (i + (ts.flatMap Token.text).length)
        (.init (i + (ts.flatMap Token.text).length)) T).map (ts.map Token.run ++ ·) := by
  induction ts generalizing i with
  | nil => cases h : textTokensFrom i (.init i) T <;> simp [h, Except.map]
  | cons t ts ih =>
    obtain ⟨ht, hts⟩ := List.forall_mem_cons.mp hts
    rw [List.flatMap_cons, List.append_assoc, textTokensFrom_token ht, ih hts, List.length_append,
      Nat.add_assoc]
    cases textTokensFrom _ _ T <;> rfl

/-! ### Decoding a text -/

theorem rleTextDec_tokens (ts : List Token) (hts : ∀ t ∈ ts, t.ok) :
    rleTextDec (ts.flatMap Token.text) =
      .ok (ts.flatMap (fun t => List.replicate (digitsValue t.digits) t.sym)) := by
  have h := textTokensFrom_tokens ts hts [] 0
  rw [List.append_nil] at h
  rw [rleTextDec, rleTextTokens, h]
  simp [textTokensFrom, TextScratch.init, Except.map, rleExpand, List.flatMap_map, Token.run]

/-- An error after whole tokens is the error of the text. -/
theorem rleTextDec_tokens_append_error {ts : List Token} (hts : ∀ t ∈ ts, t.ok) {T : List Sym}
    {e : Report} (h : textTokensFrom (ts.flatMap Token.text).length
      (.init (ts.flatMap Token.text).length) T = .error e) :
    rleTextDec (ts.flatMap Token.text ++ T) = .error e := by
  rw [rleTextDec, rleTextTokens, textTokensFrom_tokens ts hts, Nat.zero_add, h]
  rfl

theorem textTokensFrom_init_only_digits {D : List Sym} (hne : D ≠ []) (hD : ∀ d ∈ D, isDigit d = true)
    (i : Nat) : textTokensFrom i (.init i) D = .error (malformed i) := by
  rw [← List.append_nil D, textTokensFrom_init_digits _ _ _ hD, textTokensFrom, if_neg (by simpa using hne)]

theorem textTokensFrom_init_no_count {c : Sym} (hc : isDigit c = false) (T : List Sym) (i : Nat) :
    textTokensFrom i (.init i) (c :: T) = .error (malformed i) := by
  rw [textTokensFrom, if_neg (by simp [hc])]
  exact if_pos rfl

/-- Settles O42: the scan takes the whole tokens one by one, and what follows them decides the rest. -/
theorem textTokens : Obligations.TextTokens :=
  ⟨isDigit_iff,
    fun n hn => ⟨decimal_ne_nil hn, fun _ => isDigit_of_mem_decimal, digitsValue_decimal n,
      decimal_head?_ne_zero hn⟩,
    fun S => ⟨rfl, rleRuns_cnt_pos S⟩,
    fun ts hts => ⟨rleTextDec_tokens ts hts,
      fun _ hne hD =>
        rleTextDec_tokens_append_error hts (textTokensFrom_init_only_digits hne hD _),
      fun _ T hc => rleTextDec_tokens_append_error hts (textTokensFrom_init_no_count hc T _)⟩⟩

end Sys2Proof.Machine
end

section
/-! PROOFS. The outcomes of a command of RLE: each has one source, which is checked before the operation
and the limits on its result (60_exceptions.md R249, R252). -/

namespace Sys2Proof.Machine

/-! ### The limits -/

theorem State.sourceOverflow_of_sources_eq {s : State} {i : Instr} {b : Buf} (hi : i.sources = [b]) :
    s.sourceOverflow i = if s.cfg.cap b < (s.len b).toNat then some b.id else none := by
  rw [State.sourceOverflow, hi, List.map_singleton, leastExceeded_single]
  rfl

theorem leastExceeded_single_none {l : Limit} (h : l.need ≤ l.cap) : leastExceeded [l] = none :=
  (leastExceeded_none _).mpr (List.forall_mem_singleton.mpr h)

theorem leastExceeded_single_some {l : Limit} (h : l.cap < l.need) :
    leastExceeded [l] = some l.id :=
  (leastExceeded_single l).trans (if_pos h)

theorem leastExceeded_pair_none {l m : Limit} (hl : l.need ≤ l.cap) (hm : m.need ≤ m.cap) :
    leastExceeded [l, m] = none :=
  (leastExceeded_none _).mpr (List.forall_mem_cons.mpr ⟨hl, List.forall_mem_singleton.mpr hm⟩)

/-! ### The `EMPTY` flag (10_state.md R27) -/

theorem statusDone_emptyFlag {w : Word} {p : Prop} [Decidable p] (h : w = 0 ↔ p) :
    statusDone (emptyFlag w) = doneWord p := by
  simp only [statusDone, emptyFlag, doneWord, decide_eq_true_eq, h]

/-- A length register that holds the length of a sequence within a capacity is 0 for the empty sequence
only. -/
theorem ofNat_length_eq_zero_iff {α : Type} {c : Config} (hc : c.wellFormed = true) (b : Buf)
    {xs : List α} (h : xs.length ≤ c.cap b) : BitVec.ofNat 32 xs.length = 0 ↔ xs = [] := by
  rw [← BitVec.toNat_inj, toNat_ofNat_of_le_cap hc b h]
  exact List.length_eq_zero_iff

/-! ### The four outcomes -/

section
variable {α : Type} {s : State} {i : Instr} {b : Buf} {op : Nat → Except Report α × Nat}
  {limits : α → List Limit} {write : RleUnit → α → RleUnit} {a : α} {k : Nat}
  (hi : i.sources = [b])
include hi

theorem rleCommand_sourceTooLong (h : s.cfg.cap b < (s.len b).toNat) :
    rleCommand s i op limits write =
      .next { s with rle := s.rle.failed (tooLong b.id) s.rle.aux.free } := by
  apply rleCommand_error
  rw [State.sourceOverflow_of_sources_eq hi, if_pos h, byPriority_overflow]

variable (h : (s.len b).toNat ≤ s.cfg.cap b)
include h

theorem rleCommand_opError {e : Report} (hop : op s.rle.aux.free = (.error e, k)) :
    rleCommand s i op limits write = .next { s with rle := s.rle.failed e k } := by
  apply rleCommand_error
  rw [State.sourceOverflow_of_sources_eq hi, if_neg (not_lt.mpr h), byPriority_error hop]

theorem rleCommand_resultTooLong {id : Nat} (hop : op s.rle.aux.free = (.ok a, k))
    (hl : leastExceeded (limits a) = some id) :
    rleCommand s i op limits write = .next { s with rle := s.rle.failed (tooLong id) k } := by
  apply rleCommand_error
  rw [State.sourceOverflow_of_sources_eq hi, if_neg (not_lt.mpr h), byPriority_tooLong hop hl]

theorem rleCommand_done {p : Prop} [Decidable p] (hop : op s.rle.aux.free = (.ok a, k))
    (hl : leastExceeded (limits a) = none) (hp : (write s.rle a).symLen = 0 ↔ p) :
    rleCommand s i op limits write =
      .next { s with rle := (write s.rle a).ended (doneWord p) k } := by
  rw [← statusDone_emptyFlag hp]
  apply rleCommand_ok
  rw [State.sourceOverflow_of_sources_eq hi, if_neg (not_lt.mpr h), byPriority_ok hop hl]

end

end Sys2Proof.Machine
end

section
/-! PROOFS. The six commands of RLE (40_rle.md R131 to R139). -/

namespace Sys2Proof.Machine

/-! ### Expansion (40_rle.md R132, R133) -/

@[simp] theorem rleExpand_length (R : List SymCount) : (rleExpand R).length = runTotal R := by
  simp [rleExpand, runTotal, List.length_flatMap]

/-- Runs that pass the invariant check have no count 0. -/
theorem rleExpand_eq_nil_iff_of_checkRuns {R : List SymCount} (h : checkRuns R = .ok ()) :
    rleExpand R = [] ↔ R = [] := by
  cases R with
  | nil => simp [rleExpand]
  | cons r R =>
    have hcnt : r.cnt ≠ 0 := by
      intro h0
      rw [checkRuns, checkRunsFrom, if_pos h0] at h
      cases h
    simp [rleExpand, hcnt]

/-- `SYM_LEN` after an expansion that fits. -/
theorem RleUnit.writeSym_rleExpand_symLen_eq_zero_iff {c : Config} (hc : c.wellFormed = true)
    (x : RleUnit) {R : List SymCount} (h : runTotal R ≤ c.capSym) :
    (x.writeSym (rleExpand R)).symLen = 0 ↔ rleExpand R = [] := by
  rw [RleUnit.writeSym_symLen]
  exact ofNat_length_eq_zero_iff hc .rleSym ((rleExpand_length R).trans_le h)

/-! ### Decoding a text (40_rle.md R138) -/

theorem rleTextDec_eq_error_iff {T : List Sym} {e : Report} :
    rleTextDec T = .error e ↔ rleTextTokens T = .error e := by
  unfold rleTextDec
  cases rleTextTokens T <;> simp [Except.map]

theorem rleTextDec_eq_ok_iff {T S : List Sym} :
    rleTextDec T = .ok S ↔ ∃ R, rleTextTokens T = .ok R ∧ rleExpand R = S := by
  unfold rleTextDec
  cases rleTextTokens T <;> simp [Except.map]

/-! ### The decoders -/

/-- Settles O28: the expansion is as long as the sum of the counts, which is what is held to `CAP_SYM`. -/
theorem rleDecResult : Obligations.RleDecResult := by
  simp only [Obligations.RleDecResult, exec, execRleDec]
  have hi : Instr.rleDec.sources = [.rleRun] := rfl
  refine ⟨rfl, fun s h => rleCommand_sourceTooLong hi h, fun s R k hc h hread =>
    ⟨fun hfit => ?_, fun hlong => ?_⟩⟩
  · exact rleCommand_done hi h (by simp only [hread]) (leastExceeded_single_none hfit)
      (RleUnit.writeSym_rleExpand_symLen_eq_zero_iff hc _ hfit)
  · exact rleCommand_resultTooLong hi h (by simp only [hread]) (leastExceeded_single_some hlong)

/-- Settles O30: the operation's error is the parse's, else the check's; runs that pass both are expanded,
and only the empty run-list expands to nothing. -/
theorem rleDecbResult : Obligations.RleDecbResult := by
  simp only [Obligations.RleDecbResult, exec, execRleDecb]
  have hi : Instr.rleDecb.sources = [.rleByt] := rfl
  refine ⟨rfl, fun s h => rleCommand_sourceTooLong hi h, fun s B k hc h hread =>
    ⟨fun e hparse => ?_, fun R e hparse hcheck => ?_, fun R hparse hcheck hrun hsym => ?_,
      fun R id hparse hcheck hid => ?_⟩⟩
  · exact rleCommand_opError hi h (by simp only [hread, hparse, bind, Except.bind])
  · exact rleCommand_opError hi h (by simp only [hread, hparse, hcheck, bind, Except.bind])
  · exact rleCommand_done hi h
      (by simp only [hread, hparse, hcheck, bind, Except.bind, pure, Except.pure])
      (leastExceeded_pair_none hrun hsym)
      ((RleUnit.writeSym_rleExpand_symLen_eq_zero_iff hc _ hsym).trans
        (rleExpand_eq_nil_iff_of_checkRuns hcheck))
  · exact rleCommand_resultTooLong hi h
      (by simp only [hread, hparse, hcheck, bind, Except.bind, pure, Except.pure]) hid

/-- Settles O32: the scan answers runs; the decoded symbols are their expansion, as long as the sum of the
counts. -/
theorem rleDecsResult : Obligations.RleDecsResult := by
  simp only [Obligations.RleDecsResult, exec, execRleDecs]
  have hi : Instr.rleDecs.sources = [.rleTxt] := rfl
  refine ⟨rfl, fun s h => rleCommand_sourceTooLong hi h, fun s T k hc h hread =>
    ⟨fun e he => ?_, fun S hS hfit => ?_, fun S hS hlong => ?_⟩⟩
  · rw [rleTextDec_eq_error_iff] at he
    exact rleCommand_opError hi h (by simp only [hread, he])
  · obtain ⟨R, hR, rfl⟩ := rleTextDec_eq_ok_iff.mp hS
    rw [rleExpand_length] at hfit
    exact rleCommand_done hi h (by simp only [hread, hR]) (leastExceeded_single_none hfit)
      (RleUnit.writeSym_rleExpand_symLen_eq_zero_iff hc _ hfit)
  · obtain ⟨R, hR, rfl⟩ := rleTextDec_eq_ok_iff.mp hS
    rw [rleExpand_length] at hlong
    exact rleCommand_resultTooLong hi h (by simp only [hread, hR]) (leastExceeded_single_some hlong)

/-! ### The encoders: none writes `SYM_LEN`, so `EMPTY` is that of the source -/

/-- Settles O27: the runs are the result; `RUN` is the one buffer they are held to. -/
theorem rleEncResult : Obligations.RleEncResult := by
  simp only [Obligations.RleEncResult, exec, execRleEnc]
  have hi : Instr.rleEnc.sources = [.rleSym] := rfl
  refine ⟨rfl, fun s h => rleCommand_sourceTooLong hi h, fun s S k h hread =>
    ⟨fun hfit => ?_, fun hlong => ?_⟩⟩
  · rw [← List.length_map (as := rleRuns S) SymCount.stored]
    exact rleCommand_done hi h (by simp only [hread]) (leastExceeded_single_none hfit) Iff.rfl
  · exact rleCommand_resultTooLong hi h (by simp only [hread]) (leastExceeded_single_some hlong)

/-- Settles O29: the container of the runs has `8 + 8 * len` bytes, the second limit. -/
theorem rleEncbResult : Obligations.RleEncbResult := by
  simp only [Obligations.RleEncbResult, exec, execRleEncb]
  have hi : Instr.rleEncb.sources = [.rleSym] := rfl
  refine ⟨rfl, fun s h => rleCommand_sourceTooLong hi h, fun s S k h hread =>
    ⟨fun hrun hbyt => ?_, fun id hid => ?_⟩⟩
  · rw [← serHcr1_length (rleRuns S)]
    exact rleCommand_done hi h (by simp only [hread]) (leastExceeded_pair_none hrun hbyt) Iff.rfl
  · exact rleCommand_resultTooLong hi h (by simp only [hread]) hid

/-- Settles O31: the text is the result, the runs it was made from the first limit. -/
theorem rleEncsResult : Obligations.RleEncsResult := by
  simp only [Obligations.RleEncsResult, exec, execRleEncs]
  have hi : Instr.rleEncs.sources = [.rleSym] := rfl
  refine ⟨rfl, fun s h => rleCommand_sourceTooLong hi h, fun s S k h hread =>
    ⟨fun hrun htxt => ?_, fun id hid => ?_⟩⟩
  · exact rleCommand_done hi h (by simp only [hread]) (leastExceeded_pair_none hrun htxt) Iff.rfl
  · exact rleCommand_resultTooLong hi h (by simp only [hread]) hid

end Sys2Proof.Machine
end

section
/-! PROOFS. The frequency table (41_huffman.md R161, R162): written out symbol by symbol, as often as each
counts, it is the stream in another order. -/

namespace Sys2Proof.Machine

/-! ### One more occurrence -/

theorem mem_syms_freqAdd (c d : Sym) (F : List SymCount) :
    d ∈ (freqAdd c F).map SymCount.sym ↔ d = c ∨ d ∈ F.map SymCount.sym := by
  induction F with
  | nil => simp [freqAdd]
  | cons e F ih =>
    rw [freqAdd]
    split
    · simp
    · split
      next hc => simp [hc]
      next => rw [List.map_cons, List.mem_cons, ih, List.map_cons, List.mem_cons, or_left_comm]

theorem freqTableOk_cons {e : SymCount} {F : List SymCount} : freqTableOk (e :: F) ↔
    1 ≤ e.cnt ∧ (∀ d ∈ F.map SymCount.sym, e.sym.toNat < d.toNat) ∧ freqTableOk F := by
  simp only [freqTableOk, List.forall_mem_cons, List.pairwise_cons, List.forall_mem_map]
  exact ⟨fun ⟨⟨hpos, hpos'⟩, hlt, hF⟩ => ⟨hpos, hlt, hpos', hF⟩,
    fun ⟨hpos, hlt, hpos', hF⟩ => ⟨⟨hpos, hpos'⟩, hlt, hF⟩⟩

theorem freqAdd_freqTableOk (c : Sym) {F : List SymCount} (h : freqTableOk F) :
    freqTableOk (freqAdd c F) := by
  induction F with
  | nil => simp [freqAdd, freqTableOk]
  | cons e F ih =>
    obtain ⟨hpos, hlt, hF⟩ := freqTableOk_cons.mp h
    rw [freqAdd]
    split
    next hc =>
      refine freqTableOk_cons.mpr ⟨le_rfl, List.forall_mem_cons.mpr ⟨hc, fun d hd => ?_⟩, h⟩
      exact hc.trans (hlt d hd)
    next hc =>
      split
      · exact freqTableOk_cons.mpr ⟨Nat.le_add_left _ _, hlt, hF⟩
      next hne =>
        have hec : e.sym.toNat < c.toNat :=
          lt_of_le_of_ne (not_lt.mp hc) fun heq => hne (BitVec.eq_of_toNat_eq heq.symm)
        refine freqTableOk_cons.mpr ⟨hpos, fun d hd => ?_, ih hF⟩
        rcases (mem_syms_freqAdd c d F).mp hd with rfl | hd
        · exact hec
        · exact hlt d hd

theorem rleExpand_cons (e : SymCount) (F : List SymCount) :
    rleExpand (e :: F) = List.replicate e.cnt e.sym ++ rleExpand F := List.flatMap_cons

theorem rleExpand_freqAdd_perm (c : Sym) (F : List SymCount) :
    (rleExpand (freqAdd c F)).Perm (c :: rleExpand F) := by
  induction F with
  | nil => exact .refl _
  | cons e F ih =>
    rw [freqAdd]
    split
    · exact .refl _
    · split
      next hc => rw [hc]; exact .refl _
      next =>
        rw [rleExpand_cons, rleExpand_cons]
        exact (ih.append_left _).trans List.perm_middle

/-! ### The whole stream -/

theorem huffFreq_freqTableOk (S : List Sym) : freqTableOk (huffFreq S) :=
  List.foldlRecOn (motive := freqTableOk) S _ (by simp [freqTableOk, HufScratch.init])
    fun _ hF c _ => freqAdd_freqTableOk c hF

theorem rleExpand_foldl_freqAdd_perm (S : List Sym) (F : List SymCount) :
    (rleExpand (S.foldl (fun F c => freqAdd c F) F)).Perm (S ++ rleExpand F) := by
  induction S generalizing F with
  | nil => exact .refl _
  | cons c S ih =>
    calc (rleExpand ((c :: S).foldl (fun F c => freqAdd c F) F)).Perm
          (S ++ rleExpand (freqAdd c F)) := ih _
      List.Perm _ (S ++ c :: rleExpand F) := (rleExpand_freqAdd_perm c F).append_left S
      List.Perm _ (c :: S ++ rleExpand F) := List.perm_middle

theorem rleExpand_huffFreq_perm (S : List Sym) : (rleExpand (huffFreq S)).Perm S :=
  (rleExpand_foldl_freqAdd_perm S HufScratch.init.freq).trans (.of_eq (List.append_nil S))

/-! ### What a table's expansion tells of its entries -/

section
variable {F : List SymCount} (h : freqTableOk F)
include h

theorem freqTableOk.syms_nodup : (F.map SymCount.sym).Nodup :=
  List.pairwise_map.mpr (h.2.imp fun hlt heq => absurd (congrArg BitVec.toNat heq) hlt.ne)

theorem freqTableOk.mem_rleExpand_iff (c : Sym) :
    c ∈ rleExpand F ↔ ∃ e ∈ F, e.sym = c := by
  simp only [rleExpand, List.mem_flatMap, List.mem_replicate]
  exact exists_congr fun e => and_congr_right fun he =>
    ⟨fun hc => hc.2.symm, fun hc => ⟨Nat.one_le_iff_ne_zero.mp (h.1 e he), hc.symm⟩⟩

theorem freqTableOk.count_rleExpand {e : SymCount} (he : e ∈ F) :
    (rleExpand F).count e.sym = e.cnt := by
  induction F with
  | nil => cases he
  | cons d F ih =>
    obtain ⟨-, hlt, hF⟩ := freqTableOk_cons.mp h
    rw [rleExpand_cons, List.count_append, List.count_replicate]
    rcases List.mem_cons.mp he with rfl | he
    · have hnot : e.sym ∉ rleExpand F := fun hmem =>
        have ⟨d, hd, hde⟩ := (hF.mem_rleExpand_iff e.sym).mp hmem
        (hlt d.sym (List.mem_map_of_mem hd)).ne (congrArg BitVec.toNat hde.symm)
      rw [List.count_eq_zero_of_not_mem hnot]
      simp
    · have hne : d.sym ≠ e.sym := fun hde =>
        (hlt e.sym (List.mem_map_of_mem he)).ne (congrArg BitVec.toNat hde)
      rw [ih hF he]
      simp [hne]

end

theorem mem_iff_mem_huffFreq (S : List Sym) (c : Sym) : c ∈ S ↔ ∃ e ∈ huffFreq S, e.sym = c :=
  (rleExpand_huffFreq_perm S).mem_iff.symm.trans ((huffFreq_freqTableOk S).mem_rleExpand_iff c)

theorem cnt_of_mem_huffFreq (S : List Sym) {e : SymCount} (he : e ∈ huffFreq S) :
    e.cnt = S.count e.sym :=
  ((huffFreq_freqTableOk S).count_rleExpand he).symm.trans
    ((rleExpand_huffFreq_perm S).count_eq e.sym)

/-- Settles O44: counts, symbols and length are those of the table's expansion. -/
theorem frequencyTable : Obligations.FrequencyTable := fun S =>
  ⟨huffFreq_freqTableOk S,
    fun _ => cnt_of_mem_huffFreq S,
    mem_iff_mem_huffFreq S,
    (rleExpand_length (huffFreq S)).symm.trans (rleExpand_huffFreq_perm S).length_eq⟩

end Sys2Proof.Machine
end

section
/-! PROOFS. The tree builder (41_huffman.md R163 to R165): its queue is in ascending order of keys, no two
nodes share a sequence number, and a transition keeps the leaves and their weight. -/

namespace Sys2Proof.Machine

/-! ### Keys (R164) -/

theorem HuffNode.before_iff {a b : HuffNode} :
    a.before b = true ↔ a.weight < b.weight ∨ a.weight = b.weight ∧ a.seq < b.seq :=
  decide_eq_true_iff

theorem HuffNode.before_trans {a b c : HuffNode} (hab : a.before b = true)
    (hbc : b.before c = true) : a.before c = true := by
  rw [before_iff] at *
  omega

/-- Nodes of different sequence numbers have comparable keys. -/
theorem HuffNode.before_of_not_before {a b : HuffNode} (hne : a.seq ≠ b.seq)
    (h : ¬ a.before b = true) : b.before a = true := by
  rw [before_iff] at *
  omega

theorem HuffNode.seq_mem_seqs (t : HuffNode) : t.seq ∈ t.seqs := by
  cases t <;> exact .head _

/-! ### The queue -/

/-- The queue is in strictly ascending order of keys. -/
def Ascending (Q : List HuffNode) : Prop := Q.Pairwise (fun a b => a.before b = true)

theorem enqueue_perm (t : HuffNode) (Q : List HuffNode) : (enqueue t Q).Perm (t :: Q) := by
  induction Q with
  | nil => exact .refl _
  | cons q Q ih =>
    rw [enqueue]
    split
    · exact .refl _
    · exact (ih.cons q).trans (.swap t q Q)

theorem enqueue_ascending {t : HuffNode} {Q : List HuffNode} (h : Ascending Q)
    (hne : ∀ q ∈ Q, t.seq ≠ q.seq) : Ascending (enqueue t Q) := by
  induction Q with
  | nil => exact List.pairwise_singleton _ t
  | cons q Q ih =>
    obtain ⟨hq, hQ⟩ := List.pairwise_cons.mp h
    obtain ⟨hneq, hneQ⟩ := List.forall_mem_cons.mp hne
    rw [enqueue]
    split
    next htq =>
      exact List.pairwise_cons.mpr
        ⟨List.forall_mem_cons.mpr ⟨htq, fun r hr => HuffNode.before_trans htq (hq r hr)⟩, h⟩
    next htq =>
      refine List.pairwise_cons.mpr ⟨fun r hr => ?_, ih hQ hneQ⟩
      rcases List.mem_cons.mp ((enqueue_perm t Q).mem_iff.mp hr) with rfl | hr
      · exact HuffNode.before_of_not_before hneq htq
      · exact hq r hr

/-! ### The initial state (R163) -/

theorem leavesFrom_eq_map_zipIdx (i : Nat) (F : List SymCount) :
    leavesFrom i F = (F.zipIdx i).map (fun p => .leaf p.1.sym p.1.cnt p.2) := by
  induction F generalizing i with
  | nil => rfl
  | cons e F ih => rw [leavesFrom, ih, List.zipIdx_cons, List.map_cons]

theorem map_seq_leavesFrom (i : Nat) (F : List SymCount) :
    (leavesFrom i F).map HuffNode.seq = List.range' i F.length := by
  simp [leavesFrom_eq_map_zipIdx, Function.comp_def, HuffNode.seq]

/-- A leaf has no sequence number but its own. -/
theorem flatMap_seqs_leavesFrom (i : Nat) (F : List SymCount) :
    (leavesFrom i F).flatMap HuffNode.seqs = List.range' i F.length := by
  rw [← map_seq_leavesFrom, List.map_eq_flatMap, leavesFrom_eq_map_zipIdx, List.flatMap_map,
    List.flatMap_map]
  rfl

theorem foldl_enqueue_perm (ts Q : List HuffNode) :
    (ts.foldl (fun Q t => enqueue t Q) Q).Perm (ts ++ Q) := by
  induction ts generalizing Q with
  | nil => exact .refl _
  | cons t ts ih => exact (ih _).trans (((enqueue_perm t Q).append_left ts).trans List.perm_middle)

theorem TreeBuilder.init_queue_perm (F : List SymCount) :
    (init F).queue.Perm (leavesFrom 0 F) :=
  (foldl_enqueue_perm _ []).trans (.of_eq (List.append_nil _))

theorem foldl_enqueue_ascending {ts Q : List HuffNode} (h : Ascending Q)
    (hne : (ts ++ Q).Pairwise (fun a b => a.seq ≠ b.seq)) :
    Ascending (ts.foldl (fun Q t => enqueue t Q) Q) := by
  induction ts generalizing Q with
  | nil => exact h
  | cons t ts ih =>
    obtain ⟨ht, -⟩ := List.pairwise_cons.mp hne
    refine ih (enqueue_ascending h fun q hq => ht q (List.mem_append_right ts hq)) ?_
    have hperm : (t :: ts ++ Q).Perm (ts ++ enqueue t Q) :=
      List.perm_middle.symm.trans ((enqueue_perm t Q).symm.append_left ts)
    exact hperm.pairwise hne Ne.symm

/-! ### One transition (R164) -/

/-- A transition merges the first two nodes, or the queue has at most one. -/
theorem TreeBuilder.step_cases (b : TreeBuilder) :
    (∃ x y Q, b.queue = x :: y :: Q ∧
      b.step = ⟨enqueue (.node x y (x.weight + y.weight) b.next) Q, b.next + 1⟩) ∨
    (b.queue.length ≤ 1 ∧ b.step = b) := by
  unfold step
  split
  next x y Q hQ => exact .inl ⟨x, y, Q, hQ, rfl⟩
  next hshort =>
    refine .inr ⟨?_, rfl⟩
    match hQ : b.queue with
    | [] | [_] => simp
    | x :: y :: Q => exact (hshort x y Q hQ).elim

/-- What holds at the start and is kept by every transition holds after `n` of them. -/
theorem TreeBuilder.run_induction {P : TreeBuilder → Prop} (hstep : ∀ b, P b → P b.step) (n : Nat)
    {b : TreeBuilder} (h : P b) : P (run n b) := by
  induction n generalizing b with
  | zero => exact h
  | succ n ih => exact ih (hstep b h)

/-! ### Sequence numbers and order in every reachable state -/

/-- The sequence numbers of all nodes differ and are below the next one; the queue is in order. -/
structure TreeBuilder.Inv (b : TreeBuilder) : Prop where
  nodup : (b.queue.flatMap HuffNode.seqs).Nodup
  lt_next : ∀ q ∈ b.queue.flatMap HuffNode.seqs, q < b.next
  ascending : Ascending b.queue

theorem TreeBuilder.init_inv (F : List SymCount) : (init F).Inv where
  nodup := by
    rw [((init_queue_perm F).flatMap_right _).nodup_iff, flatMap_seqs_leavesFrom]
    exact List.nodup_range'
  lt_next q hq := by
    rw [((init_queue_perm F).flatMap_right _).mem_iff, flatMap_seqs_leavesFrom,
      List.mem_range'_1] at hq
    exact hq.2.trans_eq (Nat.zero_add _)
  ascending := by
    refine foldl_enqueue_ascending .nil ?_
    rw [List.append_nil, ← List.pairwise_map, map_seq_leavesFrom]
    exact List.nodup_range'

/-- A merge adds one sequence number, the next. -/
theorem flatMap_seqs_merge_perm (x y : HuffNode) (Q : List HuffNode) (w q : Nat) :
    ((enqueue (.node x y w q) Q).flatMap HuffNode.seqs).Perm
      (q :: (x :: y :: Q).flatMap HuffNode.seqs) := by
  refine ((enqueue_perm _ Q).flatMap_right _).trans (.of_eq ?_)
  simp [HuffNode.seqs]

theorem TreeBuilder.Inv.step {b : TreeBuilder} (h : b.Inv) : b.step.Inv := by
  obtain ⟨x, y, Q, hQ, heq⟩ | ⟨-, heq⟩ := b.step_cases
  · obtain ⟨hnodup, hlt, hasc⟩ := h
    rw [hQ] at hnodup hlt hasc
    have hperm := flatMap_seqs_merge_perm x y Q (x.weight + y.weight) b.next
    rw [heq]
    refine ⟨hperm.nodup_iff.mpr (List.nodup_cons.mpr ⟨fun hmem => (hlt _ hmem).false, hnodup⟩),
      fun q hq => ?_, enqueue_ascending hasc.tail.tail fun z hz => ?_⟩
    · rcases List.mem_cons.mp (hperm.mem_iff.mp hq) with rfl | hq
      · exact Nat.lt_succ_self _
      · exact (hlt q hq).trans (Nat.lt_succ_self _)
    · have hmem : z.seq ∈ (x :: y :: Q).flatMap HuffNode.seqs :=
        List.mem_flatMap_of_mem (.tail _ (.tail _ hz)) z.seq_mem_seqs
      exact (hlt _ hmem).ne'
  · rwa [heq]

theorem TreeBuilder.run_inv (F : List SymCount) (n : Nat) : (run n (init F)).Inv :=
  run_induction (fun _ h => h.step) n (init_inv F)

/-- Settles O45: the queue is in ascending order of keys, so the two nodes merged are the first two. -/
theorem treeTransition : Obligations.TreeTransition := by
  refine ⟨fun F => ⟨rfl, (TreeBuilder.init_queue_perm F).trans
    (.of_eq (leavesFrom_eq_map_zipIdx 0 F))⟩, fun F n b hb => ?_⟩
  obtain ⟨hnodup, -, hasc⟩ : b.Inv := hb ▸ TreeBuilder.run_inv F n
  refine ⟨hnodup, fun hlen => ?_⟩
  obtain ⟨x, y, Q, hQ, heq⟩ | ⟨hshort, -⟩ := b.step_cases
  · rw [hQ] at hasc
    obtain ⟨hx, hasc⟩ := List.pairwise_cons.mp hasc
    obtain ⟨hy, -⟩ := List.pairwise_cons.mp hasc
    obtain ⟨hxy, hxQ⟩ := List.forall_mem_cons.mp hx
    refine ⟨x, y, Q, .of_eq hQ, HuffNode.before_iff.mp hxy, fun z hz =>
      ⟨HuffNode.before_iff.mp (hxQ z hz), HuffNode.before_iff.mp (hy z hz)⟩, ?_, by rw [heq]⟩
    rw [heq]
    exact enqueue_perm _ Q
  · exact absurd hlen (by omega)

/-! ### What a transition keeps: the leaves, the weight, and the number of nodes with that of the trees -/

@[simp] theorem map_enqueue_sum (f : HuffNode → Nat) (t : HuffNode) (Q : List HuffNode) :
    ((enqueue t Q).map f).sum = f t + (Q.map f).sum :=
  (((enqueue_perm t Q).map f).sum_eq).trans List.sum_cons

@[simp] theorem enqueue_length (t : HuffNode) (Q : List HuffNode) :
    (enqueue t Q).length = Q.length + 1 := (enqueue_perm t Q).length_eq

theorem TreeBuilder.step_leaves_perm (b : TreeBuilder) :
    (b.step.queue.flatMap HuffNode.leaves).Perm (b.queue.flatMap HuffNode.leaves) := by
  obtain ⟨x, y, Q, hQ, heq⟩ | ⟨-, heq⟩ := b.step_cases
  · rw [heq, hQ]
    refine ((enqueue_perm _ Q).flatMap_right _).trans (.of_eq ?_)
    simp [HuffNode.leaves]
  · rw [heq]

theorem TreeBuilder.step_weight (b : TreeBuilder) :
    (b.step.queue.map HuffNode.weight).sum = (b.queue.map HuffNode.weight).sum := by
  obtain ⟨x, y, Q, hQ, heq⟩ | ⟨-, heq⟩ := b.step_cases
  · simp [heq, hQ, HuffNode.weight, Nat.add_assoc]
  · rw [heq]

theorem TreeBuilder.step_size (b : TreeBuilder) :
    (b.step.queue.map HuffNode.size).sum + b.step.queue.length =
      (b.queue.map HuffNode.size).sum + b.queue.length := by
  obtain ⟨x, y, Q, hQ, heq⟩ | ⟨-, heq⟩ := b.step_cases
  · simp only [heq, hQ, map_enqueue_sum, enqueue_length, HuffNode.size, List.map_cons, List.sum_cons,
      List.length_cons]
    omega
  · rw [heq]

theorem TreeBuilder.run_queue_length {n : Nat} {b : TreeBuilder} (h : n < b.queue.length) :
    (run n b).queue.length = b.queue.length - n := by
  induction n generalizing b with
  | zero => rfl
  | succ n ih =>
    have hstep : b.step.queue.length = b.queue.length - 1 := by
      obtain ⟨x, y, Q, hQ, heq⟩ | ⟨hshort, -⟩ := b.step_cases
      · simp [heq, hQ]
      · omega
    rw [run, ih (by omega), hstep, Nat.sub_sub, Nat.add_comm]

/-! ### The leaves of the initial state -/

section
variable (i : Nat) (F : List SymCount)

theorem flatMap_leaves_leavesFrom : (leavesFrom i F).flatMap HuffNode.leaves = F := by
  induction F generalizing i with
  | nil => rfl
  | cons e F ih => rw [leavesFrom, List.flatMap_cons, ih]; rfl

theorem map_weight_leavesFrom : (leavesFrom i F).map HuffNode.weight = F.map SymCount.cnt := by
  conv_rhs => rw [← List.zipIdx_map_fst i F, List.map_map]
  rw [leavesFrom_eq_map_zipIdx, List.map_map]
  rfl

theorem map_size_leavesFrom : (leavesFrom i F).map HuffNode.size = List.replicate F.length 1 := by
  simp [leavesFrom_eq_map_zipIdx, Function.comp_def, HuffNode.size, List.map_const']

@[simp] theorem leavesFrom_length : (leavesFrom i F).length = F.length := by
  simp [leavesFrom_eq_map_zipIdx]

end

@[simp] theorem TreeBuilder.init_queue_length (F : List SymCount) :
    (init F).queue.length = F.length :=
  (init_queue_perm F).length_eq.trans (leavesFrom_length 0 F)

/-! ### What `n` transitions keep of the entries -/

section
variable (F : List SymCount) (n : Nat)

theorem TreeBuilder.run_leaves_perm : ((run n (init F)).queue.flatMap HuffNode.leaves).Perm F :=
  run_induction (P := fun b => (b.queue.flatMap HuffNode.leaves).Perm F)
    (fun b h => b.step_leaves_perm.trans h) n
    (((init_queue_perm F).flatMap_right _).trans (.of_eq (flatMap_leaves_leavesFrom 0 F)))

theorem TreeBuilder.run_weight :
    ((run n (init F)).queue.map HuffNode.weight).sum = (F.map SymCount.cnt).sum :=
  run_induction (P := fun b => (b.queue.map HuffNode.weight).sum = (F.map SymCount.cnt).sum)
    (fun b h => b.step_weight.trans h) n
    (((init_queue_perm F).map _).sum_eq.trans (congrArg List.sum (map_weight_leavesFrom 0 F)))

theorem TreeBuilder.run_size :
    ((run n (init F)).queue.map HuffNode.size).sum + (run n (init F)).queue.length =
      2 * F.length := by
  refine run_induction
    (P := fun b => (b.queue.map HuffNode.size).sum + b.queue.length = 2 * F.length)
    (fun b h => b.step_size.trans h) n ?_
  rw [((init_queue_perm F).map _).sum_eq, map_size_leavesFrom, init_queue_length]
  simp [Nat.two_mul]

end

/-! ### The tree (R165) -/

theorem huffTree_of_queue {F : List SymCount} {t : HuffNode}
    (h : ((TreeBuilder.init F).run (F.length - 1)).queue = [t]) : huffTree F = some t :=
  congrArg List.head? h

theorem exists_queue_singleton {F : List SymCount} (h : F ≠ []) :
    ∃ t, ((TreeBuilder.init F).run (F.length - 1)).queue = [t] := by
  have hpos : 0 < F.length := List.length_pos_of_ne_nil h
  have hlt : F.length - 1 < (TreeBuilder.init F).queue.length := by
    rw [TreeBuilder.init_queue_length]
    omega
  refine List.length_eq_one_iff.mp ?_
  rw [TreeBuilder.run_queue_length hlt, TreeBuilder.init_queue_length]
  omega

/-- The tree of the entries: what the transitions keep, said of the one node left. -/
theorem huffTree_spec {F : List SymCount} {t : HuffNode}
    (h : ((TreeBuilder.init F).run (F.length - 1)).queue = [t]) :
    t.size = 2 * F.length - 1 ∧ t.leaves.Perm F ∧ t.weight = (F.map SymCount.cnt).sum := by
  have hsize := TreeBuilder.run_size F (F.length - 1)
  have hleaves := TreeBuilder.run_leaves_perm F (F.length - 1)
  have hweight := TreeBuilder.run_weight F (F.length - 1)
  rw [h] at hsize hleaves hweight
  exact ⟨by simp at hsize; omega, by simpa using hleaves, by simpa using hweight⟩

/-- Settles O46: the queue shrinks by one node a transition, so one is left after `n - 1`. -/
theorem treeShape : Obligations.TreeShape := by
  refine ⟨rfl, fun _ => rfl, fun F hF => ?_⟩
  obtain ⟨t, ht⟩ := exists_queue_singleton hF
  exact ⟨t, ht, huffTree_of_queue ht, huffTree_spec ht⟩

end Sys2Proof.Machine
end

section
/-! PROOFS. The code encoder (41_huffman.md R166, R167): the code table has the symbols of the frequency
table, so a stream's own table has one code for each of its symbols. -/

namespace Sys2Proof.Machine

/-! ### The symbols of a code table (R166) -/

theorem map_sym_walk (p : Bits) (t : HuffNode) :
    (walk p t).map Entry.sym = t.leaves.map SymCount.sym := by
  induction t generalizing p with
  | leaf sym w q => rfl
  | node l r w q ihl ihr => rw [walk, HuffNode.leaves, List.map_append, List.map_append, ihl, ihr]

theorem insertEntry_eq_orderedInsert (e : Entry) (C : List Entry) :
    insertEntry e C = C.orderedInsert (fun d e => d.sym.toNat ≤ e.sym.toNat) e := by
  induction C with
  | nil => rfl
  | cons d C ih => rw [insertEntry, List.orderedInsert_cons, ih]

/-- The model's sort is the library's insertion sort. -/
theorem sortEntries_eq_insertionSort (C : List Entry) :
    sortEntries C = C.insertionSort (fun d e => d.sym.toNat ≤ e.sym.toNat) := by
  induction C with
  | nil => rfl
  | cons e C ih =>
    rw [List.insertionSort_cons, ← ih, ← insertEntry_eq_orderedInsert]
    rfl

theorem sortEntries_perm (C : List Entry) : (sortEntries C).Perm C :=
  sortEntries_eq_insertionSort C ▸ List.perm_insertionSort _ C

theorem map_sym_huffCodes_perm (t : HuffNode) :
    ((huffCodes (some t)).map Entry.sym).Perm (t.leaves.map SymCount.sym) := by
  cases t with
  | leaf sym w q => exact .refl _
  | node l r w q => exact ((sortEntries_perm _).map _).trans (.of_eq (map_sym_walk [] _))

theorem map_sym_huffCodes_huffTree_perm (F : List SymCount) :
    ((huffCodes (huffTree F)).map Entry.sym).Perm (F.map SymCount.sym) := by
  by_cases hF : F = []
  · rw [hF]
    exact .refl _
  · obtain ⟨t, ht⟩ := exists_queue_singleton hF
    obtain ⟨-, hleaves, -⟩ := huffTree_spec ht
    rw [huffTree_of_queue ht]
    exact (map_sym_huffCodes_perm t).trans (hleaves.map _)

section
variable (S : List Sym)

theorem map_sym_tableOf_perm :
    ((tableOf S).map Entry.sym).Perm ((huffFreq S).map SymCount.sym) :=
  map_sym_huffCodes_huffTree_perm (huffFreq S)

theorem map_sym_tableOf_nodup : ((tableOf S).map Entry.sym).Nodup :=
  (map_sym_tableOf_perm S).nodup_iff.mpr (huffFreq_freqTableOk S).syms_nodup

theorem mem_iff_mem_tableOf (c : Sym) : c ∈ S ↔ ∃ e ∈ tableOf S, e.sym = c := by
  rw [mem_iff_mem_huffFreq, ← List.mem_map, ← (map_sym_tableOf_perm S).mem_iff, List.mem_map]

end

/-! ### The code of a symbol (R167) -/

theorem codeOf_of_mem {C : List Entry} (h : (C.map Entry.sym).Nodup) {e : Entry} (he : e ∈ C) :
    codeOf C e.sym = some e.code := by
  cases hfind : C.find? (fun d => decide (d.sym = e.sym)) with
  | none => exact absurd (List.find?_eq_none.mp hfind e he) (by simp)
  | some d =>
    have hsym : d.sym = e.sym := by simpa using List.find?_some hfind
    have hde : d = e := List.inj_on_of_nodup_map h (List.mem_of_find?_eq_some hfind) he hsym
    rw [codeOf, hfind, hde, Option.map_some]

/-- The code of a symbol that has one. -/
def codeBits (C : List Entry) (c : Sym) : Bits := (codeOf C c).getD []

theorem codeBits_of_mem {C : List Entry} (h : (C.map Entry.sym).Nodup) {e : Entry} (he : e ∈ C) :
    codeBits C e.sym = e.code := by
  rw [codeBits, codeOf_of_mem h he, Option.getD_some]

/-! ### Encoding -/

/-- A stream whose symbols all have a code draws no free value. -/
theorem huffEncode_of_codeOf {C : List Entry} {S : List Sym} (h : ∀ c ∈ S, ∃ p, codeOf C c = some p)
    (k : Nat) : huffEncode C S k = (S.flatMap (codeBits C), k) := by
  have hcodes : S.map (codeOf C) = (S.map (codeBits C)).map some := by
    rw [List.map_map]
    refine List.map_congr_left fun c hc => ?_
    obtain ⟨p, hp⟩ := h c hc
    simp [codeBits, hp]
  rw [huffEncode, hcodes, resolve_map_some, List.flatten_eq_flatMap, List.flatMap_map]
  rfl

theorem codeOf_tableOf {S : List Sym} {e : Entry} (he : e ∈ tableOf S) :
    codeOf (tableOf S) e.sym = some e.code :=
  codeOf_of_mem (map_sym_tableOf_nodup S) he

theorem huffEncode_tableOf (S : List Sym) (k : Nat) :
    huffEncode (tableOf S) S k = (S.flatMap (codeBits (tableOf S)), k) :=
  huffEncode_of_codeOf (fun c hc =>
    have ⟨e, he, hec⟩ := (mem_iff_mem_tableOf S c).mp hc
    ⟨e.code, hec ▸ codeOf_tableOf he⟩) k

/-! ### The number of bits -/

theorem flatMap_rleExpand_length (f : Sym → Bits) (F : List SymCount) :
    ((rleExpand F).flatMap f).length = (F.map (fun e => e.cnt * (f e.sym).length)).sum := by
  induction F with
  | nil => rfl
  | cons e F ih => simp [rleExpand_cons, List.flatMap_replicate, ih]

/-- Each symbol of a stream contributes its bits as often as it occurs. -/
theorem flatMap_length_eq_sum_huffFreq (S : List Sym) (f : Sym → Bits) :
    (S.flatMap f).length =
      (((huffFreq S).map SymCount.sym).map (fun c => S.count c * (f c).length)).sum := by
  rw [← ((rleExpand_huffFreq_perm S).flatMap_right f).length_eq, flatMap_rleExpand_length,
    List.map_map]
  exact congrArg List.sum (List.map_congr_left fun e he => by simp [cnt_of_mem_huffFreq S he])

theorem flatMap_codeBits_length (S : List Sym) :
    (S.flatMap (codeBits (tableOf S))).length =
      ((tableOf S).map (fun e => S.count e.sym * e.code.length)).sum := by
  rw [flatMap_length_eq_sum_huffFreq, ← ((map_sym_tableOf_perm S).map _).sum_eq, List.map_map]
  exact congrArg List.sum (List.map_congr_left fun e he => by
    simp [codeBits_of_mem (map_sym_tableOf_nodup S) he])

/-- Settles O48: the symbols of a stream's own table are those of the stream, each once. -/
theorem encodingConcatenatesCodes : Obligations.EncodingConcatenatesCodes := by
  refine fun S k => ⟨fun c hc => ?_, huffEncode_tableOf S k, ?_⟩
  · obtain ⟨e, he, rfl⟩ := (mem_iff_mem_tableOf S c).mp hc
    exact ⟨e, he, rfl, codeOf_tableOf he, fun d hd hde =>
      List.inj_on_of_nodup_map (map_sym_tableOf_nodup S) hd he hde⟩
  · rw [huffEncode_tableOf]
    exact flatMap_codeBits_length S

end Sys2Proof.Machine
end

section
/-! PROOFS. The table check (41_huffman.md R171): it stops at the first entry that a table up to it cannot
hold. -/

namespace Sys2Proof.Machine

/-! ### Tables that are mappings to codes none of which begins another -/

/-- Two entries that may stand in one table: different symbols, and neither code begins with the other. -/
def apart (d e : Entry) : Prop :=
  d.sym ≠ e.sym ∧ ¬ d.code <+: e.code ∧ ¬ e.code <+: d.code

theorem apart.symm {d e : Entry} (h : apart d e) : apart e d :=
  ⟨h.1.symm, h.2.2, h.2.1⟩

theorem clashes_eq_false_iff {d e : Entry} : clashes d e = false ↔ apart d e := by
  simp [clashes, apart, ← Bool.not_eq_true, and_assoc]

theorem codeTableOk_nil : codeTableOk [] := ⟨by simp, .nil⟩

theorem codeTableOk.sublist {C D : List Entry} (h : codeTableOk D) (hCD : C.Sublist D) :
    codeTableOk C :=
  ⟨fun e he => h.1 e (hCD.subset he), h.2.sublist hCD⟩

theorem codeTableOk_concat {C : List Entry} {e : Entry} : codeTableOk (C ++ [e]) ↔
    codeTableOk C ∧ e.code ≠ [] ∧ ∀ d ∈ C, apart d e := by
  simp only [codeTableOk, List.forall_mem_append, List.forall_mem_singleton, List.pairwise_append,
    List.pairwise_singleton, true_and]
  exact ⟨fun ⟨⟨hne, hne'⟩, hpair, hapart⟩ => ⟨⟨hne, hpair⟩, hne', hapart⟩,
    fun ⟨⟨hne, hpair⟩, hne', hapart⟩ => ⟨⟨hne, hne'⟩, hpair, hapart⟩⟩

/-! ### The first bad entry -/

/-- Entry `i` is the first that is bad in itself or against an earlier entry. -/
def firstBad (C : List Entry) (i : Nat) : Prop :=
  i < C.length ∧ codeTableOk (C.take i) ∧ ¬ codeTableOk (C.take (i + 1))

theorem not_codeTableOk_of_firstBad {C : List Entry} {i : Nat} (h : firstBad C i) :
    ¬ codeTableOk C :=
  fun hC => h.2.2 (hC.sublist (List.take_sublist _ _))

theorem firstBad_le {C : List Entry} {i j : Nat} (hi : firstBad C i) (hj : firstBad C j) :
    j ≤ i :=
  not_lt.mp fun hlt => hi.2.2 (hj.2.1.sublist (List.take_sublist_take_left hlt))

theorem firstBad_unique {C : List Entry} {i j : Nat} (hi : firstBad C i) (hj : firstBad C j) :
    i = j := le_antisymm (firstBad_le hj hi) (firstBad_le hi hj)

/-- The check from entry `i` on, after entries that passed. -/
theorem checkTableFrom_cases {D : List Entry} (hD : codeTableOk D) (C : List Entry) :
    (checkTableFrom D.length D C = .ok () ∧ codeTableOk (D ++ C)) ∨
    ∃ i, checkTableFrom D.length D C = .error ⟨.badCodeTable, i⟩ ∧ firstBad (D ++ C) i := by
  induction C generalizing D with
  | nil => exact .inl ⟨rfl, by simpa using hD⟩
  | cons e C ih =>
    have hbad : ¬ codeTableOk (D ++ [e]) → firstBad (D ++ e :: C) D.length := fun h =>
      ⟨by simp, by simpa using hD, by simpa [List.take_append, List.take_of_length_le] using h⟩
    rw [checkTableFrom]
    split
    next hempty =>
      exact .inr ⟨_, rfl, hbad fun h => (codeTableOk_concat.mp h).2.1 hempty⟩
    next hne =>
      split
      next hclash =>
        obtain ⟨d, hd, hde⟩ := List.any_eq_true.mp hclash
        refine .inr ⟨_, rfl, hbad fun h => ?_⟩
        have hapart := (codeTableOk_concat.mp h).2.2 d hd
        exact Bool.false_ne_true ((clashes_eq_false_iff.mpr hapart).symm.trans hde)
      next hclear =>
        have hok : codeTableOk (D ++ [e]) := codeTableOk_concat.mpr ⟨hD, hne, fun d hd =>
          clashes_eq_false_iff.mp
            (Bool.eq_false_iff.mpr fun hde => hclear (List.any_eq_true.mpr ⟨d, hd, hde⟩))⟩
        have h := ih hok
        rwa [List.length_append, List.append_assoc] at h

theorem huffCheckTable_cases (C : List Entry) :
    (huffCheckTable C = .ok () ∧ codeTableOk C) ∨
    ∃ i, huffCheckTable C = .error ⟨.badCodeTable, i⟩ ∧ firstBad C i :=
  checkTableFrom_cases codeTableOk_nil C

theorem huffCheckTable_eq_ok_iff (C : List Entry) : huffCheckTable C = .ok () ↔ codeTableOk C := by
  obtain ⟨hok, hC⟩ | ⟨i, herr, hi⟩ := huffCheckTable_cases C
  · exact iff_of_true hok hC
  · exact iff_of_false (by simp [herr]) (not_codeTableOk_of_firstBad hi)

theorem huffCheckTable_eq_error_iff (C : List Entry) (e : Report) :
    huffCheckTable C = .error e ↔ ∃ i, e = ⟨.badCodeTable, i⟩ ∧ firstBad C i := by
  obtain ⟨hok, hC⟩ | ⟨i, herr, hi⟩ := huffCheckTable_cases C
  · exact iff_of_false (by simp [hok]) fun ⟨_, _, hj⟩ => not_codeTableOk_of_firstBad hj hC
  · rw [herr]
    constructor
    · rintro ⟨⟩
      exact ⟨i, rfl, hi⟩
    · rintro ⟨j, rfl, hj⟩
      rw [firstBad_unique hi hj]

/-- Settles O50: the check passes or stops at the first bad entry, of which there is one at most. -/
theorem tableCheck : Obligations.TableCheck := fun C =>
  ⟨huffCheckTable_eq_ok_iff C, fun e => (huffCheckTable_eq_error_iff C e).trans
    (exists_congr fun _ => and_left_comm)⟩

end Sys2Proof.Machine
end

section
/-! PROOFS. The code decoder (41_huffman.md R168): it takes whole codes one after another, and keeps the bits
that no code begins. -/

namespace Sys2Proof.Machine

/-! ### At most one code matches -/

theorem codeTableOk.eq_of_code_isPrefix {C : List Entry} (h : codeTableOk C) {d e : Entry}
    (hd : d ∈ C) (he : e ∈ C) (hde : d.code <+: e.code) : d = e := by
  by_contra hne
  have : Std.Symm apart := ⟨fun _ _ => apart.symm⟩
  have hapart : apart d e := List.Pairwise.forall (R := apart) h.2 hd he hne
  exact hapart.2.1 hde

/-- The entry whose code is in the buffer is found. -/
theorem codeTableOk.find?_code {C : List Entry} (h : codeTableOk C) {e : Entry} (he : e ∈ C) :
    C.find? (fun d => decide (d.code = e.code)) = some e := by
  cases hfind : C.find? (fun d => decide (d.code = e.code)) with
  | none => exact absurd (List.find?_eq_none.mp hfind e he) (by simp)
  | some d =>
    have hcode : d.code = e.code := by simpa using List.find?_some hfind
    rw [h.eq_of_code_isPrefix (List.mem_of_find?_eq_some hfind) he
      ⟨[], (List.append_nil _).trans hcode⟩]

/-- No code is found for bits that are only the beginning of one. -/
theorem codeTableOk.find?_code_begun {C : List Entry} (h : codeTableOk C) {e : Entry} (he : e ∈ C)
    {buf rest : Bits} (hcode : e.code = buf ++ rest) (hrest : rest ≠ []) :
    C.find? (fun d => decide (d.code = buf)) = none := by
  refine List.find?_eq_none.mpr fun d hd hbuf => hrest ?_
  have hbuf : d.code = buf := of_decide_eq_true hbuf
  have hde : d = e := h.eq_of_code_isPrefix hd he ⟨rest, hbuf.symm ▸ hcode.symm⟩
  rw [← hbuf, hde] at hcode
  exact List.self_eq_append_right.mp hcode

/-! ### One bit -/

theorem huffDecodeFrom_cons_some {C : List Entry} {x : BitScratch} {b : Bool} {e : Entry}
    (h : C.find? (fun d => decide (d.code = x.buf ++ [b])) = some e) (j : Nat) (bits : Bits) :
    huffDecodeFrom C j x (b :: bits) =
      (huffDecodeFrom C (j + 1) ⟨[], j + 1⟩ bits).map (e.sym :: ·) := by
  rw [huffDecodeFrom]
  simp only [h]
  cases huffDecodeFrom C (j + 1) ⟨[], j + 1⟩ bits <;> rfl

theorem huffDecodeFrom_cons_none {C : List Entry} {x : BitScratch} {b : Bool}
    (h : C.find? (fun d => decide (d.code = x.buf ++ [b])) = none) (j : Nat) (bits : Bits) :
    huffDecodeFrom C j x (b :: bits) = huffDecodeFrom C (j + 1) ⟨x.buf ++ [b], x.start⟩ bits := by
  rw [huffDecodeFrom]
  simp only [h]

/-! ### The loop -/

/-- What is left of a code completes it: its symbol is emitted. -/
theorem huffDecodeFrom_code {C : List Entry} (h : codeTableOk C) {e : Entry} (he : e ∈ C)
    {buf rest : Bits} (hcode : e.code = buf ++ rest) (hrest : rest ≠ []) (j start : Nat)
    (bits : Bits) :
    huffDecodeFrom C j ⟨buf, start⟩ (rest ++ bits) =
      (huffDecodeFrom C (j + rest.length) ⟨[], j + rest.length⟩ bits).map (e.sym :: ·) := by
  induction rest generalizing buf j with
  | nil => exact absurd rfl hrest
  | cons b rest ih =>
    have hnext : e.code = buf ++ [b] ++ rest := by simp [hcode]
    by_cases hlast : rest = []
    · subst hlast
      rw [List.append_nil] at hnext
      exact huffDecodeFrom_cons_some (hnext ▸ h.find?_code he) j bits
    · rw [List.cons_append, huffDecodeFrom_cons_none (h.find?_code_begun he hnext hlast),
        ih hnext hlast, List.length_cons, Nat.add_right_comm, Nat.add_assoc]

/-- Whole codes are decoded, whatever follows. -/
theorem huffDecodeFrom_codes {C : List Entry} (h : codeTableOk C) {es : List Entry}
    (hes : ∀ e ∈ es, e ∈ C) (j : Nat) (bits : Bits) :
    huffDecodeFrom C j ⟨[], j⟩ (es.flatMap Entry.code ++ bits) =
      (huffDecodeFrom C (j + (es.flatMap Entry.code).length)
        ⟨[], j + (es.flatMap Entry.code).length⟩ bits).map (es.map Entry.sym ++ ·) := by
  induction es generalizing j with
  | nil => cases hbits : huffDecodeFrom C j ⟨[], j⟩ bits <;> simp [hbits, Except.map]
  | cons e es ih =>
    obtain ⟨he, hes⟩ := List.forall_mem_cons.mp hes
    rw [List.flatMap_cons, List.append_assoc,
      huffDecodeFrom_code h he (List.nil_append e.code).symm (h.1 e he), ih hes, List.length_append,
      Nat.add_assoc]
    cases huffDecodeFrom C _ _ bits <;> rfl

/-- Bits that no code begins stay in the buffer. -/
theorem huffDecodeFrom_no_code {C : List Entry} {buf rest : Bits} (hne : buf ++ rest ≠ [])
    (hno : ∀ e ∈ C, ¬ e.code <+: buf ++ rest) (j start : Nat) :
    huffDecodeFrom C j ⟨buf, start⟩ rest = .error ⟨.invalidPrefixCode, start⟩ := by
  induction rest generalizing buf j with
  | nil =>
    rw [List.append_nil] at hne
    exact if_neg hne
  | cons b rest ih =>
    have hassoc : buf ++ b :: rest = buf ++ [b] ++ rest := by simp
    rw [hassoc] at hne hno
    have hnone : C.find? (fun e => decide (e.code = buf ++ [b])) = none :=
      List.find?_eq_none.mpr fun e he hbuf =>
        hno e he ⟨rest, by rw [of_decide_eq_true hbuf]⟩
    rw [huffDecodeFrom_cons_none hnone]
    exact ih hne hno (j + 1)

/-! ### `huff_decode` -/

theorem huffDecode_codes_append {C : List Entry} (h : codeTableOk C) {es : List Entry}
    (hes : ∀ e ∈ es, e ∈ C) (bits : Bits) :
    huffDecode (es.flatMap Entry.code ++ bits) C =
      (huffDecodeFrom C (es.flatMap Entry.code).length ⟨[], (es.flatMap Entry.code).length⟩
        bits).map (es.map Entry.sym ++ ·) := by
  have hdecode := huffDecodeFrom_codes h hes 0 bits
  rwa [Nat.zero_add] at hdecode

theorem huffDecode_codes {C : List Entry} (h : codeTableOk C) {es : List Entry}
    (hes : ∀ e ∈ es, e ∈ C) : huffDecode (es.flatMap Entry.code) C = .ok (es.map Entry.sym) := by
  have hdecode := huffDecode_codes_append h hes []
  rw [List.append_nil] at hdecode
  simp [hdecode, huffDecodeFrom, Except.map]

/-- Settles O49: the decoder takes the whole codes, and what follows them decides the rest. -/
theorem decodingMatchesGreedily : Obligations.DecodingMatchesGreedily := by
  refine ⟨fun C => rfl, fun C es tail hC hes => ⟨huffDecode_codes hC hes, fun hne hno => ?_⟩⟩
  rw [huffDecode_codes_append hC hes, huffDecodeFrom_no_code (buf := []) hne hno]
  rfl

end Sys2Proof.Machine
end

section
/-! PROOFS. The outcomes of a command of LZW: what the checks answer for a command with one source
(60_exceptions.md R249, R252), and what LZW then holds. -/

namespace Sys2Proof.Machine

/-! ### The source check of a command with one source, of any unit -/

section
variable {s : State} {i : Instr} {b : Buf} (hi : i.sources = [b])
include hi

theorem State.sourceOverflow_eq_some (h : s.cfg.cap b < (s.len b).toNat) :
    s.sourceOverflow i = some b.id :=
  (State.sourceOverflow_of_sources_eq hi).trans (if_pos h)

theorem State.sourceOverflow_eq_none (h : (s.len b).toNat ≤ s.cfg.cap b) :
    s.sourceOverflow i = none :=
  (State.sourceOverflow_of_sources_eq hi).trans (if_neg (not_lt.mpr h))

end

/-! ### The four outcomes -/

section
variable {α : Type} {s : State} {i : Instr} {b : Buf} {op : Nat → Except Report α × Nat}
  {limits : α → List Limit} {write : LzwUnit → α → LzwUnit} {a : α} {k : Nat}
  (hi : i.sources = [b])
include hi

theorem lzwCommand_sourceTooLong (h : s.cfg.cap b < (s.len b).toNat) :
    lzwCommand s i op limits write =
      .next { s with lzw := s.lzw.failed (tooLong b.id) s.lzw.aux.free } :=
  lzwCommand_error (h := by rw [State.sourceOverflow_eq_some hi h, byPriority_overflow]) ..

variable (h : (s.len b).toNat ≤ s.cfg.cap b)
include h

theorem lzwCommand_opError {e : Report} (hop : op s.lzw.aux.free = (.error e, k)) :
    lzwCommand s i op limits write = .next { s with lzw := s.lzw.failed e k } :=
  lzwCommand_error (h := by rw [State.sourceOverflow_eq_none hi h, byPriority_error hop]) ..

theorem lzwCommand_resultTooLong {id : Nat} (hop : op s.lzw.aux.free = (.ok a, k))
    (hl : leastExceeded (limits a) = some id) :
    lzwCommand s i op limits write = .next { s with lzw := s.lzw.failed (tooLong id) k } :=
  lzwCommand_error (h := by rw [State.sourceOverflow_eq_none hi h, byPriority_tooLong hop hl]) ..

theorem lzwCommand_done {p : Prop} [Decidable p] (hop : op s.lzw.aux.free = (.ok a, k))
    (hl : leastExceeded (limits a) = none) (hp : (write s.lzw a).symLen = 0 ↔ p) :
    lzwCommand s i op limits write =
      .next { s with lzw := (write s.lzw a).ended (doneWord p) k } := by
  rw [← statusDone_emptyFlag hp]
  exact lzwCommand_ok (h := by rw [State.sourceOverflow_eq_none hi h, byPriority_ok hop hl]) ..

end

end Sys2Proof.Machine
end

section
/-! PROOFS. Three commands of LZW (42_lzw.md R215, R217, R218). -/

namespace Sys2Proof.Machine

/-! ### What the code unpacker emits stays emitted (42_lzw.md R213) -/

theorem lzwDecodeFrom_out_isPrefix {i : Nat} {x : LzwDec} {K : List Nat} {S : List Sym}
    (h : lzwDecodeFrom i x K = .ok S) : x.out <+: S := by
  induction K generalizing i x with
  | nil =>
    cases h
    exact List.prefix_rfl
  | cons k K ih =>
    rw [lzwDecodeFrom] at h
    split at h
    · cases h
    next e _ => exact (List.prefix_append x.out e).trans (ih h)

/-- The first code emits a symbol. -/
theorem lzwDecode_ok_eq_nil_iff {K : List Nat} {S : List Sym} (h : lzwDecode K = .ok S) :
    S = [] ↔ K = [] := by
  cases K with
  | nil =>
    cases h
    exact iff_of_true rfl rfl
  | cons k K =>
    rw [lzwDecode] at h
    split at h
    · cases h
    · have hfirst : [BitVec.ofNat 32 k] <+: S := lzwDecodeFrom_out_isPrefix h
      exact iff_of_false (List.IsPrefix.ne_nil hfirst (List.cons_ne_nil _ _)) (List.cons_ne_nil _ _)

/-- `SYM_LEN` after a decoding that fits. -/
theorem LzwUnit.writeSym_symLen_eq_zero_iff_of_lzwDecode {c : Config} (hc : c.wellFormed = true)
    (x : LzwUnit) {K : List Word} {S : List Sym} (hdecode : lzwDecode (K.map BitVec.toNat) = .ok S)
    (h : S.length ≤ c.capSym) : (x.writeSym S).symLen = 0 ↔ K = [] := by
  rw [LzwUnit.writeSym_symLen, ofNat_length_eq_zero_iff hc .lzwSym h,
    lzwDecode_ok_eq_nil_iff hdecode, List.map_eq_nil_iff]

/-- Settles O40: the operation's error is the parse's, else the decoder's; only the empty code
sequence decodes to nothing. -/
theorem lzwDecbResult : Obligations.LzwDecbResult := by
  simp only [Obligations.LzwDecbResult, exec, execLzwDecb, codeNats]
  have hi : Instr.lzwDecb.sources = [.lzwByt] := rfl
  refine ⟨rfl, fun s h => lzwCommand_sourceTooLong hi h, fun s B k hc h hread =>
    ⟨fun e hparse => ?_, fun K e hparse hdecode => ?_, fun K S hparse hdecode hcod hsym => ?_,
      fun K S id hparse hdecode hid => ?_⟩⟩
  · exact lzwCommand_opError hi h (by simp only [hread, hparse, bind, Except.bind])
  · exact lzwCommand_opError hi h (by simp only [hread, hparse, hdecode, bind, Except.bind])
  · exact lzwCommand_done (a := (K, S)) hi h
      (by simp only [hread, hparse, hdecode, bind, Except.bind, pure, Except.pure])
      (leastExceeded_pair_none hcod hsym)
      (LzwUnit.writeSym_symLen_eq_zero_iff_of_lzwDecode hc _ hdecode hsym)
  · exact lzwCommand_resultTooLong (a := (K, S)) hi h
      (by simp only [hread, hparse, hdecode, bind, Except.bind, pure, Except.pure]) hid

/-! ### The encoders: neither writes `SYM_LEN`, so `EMPTY` is that of the source -/

@[simp] theorem codeWords_length (K : List Nat) : (codeWords K).length = K.length :=
  List.length_map _

/-- Settles O37: the codes are the result; `COD` is the one buffer they are held to. -/
theorem lzwEncResult : Obligations.LzwEncResult := by
  simp only [Obligations.LzwEncResult, exec, execLzwEnc]
  have hi : Instr.lzwEnc.sources = [.lzwSym] := rfl
  refine ⟨rfl, fun s h => lzwCommand_sourceTooLong hi h, fun s S k h hread =>
    ⟨fun e he => ?_, fun K hK hfit => ?_, fun K hK hlong => ?_⟩⟩
  · exact lzwCommand_opError hi h (by simp only [hread, he])
  · rw [← codeWords_length K]
    exact lzwCommand_done hi h (by simp only [hread, hK]) (leastExceeded_single_none hfit) Iff.rfl
  · exact lzwCommand_resultTooLong hi h (by simp only [hread, hK])
      (leastExceeded_single_some hlong)

/-- Settles O39: the container of the codes has `8 + 4 * len` bytes, the second limit. -/
theorem lzwEncbResult : Obligations.LzwEncbResult := by
  simp only [Obligations.LzwEncbResult, exec, execLzwEncb]
  have hi : Instr.lzwEncb.sources = [.lzwSym] := rfl
  refine ⟨rfl, fun s h => lzwCommand_sourceTooLong hi h, fun s S k h hread =>
    ⟨fun e he => ?_, fun K hK hcod hbyt => ?_, fun K id hK hid => ?_⟩⟩
  · exact lzwCommand_opError hi h (by simp only [hread, he])
  · have hlen : (serHcl1 (codeWords K)).length = 8 + 4 * K.length := by
      rw [serHcl1_length, codeWords_length]
    rw [← hlen]
    exact lzwCommand_done hi h (by simp only [hread, hK]) (leastExceeded_pair_none hcod hbyt)
      Iff.rfl
  · exact lzwCommand_resultTooLong hi h (by simp only [hread, hK]) hid

end Sys2Proof.Machine
end

section
/-! PROOFS. Error entry (60_exceptions.md R250, R251, R253): it changes the report, scratch and the count of
free values of its unit, and it is all that a command which ends with an error does. -/

namespace Sys2Proof.Machine

/-! ### What error entry leaves unchanged, and the scratch it drops (R251) -/

theorem State.sameUnit.trans {s t r : State} {u : UnitId} (h : s.sameUnit t u) (h' : t.sameUnit r u) :
    s.sameUnit r u := by
  cases u <;> exact Eq.trans h h'

theorem State.setFree_sameBuf (s : State) (u : UnitId) (k : Nat) (b : Buf) :
    s.sameBuf (s.setFree u k) b := by
  simp [State.sameBuf]

theorem State.raise_sameBuf (s : State) (u : UnitId) (r : Report) (b : Buf) :
    s.sameBuf (s.raise u r) b := by
  simp [State.sameBuf]

theorem State.withAgenda_sameBuf (s : State) (rest : List Event) (b : Buf) :
    s.sameBuf { s with agenda := rest } b := by
  simp [State.sameBuf]

@[simp] theorem State.raise_hasScratch_same (s : State) (u : UnitId) (r : Report) :
    (s.raise u r).hasScratch u = false := by cases u <;> rfl

/-! ### A word that is not legal (R250) -/

theorem Ctrl.raise_illegal (c : Ctrl) :
    c.raise illegal.cause (errInfoOf illegal.info) = ⟨c.cmd, 0x4, 8, 0⟩ := by
  rw [errInfoOf_of_lt (show illegal.info < 2 ^ 32 by decide)]
  rfl

/-- Settles O7: the next state is error entry with `illegal` in the state without the event. -/
theorem illegalCommandReport : Obligations.IllegalCommandReport := by
  intro s u rest ha hb hill
  refine ⟨_, step_complete_illegal ha hb hill, ?_, State.raise_hasScratch_same _ u illegal,
    fun b => (s.withAgenda_sameBuf rest b).trans (State.raise_sameBuf _ u illegal b),
    fun v hv => (s.withAgenda_sameUnit rest _ v).mp (State.raise_sameUnit _ u illegal v hv),
    ?_, ?_, ?_⟩
  · rw [State.raise_ctrl_same, Ctrl.raise_illegal, State.withAgenda_ctrl]
  · rw [State.raise_aux, State.withAgenda_aux]
  · rw [State.raise_cfg]
  · rw [State.raise_agenda]

/-! ### A legal command that ends in phase ERROR (R253) -/

theorem statusDone_ne_statusError (empty : Bool) : statusDone empty ≠ statusError := by
  cases empty <;> decide

section
variable {α : Type} {s t : State} {i : Instr} {op : Nat → Except Report α × Nat}
  {limits : α → List Limit}

theorem rleCommand_eq_raise {write : RleUnit → α → RleUnit}
    (h : rleCommand s i op limits write = .next t) (ht : (t.ctrl .rle).status = statusError) :
    ∃ k e, t = (s.setFree .rle k).raise .rle e := by
  obtain ⟨e, k, -, heq⟩ | ⟨a, k, -, heq⟩ := rleCommand_cases s i op limits write
  · cases heq.symm.trans h
    exact ⟨k, e, rfl⟩
  · cases heq.symm.trans h
    exact absurd ht (statusDone_ne_statusError _)

theorem hufCommand_eq_raise {write : HufUnit → α → HufUnit}
    (h : hufCommand s i op limits write = .next t) (ht : (t.ctrl .huf).status = statusError) :
    ∃ k e, t = (s.setFree .huf k).raise .huf e := by
  obtain ⟨e, k, -, heq⟩ | ⟨a, k, -, heq⟩ := hufCommand_cases s i op limits write
  · cases heq.symm.trans h
    exact ⟨k, e, rfl⟩
  · cases heq.symm.trans h
    exact absurd ht (statusDone_ne_statusError _)

theorem lzwCommand_eq_raise {write : LzwUnit → α → LzwUnit}
    (h : lzwCommand s i op limits write = .next t) (ht : (t.ctrl .lzw).status = statusError) :
    ∃ k e, t = (s.setFree .lzw k).raise .lzw e := by
  obtain ⟨e, k, -, heq⟩ | ⟨a, k, -, heq⟩ := lzwCommand_cases s i op limits write
  · cases heq.symm.trans h
    exact ⟨k, e, rfl⟩
  · cases heq.symm.trans h
    exact absurd ht (statusDone_ne_statusError _)

/-- Every command checks and computes before it writes (R252): the state an error leaves is the one before,
but for free values drawn and error entry. -/
theorem exec_eq_raise (h : exec i s = .next t) (ht : (t.ctrl i.unit).status = statusError) :
    ∃ k e, t = (s.setFree i.unit k).raise i.unit e := by
  unfold exec at h
  cases i with
  | rleEnc | rleDec | rleEncb | rleDecb | rleEncs | rleDecs => exact rleCommand_eq_raise h ht
  | hufEnc | hufDec | hufEncb | hufDecb => exact hufCommand_eq_raise h ht
  | lzwEnc | lzwDec | lzwEncb | lzwDecb => exact lzwCommand_eq_raise h ht

end

/-- Settles O11: drawing free values and error entry change no buffer, no `CMD` and no other unit. -/
theorem errorChangesNothing : Obligations.ErrorChangesNothing := by
  intro i s t h ht
  obtain ⟨k, e, rfl⟩ := exec_eq_raise h ht
  refine ⟨fun b => (s.setFree_sameBuf i.unit k b).trans (State.raise_sameBuf _ i.unit e b), ?_,
    fun v hv => (s.setFree_sameUnit i.unit k v hv).trans (State.raise_sameUnit _ i.unit e v hv), ?_, ?_⟩
  · rw [State.raise_ctrl_same, Ctrl.raise_cmd, State.setFree_ctrl]
  · rw [State.raise_cfg, State.setFree_cfg]
  · rw [State.raise_agenda, State.setFree_agenda]

end Sys2Proof.Machine
end

section
/-! PROOFS. Host writes to a busy unit (70_reset_and_hazards.md R287). -/

namespace Sys2Proof.Machine

section
variable {s : State}

theorem State.regWrite_of_busy {u : UnitId} (h : s.busy u = true) (n : Nat) (v : Word) :
    s.regWrite u n v = s := by
  obtain ⟨-, heq⟩ | ⟨hidle, -, -⟩ | ⟨hidle, -, -⟩ := s.regWrite_cases u n v
  · exact heq
  · simp [h] at hidle
  · simp [h] at hidle

theorem State.bufWrite_of_busy {b : Buf} (h : s.busy b.unit = true) (i : Nat) (v : Elem) :
    s.bufWrite b i v = s := by
  obtain ⟨-, heq⟩ | ⟨hidle, -, -⟩ := s.bufWrite_cases b i v
  · exact heq
  · simp [h] at hidle

end

/-- Settles O21: taking the event off the agenda leaves the unit busy, and a write to a busy unit is lost. -/
theorem busyUnitIgnoresWrites : Obligations.BusyUnitIgnoresWrites := by
  refine ⟨fun s u n v rest ha hb => ?_, fun s b i v rest ha hfits hb => ?_⟩
  · rw [step_cons ha, State.handle, State.port, State.regWrite_of_busy (by simpa using hb)]
  · rw [step_cons ha, State.handle, State.port, if_pos hfits,
      State.bufWrite_of_busy (by simpa using hb)]

end Sys2Proof.Machine
end

section
/-! PROOFS. The containers (30_encoding.md R99 to R103): what each parsing step takes from the bytes, what it
reports when it fails. -/

namespace Sys2Proof.Machine

/-! ### One step after another -/

section
variable {α β : Type} {x : Except Report α} {f : α → Except Report β}

theorem bind_eq_ok_iff {b : β} : (x >>= f) = .ok b ↔ ∃ a, x = .ok a ∧ f a = .ok b := by
  cases x <;> simp [bind, Except.bind]

theorem bind_eq_error_iff {e : Report} :
    (x >>= f) = .error e ↔ x = .error e ∨ ∃ a, x = .ok a ∧ f a = .error e := by
  cases x <;> simp [bind, Except.bind]

end

/-! ### What a parsing step takes (R103) -/

section
variable {p k n : Nat} {B rest : List Byte}

theorem parseTag_eq_ok_iff {t : List Byte} (ht : t.length = 4) :
    parseTag t B = .ok rest ↔ B = t ++ rest := by
  obtain ⟨t0, t1, t2, t3, rfl⟩ := List.length_eq_four.mp ht
  unfold parseTag
  split
  next b0 b1 b2 b3 r => split <;> simp_all [eq_comm]
  next hshort => simpa using fun h => hshort _ _ _ _ _ h

theorem get32_eq_ok_iff {w : Word} : get32 p B = .ok (w, rest) ↔ B = u32be w ++ rest :=
  ⟨get32_ok, fun h => h ▸ get32_u32be p w rest⟩

theorem getBytes_eq_ok_iff {P : List Byte} :
    getBytes k p B = .ok (P, rest) ↔ P.length = k ∧ B = P ++ rest := by
  unfold getBytes
  split
  next h =>
    refine iff_of_false (by simp) ?_
    rintro ⟨rfl, rfl⟩
    simp at h
  next h =>
    rw [Except.ok.injEq, Prod.mk.injEq]
    constructor
    · rintro ⟨rfl, rfl⟩
      exact ⟨List.length_take_of_le (not_lt.mp h), (List.take_append_drop k B).symm⟩
    · rintro ⟨rfl, rfl⟩
      simp

theorem parseEnd_eq_ok_iff {u : Unit} : parseEnd p B = .ok u ↔ B = [] := by
  unfold parseEnd
  split <;> simp_all

theorem getPairs_succ_eq_ok_iff {R : List SymCount} :
    getPairs (n + 1) p B = .ok (R, rest) ↔ ∃ s c R' B', R = ⟨s, c.toNat⟩ :: R' ∧
      B = u32be s ++ (u32be c ++ B') ∧ getPairs n (p + 8) B' = .ok (R', rest) := by
  simp only [getPairs, bind_eq_ok_iff, Prod.exists, get32_eq_ok_iff, pure, Except.pure,
    Except.ok.injEq, Prod.mk.injEq]
  constructor
  · rintro ⟨s, _, rfl, c, B', rfl, R', r, h, rfl, rfl⟩
    exact ⟨s, c, R', B', rfl, rfl, h⟩
  · rintro ⟨s, c, R', B', rfl, rfl, h⟩
    exact ⟨s, _, rfl, c, B', rfl, R', rest, h, rfl, rfl⟩

theorem pairBytes_mk (s c : Word) : pairBytes ⟨s, c.toNat⟩ = u32be s ++ u32be c := by
  simp [pairBytes, u32beNat]

theorem getPairs_eq_ok_iff {R : List SymCount} : getPairs n p B = .ok (R, rest) ↔
    R.length = n ∧ (∀ r ∈ R, r.cnt < 2 ^ 32) ∧ B = R.flatMap pairBytes ++ rest := by
  induction n generalizing p B R with
  | zero =>
    simp only [getPairs, Except.ok.injEq, Prod.mk.injEq, List.length_eq_zero_iff]
    constructor
    · rintro ⟨rfl, rfl⟩
      simp
    · rintro ⟨rfl, -, rfl⟩
      simp
  | succ n ih =>
    simp only [getPairs_succ_eq_ok_iff, ih]
    constructor
    · rintro ⟨s, c, R, B, rfl, rfl, rfl, hR, rfl⟩
      exact ⟨rfl, List.forall_mem_cons.mpr ⟨c.isLt, hR⟩, by simp [pairBytes_mk]⟩
    · rintro ⟨hlen, hR, rfl⟩
      obtain ⟨⟨s, c⟩, R, rfl⟩ := List.exists_cons_of_length_eq_add_one hlen
      obtain ⟨hc, hR⟩ := List.forall_mem_cons.mp hR
      refine ⟨s, BitVec.ofNat 32 c, R, _, ?_, ?_, Nat.succ.inj hlen, hR, rfl⟩
      · rw [BitVec.toNat_ofNat, Nat.mod_eq_of_lt hc]
      · simp [pairBytes, u32beNat]

theorem getWords_succ_eq_ok_iff {K : List Word} :
    getWords (n + 1) p B = .ok (K, rest) ↔ ∃ k K' B', K = k :: K' ∧ B = u32be k ++ B' ∧
      getWords n (p + 4) B' = .ok (K', rest) := by
  simp only [getWords, bind_eq_ok_iff, Prod.exists, get32_eq_ok_iff, pure, Except.pure,
    Except.ok.injEq, Prod.mk.injEq]
  constructor
  · rintro ⟨k, B', rfl, K', r, h, rfl, rfl⟩
    exact ⟨k, K', B', rfl, rfl, h⟩
  · rintro ⟨k, K', B', rfl, rfl, h⟩
    exact ⟨k, B', rfl, K', rest, h, rfl, rfl⟩

theorem getWords_eq_ok_iff {K : List Word} : getWords n p B = .ok (K, rest) ↔
    K.length = n ∧ B = K.flatMap u32be ++ rest := by
  induction n generalizing p B K with
  | zero =>
    simp only [getWords, Except.ok.injEq, Prod.mk.injEq, List.length_eq_zero_iff]
    constructor
    · rintro ⟨rfl, rfl⟩
      simp
    · rintro ⟨rfl, rfl⟩
      simp
  | succ n ih =>
    simp only [getWords_succ_eq_ok_iff, ih]
    constructor
    · rintro ⟨k, K, B, rfl, rfl, rfl, rfl⟩
      exact ⟨rfl, by simp⟩
    · rintro ⟨hlen, rfl⟩
      obtain ⟨k, K, rfl⟩ := List.exists_cons_of_length_eq_add_one hlen
      exact ⟨k, K, _, rfl, by simp, Nat.succ.inj hlen, rfl⟩

end

/-! ### A container parses exactly when it is a serialization (R100 to R102) -/

/-- A count in a container: the word `w` stands for the number `n`. -/
theorem exists_word_toNat_eq_iff {n : Nat} {P : Word → Prop} :
    (∃ w : Word, n = w.toNat ∧ P w) ↔ n < 2 ^ 32 ∧ P (BitVec.ofNat 32 n) := by
  constructor
  · rintro ⟨w, rfl, hw⟩
    exact ⟨w.isLt, by simpa using hw⟩
  · rintro ⟨hn, hP⟩
    exact ⟨_, by rw [BitVec.toNat_ofNat, Nat.mod_eq_of_lt hn], hP⟩

theorem parseHcr1_eq_ok_iff (B : List Byte) (R : List SymCount) : parseHcr1 B = .ok R ↔
    R.length < 2 ^ 32 ∧ (∀ r ∈ R, r.cnt < 2 ^ 32) ∧ B = serHcr1 R := by
  have hstep : parseHcr1 B = .ok R ↔ ∃ n : Word, R.length = n.toNat ∧
      (∀ r ∈ R, r.cnt < 2 ^ 32) ∧ B = tagHcr1 ++ (u32be n ++ R.flatMap pairBytes) := by
    simp only [parseHcr1, bind_eq_ok_iff, Prod.exists, parseTag_eq_ok_iff (t := tagHcr1) rfl,
      get32_eq_ok_iff, getPairs_eq_ok_iff, parseEnd_eq_ok_iff, pure, Except.pure, Except.ok.injEq]
    constructor
    · rintro ⟨_, rfl, n, _, rfl, R, _, ⟨hlen, hR, rfl⟩, -, rfl, rfl⟩
      exact ⟨n, hlen, hR, by simp⟩
    · rintro ⟨n, hlen, hR, rfl⟩
      exact ⟨_, rfl, n, _, rfl, R, [], ⟨hlen, hR, by simp⟩, (), rfl, rfl⟩
  rw [hstep, exists_word_toNat_eq_iff, serHcr1, u32beNat, List.append_assoc]

theorem parseHcl1_eq_ok_iff (B : List Byte) (K : List Word) : parseHcl1 B = .ok K ↔
    K.length < 2 ^ 32 ∧ B = serHcl1 K := by
  have hstep : parseHcl1 B = .ok K ↔ ∃ n : Word, K.length = n.toNat ∧
      B = tagHcl1 ++ (u32be n ++ K.flatMap u32be) := by
    simp only [parseHcl1, bind_eq_ok_iff, Prod.exists, parseTag_eq_ok_iff (t := tagHcl1) rfl,
      get32_eq_ok_iff, getWords_eq_ok_iff, parseEnd_eq_ok_iff, pure, Except.pure, Except.ok.injEq]
    constructor
    · rintro ⟨_, rfl, n, _, rfl, K, _, ⟨hlen, rfl⟩, -, rfl, rfl⟩
      exact ⟨n, hlen, by simp⟩
    · rintro ⟨n, hlen, rfl⟩
      exact ⟨_, rfl, n, _, rfl, K, [], ⟨hlen, by simp⟩, (), rfl, rfl⟩
  rw [hstep, exists_word_toNat_eq_iff, serHcl1, u32beNat, List.append_assoc]

theorem parseHch1_eq_ok_iff (B : List Byte) (h : HufContainer) : parseHch1 B = .ok h ↔
    h.pad < 2 ^ 32 ∧ h.freq.length < 2 ^ 32 ∧ (∀ r ∈ h.freq, r.cnt < 2 ^ 32) ∧
      h.packed.length < 2 ^ 32 ∧ B = serHch1 h := by
  have hstep : parseHch1 B = .ok h ↔ ∃ pad : Word, h.pad = pad.toNat ∧ ∃ n : Word,
      h.freq.length = n.toNat ∧ ∃ m : Word, h.packed.length = m.toNat ∧
        (∀ r ∈ h.freq, r.cnt < 2 ^ 32) ∧ B = tagHch1 ++ (u32be pad ++ (u32be n ++
          (h.freq.flatMap pairBytes ++ (u32be m ++ h.packed)))) := by
    simp only [parseHch1, bind_eq_ok_iff, Prod.exists, parseTag_eq_ok_iff (t := tagHch1) rfl,
      get32_eq_ok_iff, getPairs_eq_ok_iff, getBytes_eq_ok_iff, parseEnd_eq_ok_iff, pure, Except.pure,
      Except.ok.injEq]
    constructor
    · rintro ⟨_, rfl, pad, _, rfl, n, _, rfl, F, _, ⟨hn, hF, rfl⟩, m, _, rfl, P, _, ⟨hm, rfl⟩, -,
        rfl, rfl⟩
      exact ⟨pad, rfl, n, hn, m, hm, hF, by simp⟩
    · rintro ⟨pad, hpad, n, hn, m, hm, hF, rfl⟩
      obtain ⟨_, F, P⟩ := h
      obtain rfl : _ = pad.toNat := hpad
      exact ⟨_, rfl, pad, _, rfl, n, _, rfl, F, _, ⟨hn, hF, rfl⟩, m, _, rfl, P, [],
        ⟨hm, by simp⟩, (), rfl, rfl⟩
  rw [hstep]
  simp only [exists_word_toNat_eq_iff, serHch1, u32beNat, List.append_assoc]
  exact and_congr_right fun _ => and_congr_right fun _ => and_left_comm

/-- Settles O58: each parsing step takes exactly the bytes of the field it answers. -/
theorem containersParseExactly : Obligations.ContainersParseExactly :=
  ⟨parseHcr1_eq_ok_iff, parseHch1_eq_ok_iff, parseHcl1_eq_ok_iff⟩

end Sys2Proof.Machine
end

section
/-! PROOFS. What the parse of a container reports (30_encoding.md R103; 60_exceptions.md R243): a container
cut short, bytes left over, another tag. -/

namespace Sys2Proof.Machine

/-! ### A step that fails, a step that succeeds -/

section
variable {α β : Type} {x : Except Report α} {f : α → Except Report β}

theorem bind_of_ok {a : α} (h : x = .ok a) : (x >>= f) = f a := by
  rw [h]
  rfl

theorem bind_of_error {e : Report} (h : x = .error e) : (x >>= f) = .error e := by
  rw [h]
  rfl

end

theorem take_append_of_length_le {α : Type} {xs : List α} {n m : Nat} (hx : xs.length = n)
    (h : n ≤ m) (ys : List α) : (xs ++ ys).take m = xs ++ ys.take (m - n) := by
  rw [List.take_append, hx, List.take_of_length_le (hx.trans_le h)]

theorem parseTag_eq_error {t B : List Byte} (ht : t.length = 4) (h : B.take 4 ≠ t) :
    parseTag t B = .error (malformed 0) := by
  have hnot : ∀ rest, parseTag t B ≠ .ok rest := fun rest hok =>
    h (by rw [(parseTag_eq_ok_iff ht).mp hok, List.take_left' ht])
  unfold parseTag at hnot ⊢
  split
  · split
    next heq => exact absurd (if_pos heq) (hnot _)
    next => rfl
  · rfl

theorem parseTag_short {t B : List Byte} (ht : t.length = 4) (h : B.length < 4) :
    parseTag t B = .error (malformed 0) :=
  parseTag_eq_error ht fun heq => by
    have := congrArg List.length heq
    simp [ht] at this
    omega

theorem get32_take_short (p : Nat) (B : List Byte) {m : Nat} (h : m < 4) :
    get32 p (B.take m) = .error (malformed p) :=
  get32_short p _ ((List.length_take_le m B).trans_lt h)

theorem getBytes_short {k p : Nat} {B : List Byte} (h : B.length < k) :
    getBytes k p B = .error (malformed p) := if_pos h

theorem parseEnd_of_ne_nil {B : List Byte} (h : B ≠ []) (p : Nat) :
    parseEnd p B = .error (malformed p) := if_neg h

/-! ### The loops, on the bytes of what they read (R100 to R102) -/

@[simp] theorem getWords_flatMap (K : List Word) (p : Nat) (B : List Byte) :
    getWords K.length p (K.flatMap u32be ++ B) = .ok (K, B) :=
  getWords_eq_ok_iff.mpr ⟨rfl, rfl⟩

/-- The words of the pairs, whatever the counts. -/
theorem exists_getPairs_flatMap (R : List SymCount) (p : Nat) (B : List Byte) :
    ∃ R', getPairs R.length p (R.flatMap pairBytes ++ B) = .ok (R', B) := by
  refine ⟨R.map fun r => ⟨r.sym, (BitVec.ofNat 32 r.cnt).toNat⟩, getPairs_eq_ok_iff.mpr
    ⟨List.length_map _, fun r hr => ?_, ?_⟩⟩
  · obtain ⟨r, -, rfl⟩ := List.mem_map.mp hr
    exact BitVec.isLt _
  · rw [List.flatMap_map]
    simp only [pairBytes_mk]
    rfl

theorem getWords_take (K : List Word) (p : Nat) (B : List Byte) {m : Nat} (h : m < 4 * K.length) :
    getWords K.length p ((K.flatMap u32be ++ B).take m) = .error (malformed (p + 4 * (m / 4))) := by
  induction K generalizing p m with
  | nil => simp at h
  | cons k K ih =>
    rw [List.length_cons, getWords, List.flatMap_cons, List.append_assoc]
    by_cases hm : m < 4
    · rw [bind_of_error (get32_take_short p _ hm), Nat.div_eq_of_lt hm]
      rfl
    · rw [take_append_of_length_le (u32be_length k) (not_lt.mp hm), bind_of_ok (get32_u32be p k _)]
      dsimp only
      rw [List.length_cons] at h
      have hoffset : p + 4 + 4 * ((m - 4) / 4) = p + 4 * (m / 4) := by omega
      rw [bind_of_error (ih (p + 4) (m := m - 4) (by omega)), hoffset]

theorem getPairs_take (R : List SymCount) (p : Nat) (B : List Byte) {m : Nat}
    (h : m < 8 * R.length) :
    getPairs R.length p ((R.flatMap pairBytes ++ B).take m) =
      .error (malformed (p + 4 * (m / 4))) := by
  induction R generalizing p m with
  | nil => simp at h
  | cons r R ih =>
    rw [List.length_cons, getPairs, List.flatMap_cons, pairBytes, List.append_assoc,
      List.append_assoc]
    by_cases hm : m < 4
    · rw [bind_of_error (get32_take_short p _ hm), Nat.div_eq_of_lt hm]
      rfl
    rw [take_append_of_length_le (u32be_length _) (not_lt.mp hm), bind_of_ok (get32_u32be p _ _)]
    dsimp only
    by_cases hm' : m < 8
    · have hoffset : p + 4 = p + 4 * (m / 4) := by omega
      rw [bind_of_error (get32_take_short _ _ (by omega)), hoffset]
    · rw [take_append_of_length_le (u32beNat_length _) (by omega), u32beNat,
        bind_of_ok (get32_u32be _ _ _)]
      dsimp only
      rw [List.length_cons] at h
      have hoffset : p + 8 + 4 * ((m - 4 - 4) / 4) = p + 4 * (m / 4) := by omega
      rw [bind_of_error (ih (p + 8) (m := m - 4 - 4) (by omega)), hoffset]

/-! ### The head of a container: a tag and a number -/

theorem toNat_ofNat_of_lt {n : Nat} (h : n < 2 ^ 32) : (BitVec.ofNat 32 n).toNat = n := by
  rw [BitVec.toNat_ofNat, Nat.mod_eq_of_lt h]

theorem parseTag_append (t B : List Byte) (ht : t.length = 4) : parseTag t (t ++ B) = .ok B :=
  (parseTag_eq_ok_iff ht).mpr rfl

theorem get32_u32beNat (p n : Nat) (B : List Byte) :
    get32 p (u32beNat n ++ B) = .ok (BitVec.ofNat 32 n, B) := get32_u32be p _ B

/-- The first eight bytes of a container, cut short. -/
theorem parse_head_take {α : Type} {t : List Byte} (ht : t.length = 4) (n : Nat) (B : List Byte)
    {m : Nat} (h : m < 8) (f : Word × List Byte → Except Report α) :
    (parseTag t ((t ++ (u32beNat n ++ B)).take m) >>= fun B => get32 4 B >>= f) =
      .error (malformed (4 * (m / 4))) := by
  by_cases hm : m < 4
  · rw [bind_of_error (parseTag_short ht ((List.length_take_le m _).trans_lt hm)),
      Nat.div_eq_of_lt hm]
  · have hoffset : 4 = 4 * (m / 4) := by omega
    rw [take_append_of_length_le ht (not_lt.mp hm), bind_of_ok (parseTag_append t _ ht),
      bind_of_error (get32_take_short 4 _ (by omega)), ← hoffset]

/-- A container of which the first eight bytes are whole, cut after `8 + m` bytes or not. -/
theorem parse_head_append {α : Type} {t : List Byte} (ht : t.length = 4) (n : Nat) (B : List Byte)
    (f : Word × List Byte → Except Report α) :
    (parseTag t (t ++ (u32beNat n ++ B)) >>= fun B => get32 4 B >>= f) =
      f (BitVec.ofNat 32 n, B) := by
  rw [bind_of_ok (parseTag_append t _ ht), bind_of_ok (get32_u32beNat 4 n B)]

theorem take_head_append {t : List Byte} (ht : t.length = 4) (n : Nat) (B : List Byte) {m : Nat}
    (h : 8 ≤ m) : (t ++ (u32beNat n ++ B)).take m = t ++ (u32beNat n ++ B.take (m - 8)) := by
  rw [take_append_of_length_le ht (by omega),
    take_append_of_length_le (u32beNat_length n) (by omega), Nat.sub_sub]

/-! ### A container cut short (R103) -/

theorem parseHcr1_take {R : List SymCount} {m : Nat} (hR : R.length < 2 ^ 32)
    (h : m < (serHcr1 R).length) :
    parseHcr1 ((serHcr1 R).take m) = .error (malformed (4 * (m / 4))) := by
  rw [serHcr1_length] at h
  rw [serHcr1, List.append_assoc, parseHcr1]
  by_cases hm : m < 8
  · exact parse_head_take rfl _ _ hm _
  · rw [take_head_append rfl _ _ (not_lt.mp hm), parse_head_append rfl,
      ← List.append_nil (R.flatMap pairBytes)]
    simp only [toNat_ofNat_of_lt hR]
    have hoffset : 8 + 4 * ((m - 8) / 4) = 4 * (m / 4) := by omega
    exact hoffset ▸ bind_of_error (getPairs_take R 8 [] (by omega))

theorem parseHcl1_take {K : List Word} {m : Nat} (hK : K.length < 2 ^ 32)
    (h : m < (serHcl1 K).length) :
    parseHcl1 ((serHcl1 K).take m) = .error (malformed (4 * (m / 4))) := by
  rw [serHcl1_length] at h
  rw [serHcl1, List.append_assoc, parseHcl1]
  by_cases hm : m < 8
  · exact parse_head_take rfl _ _ hm _
  · rw [take_head_append rfl _ _ (not_lt.mp hm), parse_head_append rfl,
      ← List.append_nil (K.flatMap u32be)]
    simp only [toNat_ofNat_of_lt hK]
    have hoffset : 8 + 4 * ((m - 8) / 4) = 4 * (m / 4) := by omega
    exact hoffset ▸ bind_of_error (getWords_take K 8 [] (by omega))

/-- The bytes of a Huffman container after its tag and its padding. -/
def hch1Tail (h : HufContainer) : List Byte :=
  u32beNat h.freq.length ++ (h.freq.flatMap pairBytes ++ (u32beNat h.packed.length ++ h.packed))

theorem serHch1_eq (h : HufContainer) : serHch1 h = tagHch1 ++ (u32beNat h.pad ++ hch1Tail h) := by
  simp [serHch1, hch1Tail]

/-- A Huffman container cut before its packed bytes. -/
theorem parseHch1_take_fields {h : HufContainer} {m : Nat} (hF : h.freq.length < 2 ^ 32)
    (hm : m < 16 + 8 * h.freq.length) :
    parseHch1 ((serHch1 h).take m) = .error (malformed (4 * (m / 4))) := by
  rw [serHch1_eq, parseHch1]
  by_cases hm8 : m < 8
  · exact parse_head_take rfl _ _ hm8 _
  rw [take_head_append rfl _ _ (not_lt.mp hm8), parse_head_append rfl, hch1Tail]
  dsimp only
  by_cases hm12 : m < 12
  · have hoffset : 8 = 4 * (m / 4) := by omega
    exact hoffset ▸ bind_of_error (get32_take_short 8 _ (by omega))
  rw [take_append_of_length_le (u32beNat_length _) (by omega), bind_of_ok (get32_u32beNat _ _ _)]
  simp only [toNat_ofNat_of_lt hF]
  by_cases hpairs : m < 12 + 8 * h.freq.length
  · have hoffset : 12 + 4 * ((m - 8 - 4) / 4) = 4 * (m / 4) := by omega
    exact hoffset ▸ bind_of_error (getPairs_take h.freq 12 _ (by omega))
  · obtain ⟨F, hF'⟩ := exists_getPairs_flatMap h.freq 12
      ((u32beNat h.packed.length ++ h.packed).take (m - 8 - 4 - 8 * h.freq.length))
    have hoffset : 12 + 8 * h.freq.length = 4 * (m / 4) := by omega
    rw [take_append_of_length_le (flatMap_length_const pairBytes 8 h.freq pairBytes_length)
      (by omega), bind_of_ok hF', bind_of_error (get32_take_short _ _ (by omega)), hoffset]

/-- A Huffman container whose fields are whole up to its packed bytes, of which the bytes `P` are there. -/
theorem parseHch1_packed {h : HufContainer} (hF : h.freq.length < 2 ^ 32)
    (hP : h.packed.length < 2 ^ 32) (P : List Byte) :
    ∃ F, parseHch1 (tagHch1 ++ (u32beNat h.pad ++ (u32beNat h.freq.length ++
        (h.freq.flatMap pairBytes ++ (u32beNat h.packed.length ++ P))))) =
      (do
        let (P, B) ← getBytes h.packed.length (16 + 8 * h.freq.length) P
        parseEnd (16 + 8 * h.freq.length + h.packed.length) B
        return ⟨(BitVec.ofNat 32 h.pad).toNat, F, P⟩) := by
  obtain ⟨F, hF'⟩ := exists_getPairs_flatMap h.freq 12 (u32beNat h.packed.length ++ P)
  refine ⟨F, ?_⟩
  rw [parseHch1, parse_head_append rfl]
  dsimp only
  rw [bind_of_ok (get32_u32beNat _ _ _)]
  simp only [toNat_ofNat_of_lt hF]
  rw [bind_of_ok hF']
  dsimp only
  rw [bind_of_ok (get32_u32beNat _ _ _)]
  simp only [toNat_ofNat_of_lt hP]

theorem parseHch1_take_packed {h : HufContainer} {m : Nat} (hF : h.freq.length < 2 ^ 32)
    (hP : h.packed.length < 2 ^ 32) (hle : 16 + 8 * h.freq.length ≤ m)
    (hm : m < (serHch1 h).length) :
    parseHch1 ((serHch1 h).take m) = .error (malformed (16 + 8 * h.freq.length)) := by
  rw [serHch1_length] at hm
  rw [serHch1_eq, take_head_append rfl _ _ (by omega), hch1Tail,
    take_append_of_length_le (u32beNat_length _) (by omega),
    take_append_of_length_le (flatMap_length_const pairBytes 8 h.freq pairBytes_length) (by omega),
    take_append_of_length_le (u32beNat_length _) (by omega)]
  obtain ⟨F, hparse⟩ := parseHch1_packed hF hP (h.packed.take (m - 8 - 4 - 8 * h.freq.length - 4))
  rw [hparse]
  exact bind_of_error (getBytes_short (by rw [List.length_take]; omega))

/-! ### Bytes left over (R103) -/

section
variable {x : List Byte} (hx : x ≠ [])
include hx

theorem parseHcr1_append {R : List SymCount} (hR : R.length < 2 ^ 32) :
    parseHcr1 (serHcr1 R ++ x) = .error (malformed (8 + 8 * R.length)) := by
  obtain ⟨R', hR'⟩ := exists_getPairs_flatMap R 8 x
  rw [serHcr1, List.append_assoc, List.append_assoc, parseHcr1, parse_head_append rfl]
  simp only [toNat_ofNat_of_lt hR, bind_of_ok hR']
  exact bind_of_error (parseEnd_of_ne_nil hx _)

theorem parseHcl1_append {K : List Word} (hK : K.length < 2 ^ 32) :
    parseHcl1 (serHcl1 K ++ x) = .error (malformed (8 + 4 * K.length)) := by
  rw [serHcl1, List.append_assoc, List.append_assoc, parseHcl1, parse_head_append rfl]
  simp only [toNat_ofNat_of_lt hK, bind_of_ok (getWords_flatMap K 8 x)]
  exact bind_of_error (parseEnd_of_ne_nil hx _)

theorem parseHch1_append {h : HufContainer} (hF : h.freq.length < 2 ^ 32)
    (hP : h.packed.length < 2 ^ 32) :
    parseHch1 (serHch1 h ++ x) =
      .error (malformed (16 + 8 * h.freq.length + h.packed.length)) := by
  obtain ⟨F, hparse⟩ := parseHch1_packed hF hP (h.packed ++ x)
  simp only [serHch1_eq, hch1Tail, List.append_assoc]
  rw [hparse, bind_of_ok (getBytes_eq_ok_iff.mpr ⟨rfl, rfl⟩)]
  exact bind_of_error (parseEnd_of_ne_nil hx _)

end

/-- Settles O59: the steps before the first field that is not whole succeed, and that step reports its
offset. -/
theorem truncatedContainers : Obligations.TruncatedContainers :=
  ⟨fun _ _ => parseHcr1_take, fun _ _ => parseHch1_take_fields, fun _ _ => parseHch1_take_packed,
    fun _ _ => parseHcl1_take, fun _ _ hR hx => parseHcr1_append hx hR,
    fun _ _ hF hP hx => parseHch1_append hx hF hP, fun _ _ hK hx => parseHcl1_append hx hK,
    fun _ => ⟨fun h => bind_of_error (parseTag_eq_error rfl h),
      fun h => bind_of_error (parseTag_eq_error rfl h),
      fun h => bind_of_error (parseTag_eq_error rfl h)⟩⟩

end Sys2Proof.Machine
end

section
/-! PROOFS. The value checks of a container (40_rle.md R135; 41_huffman.md R175): each scans a list and stops at
the first item that the items up to it cannot hold. -/

namespace Sys2Proof.Machine

/-! ### Scanning a list up to the first bad item -/

section
variable {α : Type} {P : List α → Prop} {xs : List α} {i j : Nat}

/-- Item `i` is the first at which the items so far no longer meet `P`. -/
def FirstBreak (P : List α → Prop) (xs : List α) (i : Nat) : Prop :=
  i < xs.length ∧ P (xs.take i) ∧ ¬ P (xs.take (i + 1))

/-- `P` holds of the beginnings of a list that meets it. -/
def PrefixClosed (P : List α → Prop) : Prop := ∀ {xs ys : List α}, xs <+: ys → P ys → P xs

theorem FirstBreak.not_holds (hP : PrefixClosed P) (h : FirstBreak P xs i) : ¬ P xs :=
  fun hxs => h.2.2 (hP (List.take_prefix _ _) hxs)

theorem FirstBreak.le (hP : PrefixClosed P) (hi : FirstBreak P xs i) (hj : FirstBreak P xs j) :
    j ≤ i :=
  not_lt.mp fun hlt => hi.2.2 (hP (List.take_prefix_take_left hlt) hj.2.1)

theorem FirstBreak.unique (hP : PrefixClosed P) (hi : FirstBreak P xs i) (hj : FirstBreak P xs j) :
    i = j := le_antisymm (hj.le hP hi) (hi.le hP hj)

/-- A scan that goes on as long as the items so far meet `P`, and else reports the item's place. -/
structure ScansFor (P : List α → Prop) (place : Nat → Report)
    (scan : List α → List α → Except Report Unit) : Prop where
  nil : ∀ D, scan D [] = .ok ()
  good : ∀ D x xs, P D → P (D ++ [x]) → scan D (x :: xs) = scan (D ++ [x]) xs
  bad : ∀ D x xs, P D → ¬ P (D ++ [x]) → scan D (x :: xs) = .error (place D.length)

variable {place : Nat → Report} {scan : List α → List α → Except Report Unit}
  (h : ScansFor P place scan)
include h

theorem ScansFor.cases_from {D : List α} (hD : P D) (xs : List α) :
    (scan D xs = .ok () ∧ P (D ++ xs)) ∨
      ∃ i, scan D xs = .error (place i) ∧ FirstBreak P (D ++ xs) i := by
  induction xs generalizing D with
  | nil => exact .inl ⟨h.nil D, by rwa [List.append_nil]⟩
  | cons x xs ih =>
    by_cases hx : P (D ++ [x])
    · rw [h.good D x xs hD hx]
      simpa using ih hx
    · refine .inr ⟨_, h.bad D x xs hD hx, by simp, by simpa using hD, ?_⟩
      simpa [List.take_append, List.take_of_length_le] using hx

variable (hP : PrefixClosed P) (hnil : P [])
include hP hnil

theorem ScansFor.eq_ok_iff (xs : List α) : scan [] xs = .ok () ↔ P xs := by
  obtain ⟨hok, hxs⟩ | ⟨i, herr, hi⟩ := h.cases_from hnil xs
  · exact iff_of_true hok hxs
  · exact iff_of_false (by simp [herr]) (hi.not_holds hP)

theorem ScansFor.eq_error_iff (xs : List α) (e : Report) :
    scan [] xs = .error e ↔ ∃ i, e = place i ∧ FirstBreak P xs i := by
  obtain ⟨hok, hxs⟩ | ⟨i, herr, hi⟩ := h.cases_from hnil xs
  · exact iff_of_false (by simp [hok]) fun ⟨_, _, hj⟩ => hj.not_holds hP hxs
  · rw [herr]
    constructor
    · rintro ⟨⟩
      exact ⟨i, rfl, hi⟩
    · rintro ⟨j, rfl, hj⟩
      rw [FirstBreak.unique hP hi hj]

end

/-- The symbol before the next pair of a container. -/
def lastSym (R : List SymCount) : Option Sym := R.getLast?.map SymCount.sym

@[simp] theorem lastSym_concat (R : List SymCount) (r : SymCount) :
    lastSym (R ++ [r]) = some r.sym := by simp [lastSym]

/-! ### The run-list invariants (40_rle.md R135) -/

theorem runListOk_concat {R : List SymCount} {r : SymCount} :
    runListOk (R ++ [r]) ↔ runListOk R ∧ 1 ≤ r.cnt ∧ lastSym R ≠ some r.sym := by
  have hlast : (∀ d ∈ R.getLast?, d.sym ≠ r.sym) ↔ lastSym R ≠ some r.sym := by
    cases h : R.getLast? <;> simp [lastSym, h]
  rw [← hlast]
  simp only [runListOk, List.isChain_append, List.forall_mem_append, List.forall_mem_singleton,
    List.head?_singleton, Option.mem_some_iff, forall_eq', List.isChain_singleton, true_and]
  tauto

theorem runListOk_prefixClosed : PrefixClosed runListOk := by
  rintro R _ ⟨T, rfl⟩ ⟨hcnt, hchain⟩
  exact ⟨fun r hr => hcnt r (List.mem_append_left T hr), hchain.left_of_append⟩

theorem checkRunsFrom_scansFor : ScansFor runListOk (fun i => ⟨.corruptedData, 8 + 8 * i⟩)
    (fun D R => checkRunsFrom (8 + 8 * D.length) (lastSym D) R) where
  nil D := rfl
  good D r R _ hr := by
    obtain ⟨-, hcnt, hsym⟩ := runListOk_concat.mp hr
    rw [checkRunsFrom, if_neg (Nat.one_le_iff_ne_zero.mp hcnt), if_neg hsym, lastSym_concat,
      List.length_append, List.length_singleton, Nat.mul_succ, ← Nat.add_assoc]
  bad D r R hD hr := by
    rw [checkRunsFrom]
    split
    · rfl
    next hcnt =>
      refine if_pos (not_not.mp fun hsym => hr ?_)
      exact runListOk_concat.mpr ⟨hD, Nat.one_le_iff_ne_zero.mpr hcnt, hsym⟩

theorem runListOk_nil : runListOk [] := by simp [runListOk]

theorem checkRuns_eq_ok_iff (R : List SymCount) : checkRuns R = .ok () ↔ runListOk R :=
  checkRunsFrom_scansFor.eq_ok_iff runListOk_prefixClosed runListOk_nil R

theorem checkRuns_eq_error_iff (R : List SymCount) (e : Report) : checkRuns R = .error e ↔
    ∃ i, e = ⟨.corruptedData, 8 + 8 * i⟩ ∧ FirstBreak runListOk R i :=
  checkRunsFrom_scansFor.eq_error_iff runListOk_prefixClosed runListOk_nil R e

/-! ### The entries of a stored frequency table (41_huffman.md R175) -/

/-- Ascending symbols, said of neighbours. -/
theorem freqTableOk_iff_isChain {F : List SymCount} : freqTableOk F ↔
    (∀ e ∈ F, 1 ≤ e.cnt) ∧ F.IsChain (fun a b => a.sym.toNat < b.sym.toNat) := by
  have : IsTrans SymCount (fun a b => a.sym.toNat < b.sym.toNat) := ⟨fun _ _ _ => lt_trans⟩
  rw [freqTableOk, List.isChain_iff_pairwise]

theorem freqTableOk_concat {F : List SymCount} {e : SymCount} : freqTableOk (F ++ [e]) ↔
    freqTableOk F ∧ 1 ≤ e.cnt ∧ ¬ (lastSym F).any (fun v => decide (e.sym.toNat ≤ v.toNat)) := by
  have hlast : (∀ d ∈ F.getLast?, d.sym.toNat < e.sym.toNat) ↔
      ¬ (lastSym F).any (fun v => decide (e.sym.toNat ≤ v.toNat)) := by
    cases h : F.getLast? <;> simp [lastSym, h]
  rw [← hlast]
  simp only [freqTableOk_iff_isChain, List.isChain_append, List.forall_mem_append,
    List.forall_mem_singleton, List.head?_singleton, Option.mem_some_iff, forall_eq',
    List.isChain_singleton, true_and]
  tauto

theorem freqTableOk_prefixClosed : PrefixClosed freqTableOk := fun hpre h =>
  ⟨fun r hr => h.1 r (hpre.subset hr), h.2.sublist hpre.sublist⟩

theorem checkFreqFrom_scansFor : ScansFor freqTableOk (fun i => ⟨.corruptedData, 12 + 8 * i⟩)
    (fun D F => checkFreqFrom (12 + 8 * D.length) (lastSym D) F) where
  nil D := rfl
  good D e F _ he := by
    obtain ⟨-, hcnt, hsym⟩ := freqTableOk_concat.mp he
    rw [checkFreqFrom, if_neg (Nat.one_le_iff_ne_zero.mp hcnt), if_neg hsym, lastSym_concat,
      List.length_append, List.length_singleton, Nat.mul_succ, ← Nat.add_assoc]
  bad D e F hD he := by
    rw [checkFreqFrom]
    split
    · rfl
    next hcnt =>
      refine if_pos (not_not.mp fun hsym => he ?_)
      exact freqTableOk_concat.mpr ⟨hD, Nat.one_le_iff_ne_zero.mpr hcnt, hsym⟩

theorem freqTableOk_nil : freqTableOk [] := by simp [freqTableOk]

theorem checkFreqFrom_eq_ok_iff (F : List SymCount) :
    checkFreqFrom 12 none F = .ok () ↔ freqTableOk F :=
  checkFreqFrom_scansFor.eq_ok_iff freqTableOk_prefixClosed freqTableOk_nil F

theorem checkFreqFrom_eq_error_iff (F : List SymCount) (e : Report) :
    checkFreqFrom 12 none F = .error e ↔
      ∃ i, e = ⟨.corruptedData, 12 + 8 * i⟩ ∧ FirstBreak freqTableOk F i :=
  checkFreqFrom_scansFor.eq_error_iff freqTableOk_prefixClosed freqTableOk_nil F e

/-! ### The checks of a Huffman container, in their order (41_huffman.md R175) -/

section
variable {h : HufContainer}

theorem checkHch1_pad (hpad : h.pad < 1 ∨ 8 < h.pad) :
    checkHch1 h = .error ⟨.corruptedData, 4⟩ := if_pos hpad

variable (hpad : ¬ (h.pad < 1 ∨ 8 < h.pad))
include hpad

theorem checkHch1_entry {e : Report} (hF : checkFreqFrom 12 none h.freq = .error e) :
    checkHch1 h = .error e := by
  rw [checkHch1, if_neg hpad, hF]

theorem checkHch1_packed (hF : checkFreqFrom 12 none h.freq = .ok ()) :
    checkHch1 h = if h.pad ≠ 8 ∧ h.packed = [] then
      .error ⟨.corruptedData, 12 + 8 * h.freq.length⟩ else .ok () := by
  rw [checkHch1, if_neg hpad, hF]

end

theorem checkHch1_eq_ok_iff (h : HufContainer) : checkHch1 h = .ok () ↔
    1 ≤ h.pad ∧ h.pad ≤ 8 ∧ freqTableOk h.freq ∧ (h.pad = 8 ∨ h.packed ≠ []) := by
  by_cases hpad : h.pad < 1 ∨ 8 < h.pad
  · exact iff_of_false (by simp [checkHch1_pad hpad]) (by omega)
  rcases hF : checkFreqFrom 12 none h.freq with e | _
  · refine iff_of_false (by simp [checkHch1_entry hpad hF]) fun hok => ?_
    simp [(checkFreqFrom_eq_ok_iff h.freq).mpr hok.2.2.1] at hF
  · have hfreq := (checkFreqFrom_eq_ok_iff h.freq).mp hF
    rw [checkHch1_packed hpad hF]
    by_cases hpacked : h.pad ≠ 8 ∧ h.packed = []
    · rw [if_pos hpacked]
      simp [hpacked]
    · rw [if_neg hpacked]
      exact iff_of_true rfl ⟨by omega, by omega, hfreq, by tauto⟩

/-- Settles O52: both scans stop at the first pair or entry that breaks the rules of those before it, of which
there is one at most. -/
theorem containerValueChecks : Obligations.ContainerValueChecks := by
  refine ⟨fun R => ⟨checkRuns_eq_ok_iff R, fun e => (checkRuns_eq_error_iff R e).trans
    (exists_congr fun _ => and_left_comm)⟩, fun h => ⟨checkHch1_eq_ok_iff h, checkHch1_pad,
      fun i h1 h8 hi hgood hbad => ?_, fun h1 h8 hF hP => ?_⟩⟩
  · exact checkHch1_entry (by omega)
      ((checkFreqFrom_eq_error_iff h.freq _).mpr ⟨i, rfl, hi, hgood, hbad⟩)
  · rw [checkHch1_packed (by omega) ((checkFreqFrom_eq_ok_iff h.freq).mpr hF),
      if_pos ⟨h8.ne, hP⟩]

end Sys2Proof.Machine
end

section
/-! PROOFS. The laws of the RLE unit (40_rle.md R141): the run-list of a stream and its two ways back. -/

namespace Sys2Proof.Machine

/-! ### The run-list, symbol by symbol (R130): the runs are held in reverse order -/

/-- One more symbol is one more symbol of the expansion. -/
theorem rleExpand_reverse_rleStep (R : List SymCount) (c : Sym) :
    rleExpand (rleStep R c).reverse = rleExpand R.reverse ++ [c] := by
  unfold rleStep
  split
  · rfl
  next r R =>
    split
    next hc => simp [rleExpand, ← hc, List.replicate_succ']
    next => simp [rleExpand]

theorem rleExpand_reverse_foldl_rleStep (S : List Sym) (R : List SymCount) :
    rleExpand (S.foldl rleStep R).reverse = rleExpand R.reverse ++ S := by
  induction S generalizing R with
  | nil => simp
  | cons c S ih => rw [List.foldl_cons, ih, rleExpand_reverse_rleStep, List.append_assoc]; rfl

theorem rleExpand_rleRuns (S : List Sym) : rleExpand (rleRuns S) = S :=
  rleExpand_reverse_foldl_rleStep S []

theorem runTotal_rleRuns (S : List Sym) : runTotal (rleRuns S) = S.length := by
  rw [← rleExpand_length, rleExpand_rleRuns]

/-- A run is opened for another symbol than that of the run before. -/
theorem rleStep_isChain {R : List SymCount} (h : R.IsChain (fun a b => b.sym ≠ a.sym)) (c : Sym) :
    (rleStep R c).IsChain (fun a b => b.sym ≠ a.sym) := by
  unfold rleStep
  split
  · exact .singleton _
  next r R =>
    split
    next => cases h with
      | singleton => exact .singleton _
      | cons_cons hab h => exact .cons_cons hab h
    next hc => exact .cons_cons hc h

theorem rleRuns_isChain (S : List Sym) : (rleRuns S).IsChain (fun a b => a.sym ≠ b.sym) :=
  List.isChain_reverse.mpr (List.foldlRecOn (motive := List.IsChain (fun a b => b.sym ≠ a.sym))
    S rleStep .nil fun _ hR c _ => rleStep_isChain hR c)

theorem rleRuns_runListOk (S : List Sym) : runListOk (rleRuns S) :=
  ⟨rleRuns_cnt_pos S, rleRuns_isChain S⟩

/-! ### The container of the runs -/

theorem rleRuns_length_le (S : List Sym) : (rleRuns S).length ≤ S.length := by
  rw [← runTotal_rleRuns S, runTotal, ← List.length_map (as := rleRuns S) SymCount.cnt]
  exact List.length_le_sum_of_one_le _ (List.forall_mem_map.mpr (rleRuns_cnt_pos S))

theorem cnt_le_of_mem_rleRuns {S : List Sym} {r : SymCount} (hr : r ∈ rleRuns S) :
    r.cnt ≤ S.length := by
  rw [← runTotal_rleRuns S]
  exact List.le_sum_of_mem (List.mem_map_of_mem hr)

theorem parseHcr1_serHcr1_rleRuns {S : List Sym} (h : S.length < 2 ^ 32) :
    parseHcr1 (serHcr1 (rleRuns S)) = .ok (rleRuns S) :=
  (parseHcr1_eq_ok_iff _ _).mpr ⟨(rleRuns_length_le S).trans_lt h,
    fun _ hr => (cnt_le_of_mem_rleRuns hr).trans_lt h, rfl⟩

/-! ### The text of the runs (R136, R138) -/

theorem sym_mem_of_mem_rleRuns {S : List Sym} {r : SymCount} (hr : r ∈ rleRuns S) : r.sym ∈ S := by
  rw [← rleExpand_rleRuns S, rleExpand, List.mem_flatMap]
  exact ⟨r, hr, List.mem_replicate.mpr ⟨Nat.one_le_iff_ne_zero.mp (rleRuns_cnt_pos S r hr), rfl⟩⟩

/-- The token a run is written as. -/
def runToken (r : SymCount) : Token where
  digits := decimal r.cnt
  sym := r.sym

theorem runToken_ok {r : SymCount} (hcnt : 1 ≤ r.cnt) (hsym : isDigit r.sym = false) :
    (runToken r).ok :=
  ⟨decimal_ne_nil hcnt, fun _ => isDigit_of_mem_decimal, hsym⟩

theorem rleTextEnc_eq_tokens (S : List Sym) :
    rleTextEnc S = ((rleRuns S).map runToken).flatMap Token.text := by
  rw [List.flatMap_map]
  rfl

theorem rleTextDec_rleTextEnc {S : List Sym} (h : ∀ c ∈ S, isDigit c = false) :
    rleTextDec (rleTextEnc S) = .ok S := by
  have htokens : ∀ t ∈ (rleRuns S).map runToken, t.ok := List.forall_mem_map.mpr fun r hr =>
    runToken_ok (rleRuns_cnt_pos S r hr) (h _ (sym_mem_of_mem_rleRuns hr))
  have hexpand : (rleRuns S).flatMap (fun r => List.replicate (digitsValue (runToken r).digits) r.sym) =
      rleExpand (rleRuns S) := by
    simp only [runToken, digitsValue_decimal, rleExpand]
  rw [rleTextEnc_eq_tokens, rleTextDec_tokens _ htokens, List.flatMap_map]
  exact congrArg Except.ok (hexpand.trans (rleExpand_rleRuns S))

/-- Settles O41: expansion undoes the runs; they meet the invariants, so the container and the text of them
are read back. -/
theorem rleLaws : Obligations.RleLaws :=
  ⟨rleExpand_rleRuns,
    fun S hS => ⟨parseHcr1_serHcr1_rleRuns hS, (checkRuns_eq_ok_iff _).mpr (rleRuns_runListOk S)⟩,
    fun S => ⟨rleRuns_runListOk S, runTotal_rleRuns S⟩,
    fun _ => rleTextDec_rleTextEnc⟩

/-- Settles O43: the three texts, read token by token. -/
theorem digitLimitation : Obligations.DigitLimitation := by
  refine ⟨by decide, by decide, by decide, ?_, by decide, by decide⟩
  exact (rleTextDec_tokens [⟨[0x31, 0x31, 0x31], 0x61⟩] (by simp [Token.ok, isDigit])).trans
    (by simp [digitsValue, digitVal])

end Sys2Proof.Machine

namespace Sys2Proof

/-- Settles O1: the fields of each word are read off its number. -/
theorem sampleWordsDecode : Obligations.SampleWordsDecode := by
  unfold Obligations.SampleWordsDecode
  decide

end Sys2Proof
end

section
/-! PROOFS. Huffman codes are the paths to the leaves of the tree, so none begins another (41_huffman.md R166),
and what is encoded with them is decoded (section 7). -/

namespace Sys2Proof.Machine

/-! ### The traversal of a tree -/

theorem walk_code_isPrefix {t : HuffNode} {p : Bits} {e : Entry} (he : e ∈ walk p t) :
    p <+: e.code := by
  induction t generalizing p with
  | leaf sym w q =>
    rw [List.mem_singleton.mp he]
  | node l r w q ihl ihr =>
    rcases List.mem_append.mp he with he | he
    · exact (List.prefix_append p _).trans (ihl he)
    · exact (List.prefix_append p _).trans (ihr he)

/-- An entry of the traversal is a leaf with the path that leads to it. -/
theorem mem_walk_iff {t : HuffNode} {p code : Bits} {sym : Sym} :
    ⟨sym, p ++ code⟩ ∈ walk p t ↔ ∃ w q, t.follow code = some (.leaf sym w q) := by
  induction t generalizing p code with
  | leaf s w q =>
    cases code with
    | nil => simp [walk, HuffNode.follow, eq_comm]
    | cons b code => simp [walk, HuffNode.follow]
  | node l r w q ihl ihr =>
    have hother {b : Bool} {x : HuffNode} {code : Bits} (h : ⟨sym, p ++ code⟩ ∈ walk (p ++ [b]) x) :
        ∃ rest, code = b :: rest := by
      obtain ⟨rest, hrest⟩ := walk_code_isPrefix h
      exact ⟨rest, by simpa [eq_comm] using hrest⟩
    rw [walk, List.mem_append]
    rcases code with _ | ⟨_ | _, code⟩
    · refine iff_of_false ?_ (by simp [HuffNode.follow])
      rintro (h | h) <;> exact absurd (hother h) (by simp)
    · rw [HuffNode.follow, ← ihl (p := p ++ [false]), or_iff_left fun h => by simpa using hother h]
      simp
    · rw [HuffNode.follow, ← ihr (p := p ++ [true]), or_iff_right fun h => by simpa using hother h]
      simp

theorem HuffNode.leaves_length_pos (t : HuffNode) : 1 ≤ t.leaves.length := by
  induction t with
  | leaf sym w q => exact le_rfl
  | node l r w q ihl ihr =>
    rw [leaves, List.length_append]
    omega

/-- A path is shorter than the number of leaves: each edge leaves a leaf behind. -/
theorem walk_code_length_lt {t : HuffNode} {p : Bits} {e : Entry} (he : e ∈ walk p t) :
    e.code.length < p.length + t.leaves.length := by
  induction t generalizing p with
  | leaf sym w q =>
    rw [List.mem_singleton.mp he]
    exact Nat.lt_succ_self _
  | node l r w q ihl ihr =>
    have hl := l.leaves_length_pos
    have hr := r.leaves_length_pos
    rw [HuffNode.leaves, List.length_append]
    rcases List.mem_append.mp he with he | he
    · have := ihl he
      rw [List.length_append, List.length_singleton] at this
      omega
    · have := ihr he
      rw [List.length_append, List.length_singleton] at this
      omega

/-! ### Codes none of which begins another -/

/-- Neither code begins with the other. -/
def codesApart (d e : Entry) : Prop := ¬ d.code <+: e.code ∧ ¬ e.code <+: d.code

/-- Paths that part go to different leaves. -/
theorem not_isPrefix_of_parted {p c d : Bits} {b : Bool} (hc : p ++ [b] <+: c)
    (hd : p ++ [!b] <+: d) : ¬ c <+: d := by
  intro hcd
  obtain ⟨r, hr⟩ := List.prefix_of_prefix_length_le (hc.trans hcd) hd (by simp)
  rw [List.append_assoc] at hr
  cases b <;> simp at hr

theorem walk_codesApart (t : HuffNode) (p : Bits) : (walk p t).Pairwise codesApart := by
  induction t generalizing p with
  | leaf sym w q => exact List.pairwise_singleton _ _
  | node l r w q ihl ihr =>
    refine List.pairwise_append.mpr ⟨ihl _, ihr _, fun d hd e he => ⟨?_, ?_⟩⟩
    · exact not_isPrefix_of_parted (walk_code_isPrefix hd) (walk_code_isPrefix he)
    · exact not_isPrefix_of_parted (walk_code_isPrefix he) (walk_code_isPrefix hd)

/-! ### The code table of a tree -/

theorem huffCodes_perm_walk {t : HuffNode} (h : 2 ≤ t.leaves.length) :
    (huffCodes (some t)).Perm (walk [] t) := by
  cases t with
  | leaf sym w q => simp [HuffNode.leaves] at h
  | node l r w q => exact sortEntries_perm _

theorem sortEntries_sorted (C : List Entry) :
    (sortEntries C).Pairwise (fun d e => d.sym.toNat ≤ e.sym.toNat) := by
  have : Std.Total (fun d e : Entry => d.sym.toNat ≤ e.sym.toNat) := ⟨fun _ _ => le_total _ _⟩
  have : IsTrans Entry (fun d e => d.sym.toNat ≤ e.sym.toNat) := ⟨fun _ _ _ => le_trans⟩
  rw [sortEntries_eq_insertionSort]
  exact List.pairwise_insertionSort _ C

theorem huffCodes_sorted (t : HuffNode) :
    (huffCodes (some t)).Pairwise (fun d e => d.sym.toNat ≤ e.sym.toNat) := by
  cases t with
  | leaf sym w q => exact List.pairwise_singleton _ _
  | node l r w q => exact sortEntries_sorted _

theorem huffCodes_code_ne_nil {t : HuffNode} {e : Entry} (he : e ∈ huffCodes (some t)) :
    e.code ≠ [] := by
  cases t with
  | leaf sym w q =>
    rw [List.mem_singleton.mp he]
    exact List.cons_ne_nil _ _
  | node l r w q =>
    rcases List.mem_append.mp ((sortEntries_perm _).mem_iff.mp he) with he | he
    · exact (walk_code_isPrefix he).ne_nil (by simp)
    · exact (walk_code_isPrefix he).ne_nil (by simp)

theorem huffCodes_codesApart (t : HuffNode) : (huffCodes (some t)).Pairwise codesApart := by
  cases t with
  | leaf sym w q => exact List.pairwise_singleton _ _
  | node l r w q => exact (sortEntries_perm _).symm.pairwise (walk_codesApart _ []) fun h => h.symm

/-! ### The code table of a frequency table (R166) -/

section
variable {F : List SymCount} (hF : freqTableOk F)
include hF

theorem map_sym_huffCodes_huffTree :
    (huffCodes (huffTree F)).map Entry.sym = F.map SymCount.sym := by
  refine (map_sym_huffCodes_huffTree_perm F).eq_of_pairwise
    (le := fun a b => a.toNat ≤ b.toNat) (fun a b _ _ hab hba => ?_) ?_ ?_
  · exact BitVec.eq_of_toNat_eq (le_antisymm hab hba)
  · cases huffTree F with
    | none => exact .nil
    | some t => exact List.pairwise_map.mpr (huffCodes_sorted t)
  · exact List.pairwise_map.mpr (hF.2.imp fun h => h.le)

theorem huffCodes_huffTree_codeTableOk : codeTableOk (huffCodes (huffTree F)) := by
  have hsyms : (huffCodes (huffTree F)).Pairwise (fun d e => d.sym ≠ e.sym) := by
    rw [← List.pairwise_map (f := Entry.sym) (R := (· ≠ ·)), map_sym_huffCodes_huffTree hF]
    exact hF.syms_nodup
  cases ht : huffTree F with
  | none => exact codeTableOk_nil
  | some t =>
    rw [ht] at hsyms
    exact ⟨fun e he => huffCodes_code_ne_nil he, hsyms.and (huffCodes_codesApart t)⟩

end

/-- The tree of two entries or more, and its code table. -/
theorem exists_huffTree_walk {F : List SymCount} (h : 2 ≤ F.length) :
    ∃ t, huffTree F = some t ∧ t.leaves.length = F.length ∧
      (huffCodes (huffTree F)).Perm (walk [] t) := by
  obtain ⟨t, ht⟩ := exists_queue_singleton (F := F) (by rintro rfl; simp at h)
  obtain ⟨-, hleaves, -⟩ := huffTree_spec ht
  rw [huffTree_of_queue ht]
  exact ⟨t, rfl, hleaves.length_eq, huffCodes_perm_walk (hleaves.length_eq ▸ h)⟩

/-- Settles O47: the table is the traversal of the tree in the order of symbols, and paths to different
leaves part at some node. -/
theorem codesArePrefixFree : Obligations.CodesArePrefixFree := by
  refine ⟨rfl, fun F hF => ⟨map_sym_huffCodes_huffTree hF, huffCodes_huffTree_codeTableOk hF,
    fun e he => he ▸ rfl, fun h e he => ?_, fun h => ?_⟩⟩
  · obtain ⟨t, -, hlen, hperm⟩ := exists_huffTree_walk h
    have := walk_code_length_lt (hperm.mem_iff.mp he)
    rw [hlen, List.length_nil] at this
    omega
  · obtain ⟨t, ht, -, hperm⟩ := exists_huffTree_walk h
    exact ⟨t, ht, hperm, fun sym code => hperm.mem_iff.trans (mem_walk_iff (p := []))⟩

/-! ### The round trip (section 7) -/

theorem tableOf_codeTableOk (S : List Sym) : codeTableOk (tableOf S) :=
  huffCodes_huffTree_codeTableOk (huffFreq_freqTableOk S)

/-- The entry a symbol of a stream has in the stream's own table. -/
theorem entry_mem_tableOf {S : List Sym} {c : Sym} (hc : c ∈ S) :
    ⟨c, codeBits (tableOf S) c⟩ ∈ tableOf S := by
  obtain ⟨e, he, rfl⟩ := (mem_iff_mem_tableOf S c).mp hc
  rwa [codeBits_of_mem (map_sym_tableOf_nodup S) he]

theorem huffDecode_codeBits (S : List Sym) :
    huffDecode (S.flatMap (codeBits (tableOf S))) (tableOf S) = .ok S := by
  have hdecode := huffDecode_codes (tableOf_codeTableOk S)
    (es := S.map fun c => ⟨c, codeBits (tableOf S) c⟩)
    (List.forall_mem_map.mpr fun c hc => entry_mem_tableOf hc)
  rw [List.flatMap_map, List.map_map] at hdecode
  exact hdecode.trans (congrArg Except.ok (List.map_id S))

/-- Settles O53: the encoding is the concatenation of codes of the table, which is prefix-free. -/
theorem huffmanRoundTrip : Obligations.HuffmanRoundTrip := by
  refine fun S k => ⟨(huffCheckTable_eq_ok_iff _).mpr (tableOf_codeTableOk S), ?_⟩
  rw [huffEncode_tableOf]
  exact huffDecode_codeBits S

end Sys2Proof.Machine
end

section
/-! PROOFS. When LZW encoding and decoding raise an error (42_lzw.md R212, R213, R216; 60_exceptions.md R246,
R247). -/

namespace Sys2Proof.Machine

/-! ### The encoder stops at the first symbol above 255 (R212) -/

theorem lzwEncodeFrom_eq_error_iff {i : Nat} {x : LzwEnc} {S : List Sym} {e : Report} :
    lzwEncodeFrom i x S = .error e ↔ ∃ (j : Nat) (c : Sym), e = ⟨.unsupportedSymbolRange, i + j⟩ ∧
      S[j]? = some c ∧ 255 < c.toNat ∧ ∀ d ∈ S.take j, d.toNat ≤ 255 := by
  induction S generalizing i x with
  | nil => simp [lzwEncodeFrom]
  | cons c S ih =>
    rw [lzwEncodeFrom]
    split
    next hc =>
      constructor
      · rintro ⟨⟩
        exact ⟨0, c, rfl, rfl, hc, by simp⟩
      · rintro ⟨j, d, rfl, -, -, hbefore⟩
        cases j with
        | zero => rfl
        | succ j => exact absurd (hbefore c (by simp)) (not_le.mpr hc)
    next hc =>
      rw [ih]
      constructor
      · rintro ⟨j, d, rfl, hd, hover, hbefore⟩
        refine ⟨j + 1, d, by rw [Nat.add_right_comm, Nat.add_assoc], hd, hover, ?_⟩
        rw [List.take_succ_cons]
        exact List.forall_mem_cons.mpr ⟨not_lt.mp hc, hbefore⟩
      · rintro ⟨j, d, rfl, hd, hover, hbefore⟩
        cases j with
        | zero =>
          cases hd
          exact absurd hover hc
        | succ j =>
          rw [List.take_succ_cons] at hbefore
          exact ⟨j, d, by rw [Nat.add_right_comm, Nat.add_assoc], hd, hover,
            (List.forall_mem_cons.mp hbefore).2⟩

theorem lzwEncode_eq_error_iff (S : List Sym) (e : Report) : lzwEncode S = .error e ↔
    ∃ (i : Nat) (c : Sym), e = ⟨.unsupportedSymbolRange, i⟩ ∧ S[i]? = some c ∧ 255 < c.toNat ∧
      ∀ d ∈ S.take i, d.toNat ≤ 255 := by
  have h := lzwEncodeFrom_eq_error_iff (i := 0) (x := .seed) (S := S) (e := e)
  simp only [Nat.zero_add] at h
  rw [← h, lzwEncode]
  cases lzwEncodeFrom 0 .seed S <;> simp [Except.map]

/-! ### The decoder knows the codes up to the next one (R213) -/

/-- The entries have the codes from 256 on, and all symbols are at most 255. -/
structure LzwDec.Inv (x : LzwDec) : Prop where
  next : x.nextCode = 256 + x.added.length
  added : ∀ e ∈ x.added, ∀ c ∈ e, c.toNat ≤ 255
  w : ∀ c ∈ x.w, c.toNat ≤ 255
  out : ∀ c ∈ x.out, c.toNat ≤ 255

theorem toNat_ofNat_of_lt_256 {k : Nat} (h : k < 256) : (BitVec.ofNat 32 k).toNat = k :=
  toNat_ofNat_of_lt (by omega)

theorem LzwDec.first_inv {k : Nat} (h : k < 256) : (first k).Inv := by
  have hk : ∀ c ∈ [BitVec.ofNat 32 k], c.toNat ≤ 255 := by
    rw [List.forall_mem_singleton, toNat_ofNat_of_lt_256 h]
    omega
  exact ⟨rfl, by simp [first], hk, hk⟩

theorem LzwDec.Inv.emit {x : LzwDec} (h : x.Inv) {e : List Sym} (he : ∀ c ∈ e, c.toNat ≤ 255) :
    (x.emit e).Inv where
  next := by simp [LzwDec.emit, h.next, Nat.add_assoc]
  added := by
    refine List.forall_mem_append.mpr ⟨h.added, List.forall_mem_singleton.mpr ?_⟩
    exact List.forall_mem_append.mpr ⟨h.w, fun c hc => he c (List.mem_of_mem_take hc)⟩
  w := he
  out := List.forall_mem_append.mpr ⟨h.out, he⟩

/-- A code stands for an entry exactly when it is at most the next code. -/
theorem LzwDec.Inv.resolveCode_cases {x : LzwDec} (h : x.Inv) (k : Nat) :
    (k ≤ x.nextCode ∧ ∃ e, x.resolveCode k = some e ∧ ∀ c ∈ e, c.toNat ≤ 255) ∨
      (x.nextCode < k ∧ x.resolveCode k = none) := by
  have hnext := h.next
  unfold resolveCode entry
  by_cases hk : k < 256
  · rw [if_pos hk]
    refine .inl ⟨by omega, _, rfl, List.forall_mem_singleton.mpr ?_⟩
    rw [toNat_ofNat_of_lt_256 hk]
    omega
  rw [if_neg hk]
  by_cases hadded : k - 256 < x.added.length
  · rw [List.getElem?_eq_getElem hadded]
    exact .inl ⟨by omega, _, rfl, h.added _ (List.getElem_mem hadded)⟩
  rw [List.getElem?_eq_none (not_lt.mp hadded)]
  by_cases hself : k = x.nextCode
  · refine .inl ⟨hself.le, _, if_pos hself, List.forall_mem_append.mpr ⟨h.w, fun c hc => ?_⟩⟩
    exact h.w c (List.mem_of_mem_take hc)
  · exact .inr ⟨by omega, if_neg hself⟩

/-! ### The decoder stops at the first code it does not know -/

/-- Code `i` of a sequence that begins at index `n` is above `255 + (n + i)`, no code before it so. -/
def FirstUnknown (n : Nat) (K : List Nat) (i : Nat) : Prop :=
  ∃ k, K[i]? = some k ∧ 255 + (n + i) < k ∧
    ∀ (j d : Nat), j < i → K[j]? = some d → d ≤ 255 + (n + j)

/-- Every code is known when its turn comes. -/
def AllKnown (n : Nat) (K : List Nat) : Prop := ∀ (i k : Nat), K[i]? = some k → k ≤ 255 + (n + i)

theorem allKnown_cons {n k : Nat} {K : List Nat} (hk : k ≤ 255 + n) (h : AllKnown (n + 1) K) :
    AllKnown n (k :: K)
  | 0, _, rfl => hk
  | i + 1, d, hd => by
    have := h i d hd
    omega

theorem FirstUnknown.cons {n k i : Nat} {K : List Nat} (hk : k ≤ 255 + n)
    (h : FirstUnknown (n + 1) K i) : FirstUnknown n (k :: K) (i + 1) := by
  obtain ⟨d, hd, hover, hbefore⟩ := h
  refine ⟨d, hd, by omega, fun j c hj hc => ?_⟩
  cases j with
  | zero =>
    cases hc
    exact hk
  | succ j =>
    have := hbefore j c (by omega) hc
    omega

theorem FirstUnknown.not_allKnown {n i : Nat} {K : List Nat} (h : FirstUnknown n K i) :
    ¬ AllKnown n K := fun hall =>
  have ⟨k, hk, hover, _⟩ := h
  absurd (hall i k hk) (not_le.mpr hover)

theorem FirstUnknown.unique {n i j : Nat} {K : List Nat} (hi : FirstUnknown n K i)
    (hj : FirstUnknown n K j) : i = j := by
  obtain ⟨k, hk, hkover, hkbefore⟩ := hi
  obtain ⟨d, hd, hdover, hdbefore⟩ := hj
  rcases lt_trichotomy i j with hlt | heq | hlt
  · exact absurd (hdbefore i k hlt hk) (not_le.mpr hkover)
  · exact heq
  · exact absurd (hkbefore j d hlt hd) (not_le.mpr hdover)

theorem lzwDecodeFrom_cases {n : Nat} {x : LzwDec} (hx : x.Inv) (hn : x.nextCode = 255 + n)
    (K : List Nat) :
    (AllKnown n K ∧ ∃ S, lzwDecodeFrom n x K = .ok S ∧ ∀ c ∈ S, c.toNat ≤ 255) ∨
      ∃ i, FirstUnknown n K i ∧ lzwDecodeFrom n x K = .error ⟨.corruptedLZWStream, n + i⟩ := by
  induction K generalizing n x with
  | nil => exact .inl ⟨fun i k h => by simp at h, x.out, rfl, hx.out⟩
  | cons k K ih =>
    obtain ⟨hk, e, he, hsyms⟩ | ⟨hk, hnone⟩ := hx.resolveCode_cases k
    · rw [lzwDecodeFrom, he]
      have hnext : (x.emit e).nextCode = 255 + (n + 1) := congrArg (· + 1) hn
      obtain ⟨hall, hok⟩ | ⟨i, hi, herr⟩ := ih (hx.emit hsyms) hnext
      · exact .inl ⟨allKnown_cons (hn ▸ hk) hall, hok⟩
      · refine .inr ⟨i + 1, hi.cons (hn ▸ hk), ?_⟩
        rw [← Nat.add_assoc, Nat.add_right_comm]
        exact herr
    · rw [lzwDecodeFrom, hnone]
      exact .inr ⟨0, ⟨k, rfl, hn ▸ hk, by simp⟩, rfl⟩

theorem lzwDecode_cases (K : List Nat) :
    (AllKnown 0 K ∧ ∃ S, lzwDecode K = .ok S ∧ ∀ c ∈ S, c.toNat ≤ 255) ∨
      ∃ i, FirstUnknown 0 K i ∧ lzwDecode K = .error ⟨.corruptedLZWStream, i⟩ := by
  cases K with
  | nil => exact .inl ⟨fun i k h => by simp at h, [], rfl, by simp⟩
  | cons k K =>
    rw [lzwDecode]
    split
    next hk => exact .inr ⟨0, ⟨k, rfl, by omega, by simp⟩, rfl⟩
    next hk =>
      obtain ⟨hall, hok⟩ | ⟨i, hi, herr⟩ :=
        lzwDecodeFrom_cases (n := 1) (LzwDec.first_inv (not_le.mp hk)) rfl K
      · exact .inl ⟨allKnown_cons (by omega) hall, hok⟩
      · exact .inr ⟨i + 1, hi.cons (by omega), Nat.add_comm 1 i ▸ herr⟩

theorem lzwDecode_exists_ok_iff (K : List Nat) : (∃ S, lzwDecode K = .ok S) ↔ AllKnown 0 K := by
  obtain ⟨hall, S, hok, -⟩ | ⟨i, hi, herr⟩ := lzwDecode_cases K
  · exact iff_of_true ⟨S, hok⟩ hall
  · exact iff_of_false (by simp [herr]) hi.not_allKnown

theorem lzwDecode_eq_error_iff (K : List Nat) (e : Report) :
    lzwDecode K = .error e ↔ ∃ i, e = ⟨.corruptedLZWStream, i⟩ ∧ FirstUnknown 0 K i := by
  obtain ⟨hall, S, hok, -⟩ | ⟨i, hi, herr⟩ := lzwDecode_cases K
  · exact iff_of_false (by simp [hok]) fun ⟨_, _, hj⟩ => hj.not_allKnown hall
  · rw [herr]
    constructor
    · rintro ⟨⟩
      exact ⟨i, rfl, hi⟩
    · rintro ⟨j, rfl, hj⟩
      rw [hi.unique hj]

theorem lzwDecode_syms_le {K : List Nat} {S : List Sym} (h : lzwDecode K = .ok S) :
    ∀ c ∈ S, c.toNat ≤ 255 := by
  obtain ⟨-, S', hok, hsyms⟩ | ⟨i, -, herr⟩ := lzwDecode_cases K
  · cases hok.symm.trans h
    exact hsyms
  · cases herr.symm.trans h

/-- Settles O56: after `i` codes the decoder's next code is `255 + i`, the greatest it can resolve. -/
theorem lzwErrors : Obligations.LzwErrors := by
  refine ⟨lzwEncode_eq_error_iff, fun K => ⟨?_, fun e => ?_, fun S => lzwDecode_syms_le⟩⟩
  · simpa [AllKnown] using lzwDecode_exists_ok_iff K
  · simpa [FirstUnknown] using lzwDecode_eq_error_iff K e

end Sys2Proof.Machine
end

section
/-! PROOFS. The laws of the LZW unit (42_lzw.md R219): the decoder, one entry behind the encoder, rebuilds its
dictionary. -/

namespace Sys2Proof.Machine

/-! ### The encoder's dictionary (R211, R212) -/

theorem mem_of_lookupAdded {w : List Sym} {A : List (List Sym × Nat)} {k : Nat}
    (h : lookupAdded w A = some k) : (w, k) ∈ A := by
  induction A with
  | nil => cases h
  | cons a A ih =>
    obtain ⟨v, j⟩ := a
    rw [lookupAdded] at h
    split at h
    next hv =>
      cases h
      exact hv ▸ .head _
    next => exact .tail _ (ih h)

/-- A word has the code of its one symbol, or it is one of those added. -/
theorem LzwEnc.code_cases {x : LzwEnc} {w : List Sym} {k : Nat} (h : x.code w = some k) :
    (∃ b : Sym, w = [b] ∧ b.toNat ≤ 255 ∧ k = b.toNat) ∨ (w, k) ∈ x.added := by
  unfold code at h
  split at h
  next b =>
    split at h
    next hb =>
      cases h
      exact .inl ⟨b, rfl, hb, rfl⟩
    next => exact .inr (mem_of_lookupAdded h)
  next => exact .inr (mem_of_lookupAdded h)

theorem LzwEnc.code_singleton (x : LzwEnc) {c : Sym} (h : c.toNat ≤ 255) :
    x.code [c] = some c.toNat := if_pos h

/-- What the match buffer becomes (R212): longer by the symbol, or the symbol alone after a code is emitted. -/
theorem LzwEnc.step_cases (x : LzwEnc) (c : Sym) :
    ((∃ k, x.code (x.w ++ [c]) = some k) ∧ x.step c = { x with w := x.w ++ [c] }) ∨
      (x.code (x.w ++ [c]) = none ∧
        x.step c = ⟨(x.w ++ [c], x.nextCode) :: x.added, x.nextCode + 1, [c],
          x.out ++ (x.code x.w).toList⟩) := by
  unfold step
  cases h : x.code (x.w ++ [c]) with
  | some k => exact .inl ⟨⟨k, rfl⟩, rfl⟩
  | none => exact .inr ⟨rfl, rfl⟩

/-! ### Encoder and decoder in step -/

/-- The encoder has read `P` and emitted a code; the decoder, in state `y`, has taken every code emitted. Its
entries and the one it will insert next are the words of the encoder's dictionary, in the order of codes. -/
structure InStep (P : List Sym) (x : LzwEnc) (y : LzwDec) : Prop where
  decoded : ∀ K, lzwDecode (x.out ++ K) = lzwDecodeFrom x.out.length y K
  listed : ∀ v k, (v, k) ∈ x.added →
    256 ≤ k ∧ (y.added ++ [y.w ++ x.w.take 1])[k - 256]? = some v
  encNext : x.nextCode = 256 + y.added.length + 1
  decNext : y.nextCode = 256 + y.added.length
  known : ∃ k, x.code x.w = some k
  w_ne_nil : x.w ≠ []
  dec_w_ne_nil : y.w ≠ []
  read : y.out ++ x.w = P
  outLength : x.out.length ≤ y.out.length

/-- The code of the match buffer, which is emitted next, stands for it: for a known entry, or for the one the
decoder is about to insert (the self-reference case of R213). -/
theorem InStep.resolveCode {P : List Sym} {x : LzwEnc} {y : LzwDec} (h : InStep P x y) {k : Nat}
    (hk : x.code x.w = some k) : y.resolveCode k = some x.w := by
  unfold LzwDec.resolveCode LzwDec.entry
  obtain ⟨b, hb, hle, rfl⟩ | hmem := LzwEnc.code_cases hk
  · rw [if_pos (Nat.lt_succ_of_le hle), hb, BitVec.ofNat_toNat, BitVec.setWidth_eq]
  obtain ⟨hge, hword⟩ := h.listed _ _ hmem
  rw [if_neg (not_lt.mpr hge)]
  obtain ⟨hlt, -⟩ := List.getElem?_eq_some_iff.mp hword
  rw [List.length_append, List.length_singleton] at hlt
  by_cases hadded : k - 256 < y.added.length
  · rw [List.getElem?_append_left hadded] at hword
    rw [hword]
  · rw [List.getElem?_append_right (not_lt.mp hadded), List.getElem?_singleton] at hword
    have hself : y.w ++ x.w.take 1 = x.w := by
      split at hword <;> simp_all
    have htake : x.w.take 1 = y.w.take 1 := by
      rw [← hself, List.take_append_of_le_length (List.length_pos_of_ne_nil h.dec_w_ne_nil)]
    rw [List.getElem?_eq_none (not_lt.mp hadded)]
    dsimp only
    rw [if_pos (by rw [h.decNext]; omega), ← htake, hself]

/-- The decoder takes the code of the match buffer. -/
theorem InStep.lzwDecode_emit {P : List Sym} {x : LzwEnc} {y : LzwDec} (h : InStep P x y) {k : Nat}
    (hk : x.code x.w = some k) (K : List Nat) :
    lzwDecode (x.out ++ [k] ++ K) = lzwDecodeFrom (x.out.length + 1) (y.emit x.w) K := by
  rw [List.append_assoc, h.decoded, List.singleton_append, lzwDecodeFrom, h.resolveCode hk]

theorem InStep.step {P : List Sym} {x : LzwEnc} {y : LzwDec} (h : InStep P x y) {c : Sym}
    (hc : c.toNat ≤ 255) : ∃ y', InStep (P ++ [c]) (x.step c) y' := by
  obtain ⟨⟨k, hk⟩, heq⟩ | ⟨-, heq⟩ := x.step_cases c
  · have htake : (x.w ++ [c]).take 1 = x.w.take 1 :=
      List.take_append_of_le_length (List.length_pos_of_ne_nil h.w_ne_nil)
    rw [heq]
    refine ⟨y, { h with listed := ?_, known := ⟨k, hk⟩, w_ne_nil := by simp, read := ?_ }⟩
    · rw [htake]
      exact h.listed
    · rw [← List.append_assoc, h.read]
  · obtain ⟨k, hk⟩ := h.known
    rw [heq, hk, Option.toList_some]
    refine ⟨y.emit x.w, ?_, ?_, ?_, ?_, ⟨_, LzwEnc.code_singleton _ hc⟩, by simp, h.w_ne_nil, ?_, ?_⟩
    · intro K
      rw [h.lzwDecode_emit hk, List.length_append, List.length_singleton]
    · intro v j hj
      simp only [LzwDec.emit, List.take_succ_cons, List.take_zero]
      rcases List.mem_cons.mp hj with hj | hj
      · cases hj
        refine ⟨by rw [h.encNext]; omega, ?_⟩
        have hlast : x.nextCode - 256 = (y.added ++ [y.w ++ x.w.take 1]).length := by
          rw [h.encNext, List.length_append, List.length_singleton]
          omega
        rw [hlast, List.getElem?_concat_length]
      · obtain ⟨hge, hword⟩ := h.listed v j hj
        obtain ⟨hlt, -⟩ := List.getElem?_eq_some_iff.mp hword
        exact ⟨hge, (List.getElem?_append_left hlt).trans hword⟩
    · simp only [LzwDec.emit, List.length_append, List.length_singleton]
      rw [h.encNext, Nat.add_assoc, Nat.add_assoc, Nat.add_assoc]
    · simp only [LzwDec.emit, List.length_append, List.length_singleton]
      rw [h.decNext, Nat.add_assoc]
    · simp only [LzwDec.emit]
      rw [h.read]
    · have := List.length_pos_of_ne_nil h.w_ne_nil
      have := h.outLength
      simp only [LzwDec.emit, List.length_append, List.length_singleton]
      omega

/-! ### From the first symbol on -/

/-- The encoder has read `P`: at most one symbol, no code emitted, or the decoder is in step with it. -/
def Encoding (P : List Sym) (x : LzwEnc) : Prop :=
  (x = ⟨[], 256, P, []⟩ ∧ (P = [] ∨ ∃ c : Sym, P = [c] ∧ c.toNat ≤ 255)) ∨ ∃ y, InStep P x y

theorem encoding_seed : Encoding [] .seed := .inl ⟨rfl, .inl rfl⟩

/-- The second symbol: the first is emitted as its own code. -/
theorem inStep_second (b c : Sym) (hb : b.toNat ≤ 255) (hc : c.toNat ≤ 255) :
    InStep [b, c] (LzwEnc.step ⟨[], 256, [b], []⟩ c) (.first b.toNat) := by
  have hstep : LzwEnc.step ⟨[], 256, [b], []⟩ c = ⟨[([b, c], 256)], 257, [c], [b.toNat]⟩ := by
    simp [LzwEnc.step, LzwEnc.code, lookupAdded, hb]
  have hword : BitVec.ofNat 32 b.toNat = b := by rw [BitVec.ofNat_toNat, BitVec.setWidth_eq]
  rw [hstep]
  refine ⟨fun K => ?_, fun v k hk => ?_, rfl, rfl, ⟨_, LzwEnc.code_singleton _ hc⟩, by simp,
    by simp [LzwDec.first], by simp [LzwDec.first, hword], le_rfl⟩
  · rw [List.singleton_append, lzwDecode, if_neg (by omega)]
    rfl
  · cases List.mem_singleton.mp hk
    simp [LzwDec.first, hword]

theorem Encoding.step {P : List Sym} {x : LzwEnc} (h : Encoding P x) {c : Sym}
    (hc : c.toNat ≤ 255) : Encoding (P ++ [c]) (x.step c) := by
  obtain ⟨rfl, rfl | ⟨b, rfl, hb⟩⟩ | ⟨y, hy⟩ := h
  · refine .inl ⟨?_, .inr ⟨c, rfl, hc⟩⟩
    simp [LzwEnc.step, LzwEnc.code, hc]
  · exact .inr ⟨_, inStep_second b c hb hc⟩
  · exact .inr (hy.step hc)

theorem Encoding.lzwEncodeFrom {P : List Sym} {x : LzwEnc} (h : Encoding P x) {S : List Sym}
    (hS : ∀ c ∈ S, c.toNat ≤ 255) (i : Nat) :
    ∃ x', lzwEncodeFrom i x S = .ok x' ∧ Encoding (P ++ S) x' := by
  induction S generalizing P x i with
  | nil => exact ⟨x, rfl, by rwa [List.append_nil]⟩
  | cons c S ih =>
    obtain ⟨hc, hS⟩ := List.forall_mem_cons.mp hS
    obtain ⟨x', hok, hx'⟩ := ih (h.step hc) hS (i + 1)
    refine ⟨x', ?_, by simpa using hx'⟩
    rw [Machine.lzwEncodeFrom, if_neg (not_lt.mpr hc), hok]

/-- The codes of all that was read, flushed. -/
theorem Encoding.flush {P : List Sym} {x : LzwEnc} (h : Encoding P x) :
    lzwDecode x.flush = .ok P ∧ x.flush.length ≤ P.length := by
  obtain ⟨rfl, rfl | ⟨b, rfl, hb⟩⟩ | ⟨y, hy⟩ := h
  · exact ⟨rfl, le_rfl⟩
  · have hflush : LzwEnc.flush ⟨[], 256, [b], []⟩ = [b.toNat] := by
      simp [LzwEnc.flush, LzwEnc.code, hb]
    rw [hflush, lzwDecode, if_neg (by omega)]
    simp [lzwDecodeFrom, LzwDec.first]
  · obtain ⟨k, hk⟩ := hy.known
    have hemit := hy.lzwDecode_emit hk []
    have hread : (y.emit x.w).out = P := hy.read
    have hlength := congrArg List.length hy.read
    have := List.length_pos_of_ne_nil hy.w_ne_nil
    have := hy.outLength
    rw [List.append_nil, lzwDecodeFrom, hread] at hemit
    rw [LzwEnc.flush, if_neg hy.w_ne_nil, hk, Option.toList_some]
    refine ⟨hemit, ?_⟩
    rw [List.length_append] at hlength ⊢
    rw [List.length_singleton]
    omega

/-! ### The laws -/

theorem exists_lzwEncode {S : List Sym} (hS : ∀ c ∈ S, c.toNat ≤ 255) :
    ∃ K, lzwEncode S = .ok K ∧ lzwDecode K = .ok S ∧ K.length ≤ S.length := by
  obtain ⟨x, hok, hx⟩ := encoding_seed.lzwEncodeFrom hS 0
  obtain ⟨hdecode, hlength⟩ := hx.flush
  exact ⟨x.flush, by rw [lzwEncode, hok]; rfl, hdecode, hlength⟩

/-- A code that decodes is below 256 and the number of codes. -/
theorem lt_of_mem_of_lzwDecode {K : List Nat} {S : List Sym} (h : lzwDecode K = .ok S) {k : Nat}
    (hk : k ∈ K) : k < 256 + K.length := by
  obtain ⟨i, hi, rfl⟩ := List.getElem_of_mem hk
  have := (lzwDecode_exists_ok_iff K).mp ⟨S, h⟩ i _ (List.getElem?_eq_getElem hi)
  omega

theorem codeNats_codeWords {K : List Nat} (h : ∀ k ∈ K, k < 2 ^ 32) :
    codeNats (codeWords K) = K := by
  rw [codeNats, codeWords, List.map_map]
  exact (List.map_congr_left fun k hk => toNat_ofNat_of_lt (h k hk)).trans (List.map_id K)

theorem parseHcl1_serHcl1 {K : List Word} (h : K.length < 2 ^ 32) :
    parseHcl1 (serHcl1 K) = .ok K := (parseHcl1_eq_ok_iff _ _).mpr ⟨h, rfl⟩

/-- Settles O55: at the end the decoder takes the flushed code and has emitted all that was read. -/
theorem lzwLaws : Obligations.LzwLaws := by
  refine ⟨fun S hS => ?_, [65, 66, 256, 258, 66], by decide, by decide, by decide⟩
  obtain ⟨K, hencode, hdecode, hlength⟩ := exists_lzwEncode hS
  have hcodes : ∀ k ∈ K, k < 256 + S.length := fun k hk =>
    (lt_of_mem_of_lzwDecode hdecode hk).trans_le (Nat.add_le_add_left hlength 256)
  refine ⟨K, hencode, hdecode, hlength, hcodes, fun hfit => ?_⟩
  have hwords : codeNats (codeWords K) = K :=
    codeNats_codeWords fun k hk => (hcodes k hk).trans_le (by omega)
  have hparse : parseHcl1 (serHcl1 (codeWords K)) = .ok (codeWords K) :=
    parseHcl1_serHcl1 (by rw [codeWords_length]; omega)
  exact (congrArg (Except.map _) hparse).trans (congrArg Except.ok hwords)

end Sys2Proof.Machine
end

section
/-! PROOFS. The outcomes of a command of HUF, whatever its sources (60_exceptions.md R249, R252). -/

namespace Sys2Proof.Machine

section
variable {α : Type} {s : State} {i : Instr} {op : Nat → Except Report α × Nat}
  {limits : α → List Limit} {write : HufUnit → α → HufUnit} {a : α} {k : Nat}

theorem hufCommand_sourceTooLong {id : Nat} (h : s.sourceOverflow i = some id) :
    hufCommand s i op limits write =
      .next { s with huf := s.huf.failed (tooLong id) s.huf.aux.free } :=
  hufCommand_error (h := by rw [h, byPriority_overflow]) ..

variable (h : s.sourceOverflow i = none)
include h

theorem hufCommand_opError {e : Report} (hop : op s.huf.aux.free = (.error e, k)) :
    hufCommand s i op limits write = .next { s with huf := s.huf.failed e k } :=
  hufCommand_error (h := by rw [h, byPriority_error hop]) ..

theorem hufCommand_resultTooLong {id : Nat} (hop : op s.huf.aux.free = (.ok a, k))
    (hl : leastExceeded (limits a) = some id) :
    hufCommand s i op limits write = .next { s with huf := s.huf.failed (tooLong id) k } :=
  hufCommand_error (h := by rw [h, byPriority_tooLong hop hl]) ..

theorem hufCommand_done {p : Prop} [Decidable p] (hop : op s.huf.aux.free = (.ok a, k))
    (hl : leastExceeded (limits a) = none) (hp : (write s.huf a).symLen = 0 ↔ p) :
    hufCommand s i op limits write =
      .next { s with huf := (write s.huf a).ended (doneWord p) k } := by
  rw [← statusDone_emptyFlag hp]
  exact hufCommand_ok (h := by rw [h, byPriority_ok hop hl]) ..

end

/-! ### The sources of the four commands -/

section
variable {s : State}

/-- HUF.DEC has two sources; the id of `BIT` is the lesser. -/
theorem sourceOverflow_hufDec_bit (h : s.cfg.capBit < s.huf.bitLen.toNat) :
    s.sourceOverflow .hufDec = some 2 := by
  refine (leastExceeded_some _ _).mpr ⟨⟨_, .head _, h, rfl⟩, fun l hl _ => ?_⟩
  simp only [Instr.sources, List.map_cons, List.map_nil, List.mem_cons, List.not_mem_nil,
    or_false] at hl
  rcases hl with rfl | rfl
  · exact le_rfl
  · exact (by decide : 2 ≤ 3)

theorem sourceOverflow_hufDec_tab (hbit : s.huf.bitLen.toNat ≤ s.cfg.capBit)
    (h : s.cfg.capTab < s.huf.tabLen.toNat) : s.sourceOverflow .hufDec = some 3 := by
  refine (leastExceeded_some _ _).mpr ⟨⟨_, .tail _ (.head _), h, rfl⟩, fun l hl hover => ?_⟩
  simp only [Instr.sources, List.map_cons, List.map_nil, List.mem_cons, List.not_mem_nil,
    or_false] at hl
  rcases hl with rfl | rfl
  · exact absurd hover (not_lt.mpr hbit)
  · exact le_rfl

theorem sourceOverflow_hufDec_none (hbit : s.huf.bitLen.toNat ≤ s.cfg.capBit)
    (htab : s.huf.tabLen.toNat ≤ s.cfg.capTab) : s.sourceOverflow .hufDec = none :=
  leastExceeded_pair_none hbit htab

end

/-! ### What the commands compute -/

/-- Both readings of `SYM` and the encoding of the second with the table of the first. -/
theorem hufEncodeSource_eq {x : HufUnit} {S S' : List Sym} {bits : Bits} {k k1 k2 k3 : Nat}
    (hfirst : x.readSym k = (S, k1)) (hsecond : x.readSym k1 = (S', k2))
    (hbits : huffEncode (tableOf S) S' k2 = (bits, k3)) :
    hufEncodeSource x k = (⟨huffFreq S, tableOf S, bits, S'⟩, k3) := by
  rw [tableOf] at hbits
  simp only [hufEncodeSource, hfirst, hsecond, hbits, tableOf]

/-- A decoding that emits nothing has read nothing. -/
theorem huffDecodeFrom_eq_ok_nil {C : List Entry} {j : Nat} {x : BitScratch} {bits : Bits}
    (h : huffDecodeFrom C j x bits = .ok []) : x.buf = [] ∧ bits = [] := by
  induction bits generalizing j x with
  | nil =>
    rw [huffDecodeFrom] at h
    split at h
    next hbuf => exact ⟨hbuf, rfl⟩
    next => cases h
  | cons b bits ih =>
    cases hfind : C.find? (fun d => decide (d.code = x.buf ++ [b])) with
    | some e =>
      rw [huffDecodeFrom_cons_some hfind] at h
      cases hrest : huffDecodeFrom C (j + 1) ⟨[], j + 1⟩ bits <;> rw [hrest] at h <;> cases h
    | none =>
      rw [huffDecodeFrom_cons_none hfind] at h
      exact absurd (ih h).1 (by simp)

theorem huffDecode_ok_eq_nil_iff {C : List Entry} {bits : Bits} {S : List Sym}
    (h : huffDecode bits C = .ok S) : S = [] ↔ bits = [] := by
  constructor
  · rintro rfl
    exact (huffDecodeFrom_eq_ok_nil h).2
  · rintro rfl
    cases h
    rfl

/-- `SYM_LEN` after a decoding that fits. -/
theorem HufUnit.writeSym_symLen_eq_zero_iff_of_huffDecode {c : Config} (hc : c.wellFormed = true)
    (x : HufUnit) {C : List Entry} {bits : Bits} {S : List Sym} (hdecode : huffDecode bits C = .ok S)
    (h : S.length ≤ c.capSym) : (x.writeSym S).symLen = 0 ↔ bits = [] := by
  rw [HufUnit.writeSym_symLen, ofNat_length_eq_zero_iff hc .hufSym h,
    huffDecode_ok_eq_nil_iff hdecode]

/-- What `HUF.DECB` decodes: the parse, the value checks, the decoding with the rebuilt table. -/
theorem hufDecodeContainer_eq {B : List Byte} {h : HufContainer} (hparse : parseHch1 B = .ok h)
    (hcheck : checkHch1 h = .ok ()) : hufDecodeContainer B =
      (huffDecode (bitUnpack h.pad h.packed) (huffCodes (huffTree h.freq))).map fun S =>
        ⟨h.freq, huffCodes (huffTree h.freq), bitUnpack h.pad h.packed, S⟩ := by
  rw [hufDecodeContainer, bind_of_ok hparse, bind_of_ok hcheck]
  dsimp only
  cases huffDecode (bitUnpack h.pad h.packed) (huffCodes (huffTree h.freq)) <;> rfl

/-! ### The four commands (41_huffman.md R172 to R175) -/

theorem leastExceeded_cons_none {l : Limit} {ls : List Limit} (hl : l.need ≤ l.cap)
    (hls : leastExceeded ls = none) : leastExceeded (l :: ls) = none :=
  (leastExceeded_none _).mpr (List.forall_mem_cons.mpr ⟨hl, (leastExceeded_none ls).mp hls⟩)

theorem clenLimit_fits {c : Config} {C : List Entry} (h : ∀ e ∈ C, e.code.length ≤ c.capClen) :
    (clenLimit c C).need ≤ (clenLimit c C).cap := (longestCode_le C _).mpr h

/-- Settles O34: the table read is the table checked and decoded with; only no bits decode to nothing. -/
theorem hufDecResult : Obligations.HufDecResult := by
  simp only [Obligations.HufDecResult, exec, execHufDec]
  refine ⟨rfl, fun s h => hufCommand_sourceTooLong (sourceOverflow_hufDec_bit h),
    fun s hbit h => hufCommand_sourceTooLong (sourceOverflow_hufDec_tab hbit h),
    fun s C bits k k' hc hbit htab hC hbits => ?_⟩
  have hnone := sourceOverflow_hufDec_none hbit htab
  refine ⟨fun e hcheck => ?_, fun e hcheck hdecode => ?_, fun S hcheck hdecode hfit => ?_,
    fun S hcheck hdecode hlong => ?_⟩
  · exact hufCommand_opError hnone (by simp only [hC, hbits, bind_of_error hcheck])
  · exact hufCommand_opError hnone (by simp only [hC, hbits, bind_of_ok hcheck, hdecode])
  · exact hufCommand_done hnone (by simp only [hC, hbits, bind_of_ok hcheck, hdecode])
      (leastExceeded_single_none hfit)
      (HufUnit.writeSym_symLen_eq_zero_iff_of_huffDecode hc _ hdecode hfit)
  · exact hufCommand_resultTooLong hnone (by simp only [hC, hbits, bind_of_ok hcheck, hdecode])
      (leastExceeded_single_some hlong)

/-- Settles O36: the operation's error is the parse's, the value check's or the decoder's; only no bits decode
to nothing. -/
theorem hufDecbResult : Obligations.HufDecbResult := by
  simp only [Obligations.HufDecbResult, exec, execHufDecb]
  have hi : Instr.hufDecb.sources = [.hufByt] := rfl
  refine ⟨rfl, fun s h => hufCommand_sourceTooLong (State.sourceOverflow_eq_some hi h),
    fun s B k hc hlen hread => ?_⟩
  have hnone := State.sourceOverflow_eq_none hi hlen
  refine ⟨fun e hparse => ?_, fun h e hparse hcheck => ?_, ?_⟩
  · exact hufCommand_opError hnone
      (by simp only [hread, hufDecodeContainer, bind_of_error hparse])
  · exact hufCommand_opError hnone
      (by simp only [hread, hufDecodeContainer, bind_of_ok hparse, bind_of_error hcheck])
  rintro h _ _ hparse hcheck rfl rfl
  have hcontainer := hufDecodeContainer_eq hparse hcheck
  have hok {S} (hdecode : huffDecode (bitUnpack h.pad h.packed) (huffCodes (huffTree h.freq)) =
      .ok S) : hufDecodeContainer B =
        .ok ⟨h.freq, huffCodes (huffTree h.freq), bitUnpack h.pad h.packed, S⟩ := by
    rw [hcontainer, hdecode]
    rfl
  refine ⟨fun e hdecode => ?_, fun S hdecode htab hclen hbit hsym => ?_, fun S id hdecode hid => ?_⟩
  · exact hufCommand_opError hnone (by simp only [hread, hcontainer, hdecode, Except.map])
  · exact hufCommand_done
      (a := HufImage.mk h.freq (huffCodes (huffTree h.freq)) (bitUnpack h.pad h.packed) S) hnone
      (by simp only [hread, hok hdecode])
      (leastExceeded_cons_none htab (leastExceeded_cons_none (clenLimit_fits hclen)
        (leastExceeded_pair_none hbit hsym)))
      (HufUnit.writeSym_symLen_eq_zero_iff_of_huffDecode hc _ hdecode hsym)
  · exact hufCommand_resultTooLong
      (a := HufImage.mk h.freq (huffCodes (huffTree h.freq)) (bitUnpack h.pad h.packed) S) hnone
      (by simp only [hread, hok hdecode]) hid

/-! ### The encoders: neither writes `SYM_LEN`, so `EMPTY` is that of the source -/

/-- Settles O33: the table and the bitstring are the result. -/
theorem hufEncResult : Obligations.HufEncResult := by
  simp only [Obligations.HufEncResult, exec, execHufEnc]
  have hi : Instr.hufEnc.sources = [.hufSym] := rfl
  refine ⟨rfl, fun s h => hufCommand_sourceTooLong (State.sourceOverflow_eq_some hi h),
    fun s S S' bits k k' k'' hlen hfirst hsecond hbits => ?_⟩
  have hnone := State.sourceOverflow_eq_none hi hlen
  have hsource := hufEncodeSource_eq hfirst hsecond hbits
  refine ⟨fun htab hclen hbit => ?_, fun id hid => ?_⟩
  · exact hufCommand_done (a := HufImage.mk (huffFreq S) (tableOf S) bits S') hnone (by simp only [hsource])
      (leastExceeded_cons_none htab (leastExceeded_pair_none (clenLimit_fits hclen) hbit)) Iff.rfl
  · exact hufCommand_resultTooLong (a := HufImage.mk (huffFreq S) (tableOf S) bits S') hnone
      (by simp only [hsource]) hid

/-- Settles O35: the container of the packed bitstring is the result, of the length the last limit says. -/
theorem hufEncbResult : Obligations.HufEncbResult := by
  simp only [Obligations.HufEncbResult, exec, execHufEncb]
  have hi : Instr.hufEncb.sources = [.hufSym] := rfl
  refine ⟨rfl, fun s h => hufCommand_sourceTooLong (State.sourceOverflow_eq_some hi h), ?_⟩
  intro s S S' bits k k' k'' pad P hlen hfirst hsecond hbits hpack
  obtain ⟨rfl, rfl⟩ : (bitPack bits).1 = pad ∧ (bitPack bits).2 = P := by simp [hpack]
  have hnone := State.sourceOverflow_eq_none hi hlen
  have hsource := hufEncodeSource_eq hfirst hsecond hbits
  refine ⟨fun htab hclen hbit hbyt => ?_, fun id hid => ?_⟩
  · rw [← serHch1_length ⟨(bitPack bits).1, huffFreq S, (bitPack bits).2⟩]
    exact hufCommand_done (a := HufImage.mk (huffFreq S) (tableOf S) bits S') hnone (by simp only [hsource])
      (leastExceeded_cons_none htab (leastExceeded_cons_none (clenLimit_fits hclen)
        (leastExceeded_pair_none hbit hbyt))) Iff.rfl
  · exact hufCommand_resultTooLong (a := HufImage.mk (huffFreq S) (tableOf S) bits S') hnone
      (by simp only [hsource]) hid

/-! ### The decoder of plain LZW codes (42_lzw.md R216) -/

/-- Settles O38: the decoder's error or its symbols; only the empty code sequence decodes to nothing. -/
theorem lzwDecResult : Obligations.LzwDecResult := by
  simp only [Obligations.LzwDecResult, exec, execLzwDec, codeNats]
  have hi : Instr.lzwDec.sources = [.lzwCod] := rfl
  refine ⟨rfl, fun s h => lzwCommand_sourceTooLong hi h, fun s K k hc h hread =>
    ⟨fun e he => ?_, fun S hS hfit => ?_, fun S hS hlong => ?_⟩⟩
  · exact lzwCommand_opError hi h (by simp only [hread, he])
  · refine lzwCommand_done hi h (by simp only [hread, hS]) (leastExceeded_single_none hfit) ?_
    have hK : K.length = s.lzw.codLen.toNat := by
      rw [LzwUnit.readCod] at hread
      rw [← (Prod.mk.inj hread).1, resolve_length, Memory.content_length]
    rw [LzwUnit.writeSym_symLen_eq_zero_iff_of_lzwDecode hc _ hS hfit, ← List.length_eq_zero_iff, hK]
    exact BitVec.toNat_inj (y := 0#32)
  · exact lzwCommand_resultTooLong hi h (by simp only [hread, hS])
      (leastExceeded_single_some hlong)

end Sys2Proof.Machine
end

section
/-! PROOFS. The byte round trips on the machine (41_huffman.md section 7; 42_lzw.md section 3): what the encoder
stores is what the decoder reads. -/

namespace Sys2Proof.Machine

/-! ### A stored content reads back (10_state.md R37) -/

section
variable {α : Type}

theorem Memory.store_holds (m : Memory α) {xs : List α} (h : xs.length < 2 ^ 32) :
    (m.store xs).Holds (BitVec.ofNat 32 xs.length) xs :=
  ⟨toNat_ofNat_of_lt h, m.content_store xs⟩

theorem Memory.Holds.len_eq_zero_iff {m : Memory α} {len : Word} {xs : List α}
    (h : m.Holds len xs) : len = 0 ↔ xs = [] := by
  rw [← BitVec.toNat_inj, h.1]
  exact List.length_eq_zero_iff

end

/-- Settles O26: each clause is a law of `Memory.store`. -/
theorem destinationReadsBack : Obligations.DestinationReadsBack := fun _ m xs =>
  ⟨m.get_store xs, m.store_wf xs, m.store_holds⟩

theorem doneWord_congr {p q : Prop} [Decidable p] [Decidable q] (h : p ↔ q) :
    doneWord p = doneWord q := by simp only [doneWord, h]

/-! ### LZW -/

theorem exec_lzwEncb_of_holds {s : State} {S : List Sym} {K : List Nat}
    (hS : s.lzw.sym.Holds s.lzw.symLen S) (hencode : lzwEncode S = .ok K)
    (hsym : S.length ≤ s.cfg.capSym) (hcod : K.length ≤ s.cfg.capCod)
    (hbyt : 8 + 4 * K.length ≤ s.cfg.capByt) (hlt : 8 + 4 * K.length < 2 ^ 32) :
    ∃ t, exec .lzwEncb s = .next t ∧ t.cfg = s.cfg ∧
      t.lzw.ctrl.status = doneWord (S = []) ∧
      t.lzw.byt.Holds t.lzw.bytLen (serHcl1 (codeWords K)) := by
  obtain ⟨-, -, hresult⟩ := lzwEncbResult
  obtain ⟨-, hdone, -⟩ := hresult s S _ (hS.1.trans_le hsym) (hS.read _ s.lzw.aux.free)
  have hlen : (serHcl1 (codeWords K)).length = 8 + 4 * K.length := by
    rw [serHcl1_length, codeWords_length]
  refine ⟨_, hdone K hencode hcod hbyt, rfl, doneWord_congr hS.len_eq_zero_iff, ?_⟩
  exact hlen ▸ Memory.store_holds s.lzw.byt (hlen.trans_lt hlt)

theorem exec_lzwDecb_of_holds {t : State} {S : List Sym} {K : List Word}
    (hc : t.cfg.wellFormed = true) (hB : t.lzw.byt.Holds t.lzw.bytLen (serHcl1 K))
    (hdecode : lzwDecode (codeNats K) = .ok S) (hcod : K.length ≤ t.cfg.capCod)
    (hsym : S.length ≤ t.cfg.capSym) (hbyt : 8 + 4 * K.length ≤ t.cfg.capByt) :
    ∃ r, exec .lzwDecb t = .next r ∧ r.lzw.ctrl.status = doneWord (S = []) ∧
      r.lzw.sym.Holds r.lzw.symLen S := by
  have hparse : parseHcl1 (serHcl1 K) = .ok K :=
    parseHcl1_serHcl1 (hcod.trans_lt (Config.cap_lt hc .lzwCod))
  obtain ⟨-, -, hresult⟩ := lzwDecbResult
  obtain ⟨-, -, hdone, -⟩ := hresult t (serHcl1 K) _ hc
    (hB.1.trans_le ((serHcl1_length K).trans_le hbyt)) (hB.read _ t.lzw.aux.free)
  refine ⟨_, hdone K S hparse hdecode hcod hsym, doneWord_congr ?_,
    Memory.store_holds t.lzw.sym (hsym.trans_lt (Config.cap_lt hc .lzwSym))⟩
  rw [lzwDecode_ok_eq_nil_iff hdecode, codeNats, List.map_eq_nil_iff]

/-- Settles O57: the container of the codes parses, and its codes decode to the symbols. -/
theorem lzwByteRoundTrip : Obligations.LzwByteRoundTrip := by
  intro s S hc hS hsyms hsym hcod hbyt
  obtain ⟨K, hencode, hdecode, hlength⟩ := exists_lzwEncode hsyms
  have hlt := Config.cap_lt hc .lzwByt
  simp only [Config.cap] at hlt
  have hwords : codeNats (codeWords K) = K := codeNats_codeWords fun k hk => by
    have := lt_of_mem_of_lzwDecode hdecode hk
    simp only [Config.wellFormed, Bool.and_eq_true, decide_eq_true_eq] at hc
    omega
  obtain ⟨t, ht, hcfg, hstatus, hB⟩ :=
    exec_lzwEncb_of_holds hS hencode hsym (by omega) (by omega) (by omega)
  obtain ⟨r, hr, hstatus', hS'⟩ := exec_lzwDecb_of_holds (hcfg ▸ hc) hB (hwords.symm ▸ hdecode)
    (by rw [codeWords_length, hcfg]; omega) (hcfg ▸ hsym)
    (by rw [codeWords_length, hcfg]; omega)
  exact ⟨t, r, ht, hr, hstatus, hstatus', hS'⟩

/-! ### HUF -/

/-- Unpacking undoes packing: the bits stripped are the padding. -/
theorem bitUnpack_bitPack (bits : Bits) : bitUnpack (bitPack bits).1 (bitPack bits).2 = bits := by
  obtain ⟨n, hpadded, hn⟩ := padded_eq_append bits
  have hkeep : 8 * (bitPack bits).2.length - (if padOf bits = 8 then 0 else padOf bits) =
      bits.length := by
    rw [bitPack_length]
    by_cases hpad : padOf bits = 8
    · rw [if_pos hpad]
      unfold padOf at hpad
      omega
    · rw [if_neg hpad]
      unfold padOf at hpad ⊢
      omega
  have hpad : (bitPack bits).1 = padOf bits := rfl
  rw [bitUnpack_eq_take, hpad, flatMap_byteBits_bitPack, hkeep, hpadded, List.take_left]

/-- The container of an encoded stream. -/
def streamContainer (S : List Sym) (bits : Bits) : HufContainer where
  pad := (bitPack bits).1
  freq := huffFreq S
  packed := (bitPack bits).2

theorem checkHch1_streamContainer (S : List Sym) (bits : Bits) :
    checkHch1 (streamContainer S bits) = .ok () := by
  refine (checkHch1_eq_ok_iff _).mpr ⟨?_, Nat.sub_le _ _, huffFreq_freqTableOk S, ?_⟩
  · have := Nat.mod_lt bits.length (y := 8) (by decide)
    simp only [streamContainer, bitPack, padOf]
    omega
  · have hlen : (streamContainer S bits).packed.length = (bits.length + 7) / 8 := bitPack_length bits
    by_cases hpad : (streamContainer S bits).pad = 8
    · exact .inl hpad
    · refine .inr (List.length_pos_iff.mp ?_)
      simp only [streamContainer, bitPack, padOf] at hpad
      omega

theorem parseHch1_streamContainer {S : List Sym} {bits : Bits} (hS : S.length < 2 ^ 32)
    (hF : (huffFreq S).length < 2 ^ 32) (hP : (bits.length + 7) / 8 < 2 ^ 32) :
    parseHch1 (serHch1 (streamContainer S bits)) = .ok (streamContainer S bits) := by
  refine (parseHch1_eq_ok_iff _ _).mpr ⟨(Nat.sub_le 8 _).trans_lt (by decide), hF, fun e he => ?_,
    (bitPack_length bits).trans_lt hP, rfl⟩
  rw [cnt_of_mem_huffFreq S he]
  exact List.count_le_length.trans_lt hS

theorem exec_hufEncb_of_holds {s : State} {S : List Sym} {bits : Bits}
    (hS : s.huf.sym.Holds s.huf.symLen S) (hbits : ∀ k, huffEncode (tableOf S) S k = (bits, k))
    (hsym : S.length ≤ s.cfg.capSym) (htab : (huffFreq S).length ≤ s.cfg.capTab)
    (hclen : ∀ e ∈ tableOf S, e.code.length ≤ s.cfg.capClen) (hbit : bits.length ≤ s.cfg.capBit)
    (hbyt : 16 + 8 * (huffFreq S).length + (bits.length + 7) / 8 ≤ s.cfg.capByt)
    (hlt : s.cfg.capByt < 2 ^ 32) :
    ∃ t, exec .hufEncb s = .next t ∧ t.cfg = s.cfg ∧
      t.huf.ctrl.status = doneWord (S = []) ∧
      t.huf.byt.Holds t.huf.bytLen (serHch1 (streamContainer S bits)) := by
  obtain ⟨-, -, hresult⟩ := hufEncbResult
  obtain ⟨hdone, -⟩ := hresult s S S bits _ _ _ _ _ (hS.1.trans_le hsym)
    (hS.read _ s.huf.aux.free) (hS.read _ _) (hbits _) rfl
  rw [← bitPack_length] at hbyt
  have hlen : (serHch1 (streamContainer S bits)).length =
      16 + 8 * (huffFreq S).length + (bitPack bits).2.length := serHch1_length _
  refine ⟨_, hdone htab hclen hbit hbyt, rfl, doneWord_congr hS.len_eq_zero_iff, ?_⟩
  exact hlen ▸ Memory.store_holds s.huf.byt (hlen.trans_lt (hbyt.trans_lt hlt))

theorem exec_hufDecb_of_holds {t : State} {S : List Sym} {h : HufContainer}
    (hc : t.cfg.wellFormed = true) (hB : t.huf.byt.Holds t.huf.bytLen (serHch1 h))
    (hparse : parseHch1 (serHch1 h) = .ok h) (hcheck : checkHch1 h = .ok ())
    (hdecode : huffDecode (bitUnpack h.pad h.packed) (huffCodes (huffTree h.freq)) = .ok S)
    (hsym : S.length ≤ t.cfg.capSym) (htab : h.freq.length ≤ t.cfg.capTab)
    (hclen : ∀ e ∈ huffCodes (huffTree h.freq), e.code.length ≤ t.cfg.capClen)
    (hbit : (bitUnpack h.pad h.packed).length ≤ t.cfg.capBit)
    (hbyt : 16 + 8 * h.freq.length + h.packed.length ≤ t.cfg.capByt) :
    ∃ r, exec .hufDecb t = .next r ∧ r.huf.ctrl.status = doneWord (S = []) ∧
      r.huf.sym.Holds r.huf.symLen S := by
  obtain ⟨-, -, hresult⟩ := hufDecbResult
  obtain ⟨-, -, hresult⟩ := hresult t (serHch1 h) _ hc
    (hB.1.trans_le ((serHch1_length h).trans_le hbyt)) (hB.read _ t.huf.aux.free)
  obtain ⟨-, hdone, -⟩ := hresult h _ _ hparse hcheck rfl rfl
  exact ⟨_, hdone S hdecode htab hclen hbit hsym,
    doneWord_congr (huffDecode_ok_eq_nil_iff hdecode).symm,
    Memory.store_holds t.huf.sym (hsym.trans_lt (Config.cap_lt hc .hufSym))⟩

/-- Settles O54: the container of the stream passes parse and checks, and its bits decode with the rebuilt
table, which is the stream's own. -/
theorem huffmanByteRoundTrip : Obligations.HuffmanByteRoundTrip := by
  intro s S hc hS hsym htab hclen hbit hbyt
  have hbits := huffEncode_tableOf S
  rw [hbits] at hbit hbyt
  have hbytLt := Config.cap_lt hc .hufByt
  obtain ⟨t, ht, hcfg, hstatus, hB⟩ :=
    exec_hufEncb_of_holds hS hbits hsym htab hclen hbit hbyt hbytLt
  have hparse := parseHch1_streamContainer (bits := S.flatMap (codeBits (tableOf S)))
    (hsym.trans_lt (Config.cap_lt hc .hufSym)) (htab.trans_lt (Config.cap_lt hc .hufTab))
    ((Nat.le_add_left _ _).trans_lt (hbyt.trans_lt hbytLt))
  have hunpack := bitUnpack_bitPack (S.flatMap (codeBits (tableOf S)))
  rw [← bitPack_length] at hbyt
  obtain ⟨r, hr, hstatus', hS'⟩ := exec_hufDecb_of_holds (hcfg ▸ hc) hB hparse
    (checkHch1_streamContainer S _) (hunpack.symm ▸ huffDecode_codeBits S) (hcfg ▸ hsym)
    (hcfg ▸ htab) (hcfg ▸ hclen) (hunpack.symm ▸ hcfg ▸ hbit) (hcfg ▸ hbyt)
  exact ⟨t, r, ht, hr, hstatus, hstatus', hS'⟩

end Sys2Proof.Machine
end

section
/-! PROOFS. The positions the operations report (60_exceptions.md R251): each lies in the source, or at its end
where the parse finds a field missing; and the cause each reports (R241). -/

namespace Sys2Proof.Machine

/-! ### The parses (30_encoding.md R103) -/

/-- An error of the step is `MalformedSerializedData` at an offset of at most `n`. -/
def MalformedWithin {α : Type} (n : Nat) (x : Except Report α) : Prop :=
  ∀ e, x = .error e → ∃ q ≤ n, e = malformed q

section
variable {α β : Type} {n p k : Nat} {B : List Byte}

theorem MalformedWithin.of_ok (a : α) : MalformedWithin n (.ok a) := fun _ h => by cases h

theorem MalformedWithin.of_error (h : p ≤ n) :
    MalformedWithin (α := α) n (.error (malformed p)) := by
  rintro _ ⟨⟩
  exact ⟨p, h, rfl⟩

theorem MalformedWithin.bind {x : Except Report α} {f : α → Except Report β}
    (hx : MalformedWithin n x) (hf : ∀ a, x = .ok a → MalformedWithin n (f a)) :
    MalformedWithin n (x >>= f) := by
  intro e he
  rcases bind_eq_error_iff.mp he with he | ⟨a, ha, he⟩
  · exact hx e he
  · exact hf a ha e he

theorem parseTag_within (t B : List Byte) : MalformedWithin n (parseTag t B) := by
  unfold parseTag
  split
  · split
    · exact .of_ok _
    · exact .of_error (Nat.zero_le n)
  · exact .of_error (Nat.zero_le n)

theorem get32_within (h : p ≤ n) (B : List Byte) : MalformedWithin n (get32 p B) := by
  unfold get32
  split
  · exact .of_ok _
  · exact .of_error h

theorem getBytes_within (h : p ≤ n) (B : List Byte) : MalformedWithin n (getBytes k p B) := by
  unfold getBytes
  split
  · exact .of_error h
  · exact .of_ok _

theorem parseEnd_within (h : p ≤ n) (B : List Byte) : MalformedWithin n (parseEnd p B) := by
  unfold parseEnd
  split
  · exact .of_ok _
  · exact .of_error h

/-! The bytes a step that succeeds has taken. -/

theorem parseTag_ok_length {t rest : List Byte} (ht : t.length = 4) (h : parseTag t B = .ok rest) :
    B.length = 4 + rest.length := by
  rw [(parseTag_eq_ok_iff ht).mp h, List.length_append, ht]

theorem get32_ok_length {r : Word × List Byte} (h : get32 p B = .ok r) :
    B.length = 4 + r.2.length := by
  rw [get32_eq_ok_iff.mp h, List.length_append, u32be_length]

theorem getPairs_ok_length {r : List SymCount × List Byte} (h : getPairs k p B = .ok r) :
    B.length = 8 * k + r.2.length := by
  obtain ⟨hk, -, hB⟩ := getPairs_eq_ok_iff.mp h
  rw [hB, List.length_append, flatMap_length_const pairBytes 8 _ pairBytes_length, hk]

theorem getWords_ok_length {r : List Word × List Byte} (h : getWords k p B = .ok r) :
    B.length = 4 * k + r.2.length := by
  obtain ⟨hk, hB⟩ := getWords_eq_ok_iff.mp h
  rw [hB, List.length_append, flatMap_length_const u32be 4 _ u32be_length, hk]

theorem getBytes_ok_length {r : List Byte × List Byte} (h : getBytes k p B = .ok r) :
    B.length = k + r.2.length := by
  obtain ⟨hk, hB⟩ := getBytes_eq_ok_iff.mp h
  rw [hB, List.length_append, hk]

theorem getPairs_within (h : p + B.length ≤ n) : MalformedWithin n (getPairs k p B) := by
  induction k generalizing p B with
  | zero => exact .of_ok _
  | succ k ih =>
    refine .bind (get32_within (by omega) B) fun s hs => ?_
    have := get32_ok_length hs
    refine .bind (get32_within (by omega) _) fun c hc => ?_
    have := get32_ok_length hc
    exact .bind (ih (by omega)) fun R _ => .of_ok _

theorem getWords_within (h : p + B.length ≤ n) : MalformedWithin n (getWords k p B) := by
  induction k generalizing p B with
  | zero => exact .of_ok _
  | succ k ih =>
    refine .bind (get32_within (by omega) B) fun s hs => ?_
    have := get32_ok_length hs
    exact .bind (ih (by omega)) fun K _ => .of_ok _

end

theorem parseHcr1_within (B : List Byte) : MalformedWithin B.length (parseHcr1 B) := by
  refine .bind (parseTag_within _ B) fun B1 h1 => ?_
  have := parseTag_ok_length rfl h1
  refine .bind (get32_within (by omega) B1) fun n hn => ?_
  have := get32_ok_length hn
  refine .bind (getPairs_within (by omega)) fun R hR => ?_
  have := getPairs_ok_length hR
  exact .bind (parseEnd_within (by omega) _) fun _ _ => .of_ok _

theorem parseHcl1_within (B : List Byte) : MalformedWithin B.length (parseHcl1 B) := by
  refine .bind (parseTag_within _ B) fun B1 h1 => ?_
  have := parseTag_ok_length rfl h1
  refine .bind (get32_within (by omega) B1) fun n hn => ?_
  have := get32_ok_length hn
  refine .bind (getWords_within (by omega)) fun K hK => ?_
  have := getWords_ok_length hK
  exact .bind (parseEnd_within (by omega) _) fun _ _ => .of_ok _

theorem parseHch1_within (B : List Byte) : MalformedWithin B.length (parseHch1 B) := by
  refine .bind (parseTag_within _ B) fun B1 h1 => ?_
  have := parseTag_ok_length rfl h1
  refine .bind (get32_within (by omega) B1) fun pad hpad => ?_
  have := get32_ok_length hpad
  refine .bind (get32_within (by omega) _) fun n hn => ?_
  have := get32_ok_length hn
  refine .bind (getPairs_within (by omega)) fun F hF => ?_
  have := getPairs_ok_length hF
  refine .bind (get32_within (by omega) _) fun m hm => ?_
  have := get32_ok_length hm
  refine .bind (getBytes_within (by omega) _) fun P hP => ?_
  have := getBytes_ok_length hP
  exact .bind (parseEnd_within (by omega) _) fun _ _ => .of_ok _

/-! ### The value checks (40_rle.md R135; 41_huffman.md R175) -/

theorem parseHcr1_ok_length {B : List Byte} {R : List SymCount} (h : parseHcr1 B = .ok R) :
    B.length = 8 + 8 * R.length := by
  obtain ⟨-, -, rfl⟩ := (parseHcr1_eq_ok_iff B R).mp h
  exact serHcr1_length R

theorem parseHch1_ok_length {B : List Byte} {h : HufContainer} (hparse : parseHch1 B = .ok h) :
    B.length = 16 + 8 * h.freq.length + h.packed.length := by
  obtain ⟨-, -, -, -, rfl⟩ := (parseHch1_eq_ok_iff B h).mp hparse
  exact serHch1_length h

theorem checkRuns_error {R : List SymCount} {e : Report} (h : checkRuns R = .error e) :
    e.cause = .corruptedData ∧ e.info < 8 + 8 * R.length := by
  obtain ⟨i, rfl, hi, -⟩ := (checkRuns_eq_error_iff R e).mp h
  exact ⟨rfl, by dsimp only; omega⟩

theorem checkHch1_error {h : HufContainer} {e : Report} (he : checkHch1 h = .error e) :
    e.cause = .corruptedData ∧ e.info < 16 + 8 * h.freq.length := by
  by_cases hpad : h.pad < 1 ∨ 8 < h.pad
  · cases (checkHch1_pad hpad).symm.trans he
    exact ⟨rfl, by dsimp only; omega⟩
  rcases hF : checkFreqFrom 12 none h.freq with e' | _
  · cases (checkHch1_entry hpad hF).symm.trans he
    obtain ⟨i, rfl, hi, -⟩ := (checkFreqFrom_eq_error_iff _ _).mp hF
    exact ⟨rfl, by dsimp only; omega⟩
  · rw [checkHch1_packed hpad hF] at he
    split at he
    · cases he
      exact ⟨rfl, by dsimp only; omega⟩
    · cases he

/-! ### The scans (40_rle.md R138; 41_huffman.md R168, R171; 42_lzw.md R212, R213) -/

/-- A token reports where it began, before the symbol the scan has come to. -/
theorem textTokensFrom_error {i : Nat} {x : TextScratch} {T : List Sym} {e : Report}
    (h : textTokensFrom i x T = .error e) (hle : x.start ≤ i) (hlt : x.nd ≠ 0 → x.start < i) :
    ∃ q < i + T.length, e = malformed q := by
  induction T generalizing i x with
  | nil =>
    rw [textTokensFrom] at h
    split at h
    next => cases h
    next hnd =>
      cases h
      exact ⟨x.start, hlt hnd, rfl⟩
  | cons t T ih =>
    rw [textTokensFrom] at h
    rw [List.length_cons, ← Nat.add_assoc, Nat.add_right_comm]
    split at h
    · exact ih h (by dsimp only; omega) fun _ => by dsimp only; omega
    split at h
    · cases h
      exact ⟨x.start, by omega, rfl⟩
    split at h
    next e' he' =>
      cases h
      exact ih he' le_rfl fun hnd => absurd rfl hnd
    next => cases h

theorem rleTextTokens_error {T : List Sym} {e : Report} (h : rleTextTokens T = .error e) :
    ∃ q < T.length, e = malformed q :=
  Nat.zero_add T.length ▸ textTokensFrom_error h le_rfl fun hnd => absurd rfl hnd

/-- The decoder reports where the bits in its buffer began, before the bit it has come to. -/
theorem huffDecodeFrom_error {C : List Entry} {j : Nat} {x : BitScratch} {bits : Bits} {e : Report}
    (h : huffDecodeFrom C j x bits = .error e) (hle : x.start ≤ j)
    (hlt : x.buf ≠ [] → x.start < j) : e.cause = .invalidPrefixCode ∧ e.info < j + bits.length := by
  induction bits generalizing j x with
  | nil =>
    rw [huffDecodeFrom] at h
    split at h
    next => cases h
    next hbuf =>
      cases h
      exact ⟨rfl, hlt hbuf⟩
  | cons b bits ih =>
    rw [List.length_cons, ← Nat.add_assoc, Nat.add_right_comm]
    cases hfind : C.find? (fun d => decide (d.code = x.buf ++ [b])) with
    | some d =>
      rw [huffDecodeFrom_cons_some hfind] at h
      cases hrest : huffDecodeFrom C (j + 1) ⟨[], j + 1⟩ bits <;> rw [hrest] at h <;> cases h
      exact ih hrest le_rfl fun hbuf => absurd rfl hbuf
    | none =>
      rw [huffDecodeFrom_cons_none hfind] at h
      exact ih h (by dsimp only; omega) fun _ => by dsimp only; omega

theorem huffDecode_error {C : List Entry} {bits : Bits} {e : Report}
    (h : huffDecode bits C = .error e) : e.cause = .invalidPrefixCode ∧ e.info < bits.length :=
  Nat.zero_add bits.length ▸ huffDecodeFrom_error h le_rfl fun hbuf => absurd rfl hbuf

theorem huffCheckTable_error {C : List Entry} {e : Report} (h : huffCheckTable C = .error e) :
    e.cause = .badCodeTable ∧ e.info < C.length := by
  obtain ⟨i, rfl, hi, -⟩ := (huffCheckTable_eq_error_iff C e).mp h
  exact ⟨rfl, hi⟩

theorem lzwEncode_error {S : List Sym} {e : Report} (h : lzwEncode S = .error e) :
    e.cause = .unsupportedSymbolRange ∧ e.info < S.length := by
  obtain ⟨i, c, rfl, hc, -⟩ := (lzwEncode_eq_error_iff S e).mp h
  exact ⟨rfl, (List.getElem?_eq_some_iff.mp hc).1⟩

theorem lzwDecode_error {K : List Nat} {e : Report} (h : lzwDecode K = .error e) :
    e.cause = .corruptedLZWStream ∧ e.info < K.length := by
  obtain ⟨i, rfl, k, hk, -⟩ := (lzwDecode_eq_error_iff K e).mp h
  exact ⟨rfl, (List.getElem?_eq_some_iff.mp hk).1⟩

/-! ### `HUF.DECB`: the parse, the value checks, the decoding, whichever fails first -/

theorem hufDecodeContainer_error {B : List Byte} {e : Report} (h : hufDecodeContainer B = .error e) :
    ((e.cause = .malformedSerializedData ∨ e.cause = .corruptedData) ∧ e.info ≤ B.length) ∨
      (e.cause = .invalidPrefixCode ∧ e.info < 8 * B.length) := by
  rcases hparse : parseHch1 B with e' | c
  · rw [hufDecodeContainer, bind_of_error hparse] at h
    cases h
    obtain ⟨q, hq, rfl⟩ := parseHch1_within B e hparse
    exact .inl ⟨.inl rfl, hq⟩
  have hlen := parseHch1_ok_length hparse
  rcases hcheck : checkHch1 c with e' | _
  · rw [hufDecodeContainer, bind_of_ok hparse, bind_of_error hcheck] at h
    cases h
    obtain ⟨hcause, hinfo⟩ := checkHch1_error hcheck
    exact .inl ⟨.inr hcause, by omega⟩
  rw [hufDecodeContainer_eq hparse hcheck] at h
  rcases hdecode : huffDecode (bitUnpack c.pad c.packed) (huffCodes (huffTree c.freq)) with e' | S
  · rw [hdecode] at h
    cases h
    obtain ⟨hcause, hinfo⟩ := huffDecode_error hdecode
    rw [bitUnpack_length] at hinfo
    exact .inr ⟨hcause, by omega⟩
  · rw [hdecode] at h
    cases h

/-- Settles O60: each scan reports a place before the one it has come to, each parse an offset no further than
the bytes it has taken. -/
theorem reportedPositionsAreInTheSource : Obligations.ReportedPositionsAreInTheSource := by
  have hparsed {α : Type} {n : Nat} {x : Except Report α} (h : MalformedWithin n x) (e : Report)
      (he : x = .error e) : e.info ≤ n := by
    obtain ⟨q, hq, rfl⟩ := h e he
    exact hq
  refine ⟨fun B => hparsed (parseHcr1_within B), fun B => hparsed (parseHch1_within B),
    fun B => hparsed (parseHcl1_within B), fun B R e hR he => ?_, fun B h e hh he => ?_,
    fun T e he => ?_, fun C e he => (huffCheckTable_error he).2,
    fun bits C e he => (huffDecode_error he).2, fun B e he => ?_,
    fun S e he => (lzwEncode_error he).2, fun K e he => (lzwDecode_error he).2⟩
  · rw [parseHcr1_ok_length hR]
    exact (checkRuns_error he).2
  · rw [parseHch1_ok_length hh]
    exact (checkHch1_error he).2.trans_le (Nat.le_add_right _ _)
  · obtain ⟨q, hq, rfl⟩ := rleTextTokens_error (rleTextDec_eq_error_iff.mp he)
    exact hq
  · obtain ⟨hcause, hinfo⟩ | ⟨hcause, hinfo⟩ := hufDecodeContainer_error he
    · refine ⟨fun h => ?_, fun _ => hinfo⟩
      rw [h] at hcause
      simp at hcause
    · exact ⟨fun _ => hinfo, fun h => absurd hcause h⟩

end Sys2Proof.Machine
end

section
/-! PROOFS. The eleven buffers by their names: the elements of a buffer, its content, reading it as a source and
writing it as a destination (10_state.md R32, R37; 20_memory.md R60, R73). -/

namespace Sys2Proof

/-- The type of the elements of a buffer (10_state.md R32). -/
abbrev Buf.Elt : Buf → Type
  | .rleSym => Sym
  | .rleRun => Run
  | .rleTxt => Sym
  | .rleByt => Byte
  | .hufSym => Sym
  | .hufBit => Bool
  | .hufTab => Entry
  | .hufByt => Byte
  | .lzwSym => Sym
  | .lzwCod => Word
  | .lzwByt => Byte

/-- An element of a buffer as the port carries it. -/
def Buf.elem : (b : Buf) → b.Elt → Elem
  | .rleSym, v => .sym v
  | .rleRun, v => .run v
  | .rleTxt, v => .sym v
  | .rleByt, v => .byte v
  | .hufSym, v => .sym v
  | .hufBit, v => .bit v
  | .hufTab, v => .entry v
  | .hufByt, v => .byte v
  | .lzwSym, v => .sym v
  | .lzwCod, v => .code v
  | .lzwByt, v => .byte v

theorem Buf.elem_injective (b : Buf) : Function.Injective b.elem := by
  cases b <;> (intro v w h; injection h)

/-- Only the codes of `HUF.TAB` have a bound of their own (10_state.md R33). -/
theorem Buf.elem_fits {b : Buf} (h : b ≠ .hufTab) (c : Config) (v : b.Elt) :
    (b.elem v).fits c b = true := by
  cases b <;> first | exact absurd rfl h | rfl

namespace Machine

/-- The elements of buffer `b` written since reset. -/
def State.mem (s : State) : (b : Buf) → Memory b.Elt
  | .rleSym => s.rle.sym
  | .rleRun => s.rle.run
  | .rleTxt => s.rle.txt
  | .rleByt => s.rle.byt
  | .hufSym => s.huf.sym
  | .hufBit => s.huf.bit
  | .hufTab => s.huf.tab
  | .hufByt => s.huf.byt
  | .lzwSym => s.lzw.sym
  | .lzwCod => s.lzw.cod
  | .lzwByt => s.lzw.byt

theorem State.peek_eq_mem (s : State) (b : Buf) (i : Nat) :
    s.peek b i = ((s.mem b).get i).map b.elem := by cases b <;> rfl

/-! ### Reading a source (20_memory.md R73, R76) -/

/-- The free values of buffer `b`. -/
def freeOf (c : Config) : (b : Buf) → Nat → b.Elt
  | .rleSym => Config.freeSym .rle
  | .rleRun => freeRun
  | .rleTxt => Config.freeSym .rle
  | .rleByt => Config.freeByte .rle
  | .hufSym => Config.freeSym .huf
  | .hufBit => Config.freeBit .huf
  | .hufTab => freeEntry c
  | .hufByt => Config.freeByte .huf
  | .lzwSym => Config.freeSym .lzw
  | .lzwCod => Config.freeWord .lzw
  | .lzwByt => Config.freeByte .lzw

/-- One reading of buffer `b` as a source: each `read` function of Operands.lean is this one. -/
def State.read (s : State) (b : Buf) (k : Nat) : List b.Elt × Nat :=
  resolve (freeOf s.cfg b) k ((s.mem b).content (s.len b).toNat)

/-- Buffer `b` has the same length and the same elements below it in `s` and `t`. -/
def State.sameContent (s t : State) (b : Buf) : Prop :=
  s.len b = t.len b ∧ ∀ j, j < (s.len b).toNat → s.peek b j = t.peek b j

theorem State.sameContent.content_eq {s t : State} {b : Buf} (h : s.sameContent t b) :
    (s.mem b).content (s.len b).toNat = (t.mem b).content (t.len b).toNat := by
  rw [← h.1]
  refine List.map_congr_left fun j hj => ?_
  have hpeek := h.2 j (List.mem_range.mp hj)
  rw [peek_eq_mem, peek_eq_mem] at hpeek
  exact Option.map_injective b.elem_injective hpeek

/-- A reading depends on the content alone, and on the number of the next free value. -/
theorem State.sameContent.read_eq {s t : State} {b : Buf} (hc : s.cfg = t.cfg)
    (h : s.sameContent t b) : s.read b = t.read b := by
  funext k
  rw [read, read, h.content_eq, hc]

theorem exists_eq_map_some {α : Type} {os : List (Option α)} (h : ∀ o ∈ os, o.isSome = true) :
    ∃ xs : List α, os = xs.map some := by
  induction os with
  | nil => exact ⟨[], rfl⟩
  | cons o os ih =>
    obtain ⟨ho, hos⟩ := List.forall_mem_cons.mp h
    obtain ⟨x, rfl⟩ := Option.isSome_iff_exists.mp ho
    obtain ⟨xs, rfl⟩ := ih hos
    exact ⟨x :: xs, rfl⟩

/-- A buffer written everywhere below its length is read without a free value. -/
theorem State.read_of_written {s : State} {b : Buf}
    (h : ∀ j, j < (s.len b).toNat → (s.peek b j).isSome = true) :
    ∃ xs, ∀ k, s.read b k = (xs, k) := by
  have hsome : ∀ o ∈ (s.mem b).content (s.len b).toNat, o.isSome = true := by
    intro o ho
    obtain ⟨j, hj, rfl⟩ := List.mem_map.mp ho
    have := h j (List.mem_range.mp hj)
    rwa [peek_eq_mem, Option.isSome_map] at this
  obtain ⟨xs, hxs⟩ := exists_eq_map_some hsome
  exact ⟨xs, fun k => by rw [read, hxs, resolve_map_some]⟩

theorem State.read_of_len_zero {s : State} {b : Buf} (h : s.len b = 0) (k : Nat) :
    s.read b k = ([], k) := by
  rw [read, h]
  rfl

/-! ### Writing a destination (10_state.md R37) -/

/-- Buffer `b` takes the content `xs`: each `write` function of Operands.lean is this one. -/
def State.write (s : State) : (b : Buf) → List b.Elt → State
  | .rleSym, xs => { s with rle := s.rle.writeSym xs }
  | .rleRun, xs => { s with rle := s.rle.writeRun xs }
  | .rleTxt, xs => { s with rle := s.rle.writeTxt xs }
  | .rleByt, xs => { s with rle := s.rle.writeByt xs }
  | .hufSym, xs => { s with huf := s.huf.writeSym xs }
  | .hufBit, xs => { s with huf := s.huf.writeBit xs }
  | .hufTab, xs => { s with huf := s.huf.writeTab xs }
  | .hufByt, xs => { s with huf := s.huf.writeByt xs }
  | .lzwSym, xs => { s with lzw := s.lzw.writeSym xs }
  | .lzwCod, xs => { s with lzw := s.lzw.writeCod xs }
  | .lzwByt, xs => { s with lzw := s.lzw.writeByt xs }

section
variable (s : State) (b : Buf) (xs : List b.Elt)

@[simp] theorem State.write_cfg : (s.write b xs).cfg = s.cfg := by cases b <;> rfl

@[simp] theorem State.write_agenda : (s.write b xs).agenda = s.agenda := by cases b <;> rfl

@[simp] theorem State.write_ctrl (u : UnitId) : (s.write b xs).ctrl u = s.ctrl u := by
  cases b <;> cases u <;> rfl

@[simp] theorem State.write_aux (u : UnitId) : (s.write b xs).aux u = s.aux u := by
  cases b <;> cases u <;> rfl

@[simp] theorem State.write_mem_same : (s.write b xs).mem b = (s.mem b).store xs := by
  cases b <;> rfl

@[simp] theorem State.write_len_same : (s.write b xs).len b = BitVec.ofNat 32 xs.length := by
  cases b <;> rfl

variable {b}

theorem State.write_mem_other {c : Buf} (h : c ≠ b) : (s.write b xs).mem c = s.mem c := by
  cases b <;> cases c <;> first | rfl | exact absurd rfl h

theorem State.write_len_other {c : Buf} (h : c ≠ b) : (s.write b xs).len c = s.len c := by
  cases b <;> cases c <;> first | rfl | exact absurd rfl h

theorem State.write_sameUnit {u : UnitId} (h : u ≠ b.unit) : s.sameUnit (s.write b xs) u := by
  cases b <;> cases u <;> first | rfl | exact absurd rfl h

end

/-! ### The whole result of a command -/

/-- The content one destination takes. -/
structure Written where
  buf : Buf
  elems : List buf.Elt

/-- The content fits its buffer, and each element is of the buffer's type. -/
def Written.fits (c : Config) (r : Written) : Prop :=
  r.elems.length ≤ c.cap r.buf ∧ ∀ v ∈ r.elems, (r.buf.elem v).fits c r.buf = true

/-- All destinations are written. -/
def State.writeAll (s : State) (rs : List Written) : State :=
  rs.foldl (fun s r => s.write r.buf r.elems) s

/-- What one write leaves unchanged the whole result does. -/
theorem State.writeAll_frame {β : Type} (f : State → β)
    (h : ∀ (s : State) (r : Written), f (s.write r.buf r.elems) = f s) (s : State) (rs : List Written) :
    f (s.writeAll rs) = f s :=
  List.foldlRecOn (motive := fun t => f t = f s) rs _ rfl fun t ht r _ => (h t r).trans ht

section
variable (s : State) (rs : List Written)

@[simp] theorem State.writeAll_cfg : (s.writeAll rs).cfg = s.cfg :=
  writeAll_frame State.cfg (fun t r => t.write_cfg r.buf r.elems) s rs

@[simp] theorem State.writeAll_agenda : (s.writeAll rs).agenda = s.agenda :=
  writeAll_frame State.agenda (fun t r => t.write_agenda r.buf r.elems) s rs

@[simp] theorem State.writeAll_ctrl (u : UnitId) : (s.writeAll rs).ctrl u = s.ctrl u :=
  writeAll_frame (State.ctrl · u) (fun t r => t.write_ctrl r.buf r.elems u) s rs

@[simp] theorem State.writeAll_aux (u : UnitId) : (s.writeAll rs).aux u = s.aux u :=
  writeAll_frame (State.aux · u) (fun t r => t.write_aux r.buf r.elems u) s rs

end

section
variable {s : State} {rs : List Written}

theorem State.writeAll_other {b : Buf} (h : b ∉ rs.map Written.buf) :
    (s.writeAll rs).mem b = s.mem b ∧ (s.writeAll rs).len b = s.len b :=
  List.foldlRecOn (motive := fun t : State => t.mem b = s.mem b ∧ t.len b = s.len b) rs _
    ⟨rfl, rfl⟩ fun t ht r hr =>
      have hne : b ≠ r.buf := fun hb => h (hb ▸ List.mem_map_of_mem hr)
      ⟨(t.write_mem_other r.elems hne).trans ht.1, (t.write_len_other r.elems hne).trans ht.2⟩

/-- Each destination holds its content, when no buffer is written twice. -/
theorem State.writeAll_same (hrs : (rs.map Written.buf).Nodup) {r : Written} (hr : r ∈ rs) :
    (s.writeAll rs).mem r.buf = (s.mem r.buf).store r.elems ∧
      (s.writeAll rs).len r.buf = BitVec.ofNat 32 r.elems.length := by
  induction rs generalizing s with
  | nil => cases hr
  | cons q rs ih =>
    obtain ⟨hq, hrs⟩ := List.nodup_cons.mp hrs
    have hcons : s.writeAll (q :: rs) = (s.write q.buf q.elems).writeAll rs := rfl
    rw [hcons]
    rcases List.mem_cons.mp hr with rfl | hr
    · obtain ⟨hmem, hlen⟩ := writeAll_other (s := s.write r.buf r.elems) hq
      exact ⟨hmem.trans (s.write_mem_same r.buf r.elems), hlen.trans (s.write_len_same r.buf r.elems)⟩
    · have hne : r.buf ≠ q.buf := fun h => hq (h ▸ List.mem_map_of_mem hr)
      obtain ⟨hmem, hlen⟩ := ih (s := s.write q.buf q.elems) hrs hr
      exact ⟨by rw [hmem, s.write_mem_other q.elems hne], hlen⟩

theorem State.writeAll_sameUnit {u : UnitId} (h : ∀ r ∈ rs, u ≠ r.buf.unit) :
    s.sameUnit (s.writeAll rs) u :=
  List.foldlRecOn (motive := fun t => s.sameUnit t u) rs _ (by cases u <;> rfl)
    fun t ht r hr => ht.trans (t.write_sameUnit r.elems (h r hr))

end

/-! ### Completion of a unit by its name (10_state.md R37) -/

/-- The buffer of the symbol stream of a unit. -/
def symBuf : UnitId → Buf
  | .rle => .rleSym
  | .huf => .hufSym
  | .lzw => .lzwSym

/-- Unit `u` completes without error, its destinations written already; `k` is the number of the next free
value. -/
def State.finish (s : State) (u : UnitId) (k : Nat) : State :=
  ((s.setCtrl u ((s.ctrl u).complete (emptyFlag (s.len (symBuf u))))).dropScratch u).setFree u k

theorem State.reg_symLen (s : State) (u : UnitId) : s.reg u 4 = s.len (symBuf u) := by
  cases u <;> rfl

section
variable (s : State) (u : UnitId) (k : Nat)

@[simp] theorem State.finish_cfg : (s.finish u k).cfg = s.cfg := by simp [finish]

@[simp] theorem State.finish_agenda : (s.finish u k).agenda = s.agenda := by simp [finish]

@[simp] theorem State.finish_len (b : Buf) : (s.finish u k).len b = s.len b := by simp [finish]

@[simp] theorem State.finish_mem (b : Buf) : (s.finish u k).mem b = s.mem b := by
  cases u <;> cases b <;> rfl

@[simp] theorem State.finish_ctrl_same :
    (s.finish u k).ctrl u = (s.ctrl u).complete (emptyFlag (s.len (symBuf u))) := by simp [finish]

@[simp] theorem State.finish_aux_same : (s.finish u k).aux u = { s.aux u with free := k } := by
  simp [finish]

@[simp] theorem State.finish_hasScratch_same : (s.finish u k).hasScratch u = false := by
  cases u <;> rfl

theorem State.finish_sameUnit {v : UnitId} (h : v ≠ u) : s.sameUnit (s.finish u k) v :=
  ((s.setCtrl_sameUnit u _ v h).trans (State.dropScratch_sameUnit _ u v h)).trans
    (State.setFree_sameUnit _ u k v h)

end

end Machine
end Sys2Proof
end

section
/-! PROOFS. Every command in one form (10_state.md R37, R38; 30_encoding.md R96): it reads its sources, computes,
and writes its destinations, whatever its unit. -/

namespace Sys2Proof.Machine

/-- The completion step of command `i`, with what it writes named by buffer. -/
def State.command {α : Type} (s : State) (i : Instr) (op : Nat → Except Report α × Nat)
    (limits : α → List Limit) (content : α → List Written) : Host.Outcome State Fault Refusal :=
  match byPriority (s.sourceOverflow i) op limits (s.aux i.unit).free with
  | (.error e, k) => .next ((s.setFree i.unit k).raise i.unit e)
  | (.ok a, k) => .next ((s.writeAll (content a)).finish i.unit k)

section
variable {α : Type} {s : State} {i : Instr} {op : Nat → Except Report α × Nat}
  {limits : α → List Limit} {content : α → List Written}

theorem rleCommand_eq_command {write : RleUnit → α → RleUnit} (hi : i.unit = .rle)
    (hw : ∀ a, { s with rle := write s.rle a } = s.writeAll (content a)) :
    rleCommand s i op limits write = s.command i op limits content := by
  rw [State.command, hi]
  obtain ⟨e, k, hp, heq⟩ | ⟨a, k, hp, heq⟩ := rleCommand_cases s i op limits write
  · rw [heq, show (s.aux .rle).free = s.rle.aux.free from rfl, hp]
    rfl
  · rw [heq, show (s.aux .rle).free = s.rle.aux.free from rfl, hp]
    dsimp only
    rw [← hw]
    rfl

theorem hufCommand_eq_command {write : HufUnit → α → HufUnit} (hi : i.unit = .huf)
    (hw : ∀ a, { s with huf := write s.huf a } = s.writeAll (content a)) :
    hufCommand s i op limits write = s.command i op limits content := by
  rw [State.command, hi]
  obtain ⟨e, k, hp, heq⟩ | ⟨a, k, hp, heq⟩ := hufCommand_cases s i op limits write
  · rw [heq, show (s.aux .huf).free = s.huf.aux.free from rfl, hp]
    rfl
  · rw [heq, show (s.aux .huf).free = s.huf.aux.free from rfl, hp]
    dsimp only
    rw [← hw]
    rfl

theorem lzwCommand_eq_command {write : LzwUnit → α → LzwUnit} (hi : i.unit = .lzw)
    (hw : ∀ a, { s with lzw := write s.lzw a } = s.writeAll (content a)) :
    lzwCommand s i op limits write = s.command i op limits content := by
  rw [State.command, hi]
  obtain ⟨e, k, hp, heq⟩ | ⟨a, k, hp, heq⟩ := lzwCommand_cases s i op limits write
  · rw [heq, show (s.aux .lzw).free = s.lzw.aux.free from rfl, hp]
    rfl
  · rw [heq, show (s.aux .lzw).free = s.lzw.aux.free from rfl, hp]
    dsimp only
    rw [← hw]
    rfl

end

/-- The states agree on the capacities and on the sources of command `i`, below their lengths. -/
def State.sameSources (s t : State) (i : Instr) : Prop :=
  s.cfg = t.cfg ∧ ∀ b ∈ i.sources, s.sameContent t b

/-- Every source element of command `i` below its length was written since reset. -/
def State.sourcesWritten (s : State) (i : Instr) : Prop :=
  ∀ b ∈ i.sources, ∀ j, j < (s.len b).toNat → (s.peek b j).isSome = true

/-- What a command does, with what holds of it: its operation and the causes it may report, the limits on its
result, the content of its destinations. -/
structure Behaviour (i : Instr) where
  /-- The type of the result. -/
  Result : Type
  op : State → Nat → Except Report Result × Nat
  limits : Config → Result → List Limit
  content : Result → List Written
  exec_eq : ∀ s, exec i s = s.command i (op s) (limits s.cfg) content
  destinations : ∀ a, (content a).map Written.buf = i.destinations
  causes : ∀ s k e, (op s k).1 = .error e → e.cause ∈ causesOf i
  fits : ∀ c a, leastExceeded (limits c a) = none → ∀ r ∈ content a, r.fits c
  /-- The operation looks at nothing but its sources … -/
  reads : ∀ s t, s.sameSources t i → op s = op t
  /-- … and not at the number of the next free value where all of them were written. -/
  readsWritten : ∀ s, s.sourcesWritten i → ∃ r, ∀ k, (op s k).1 = r

/-! ### A command that reads one source, once -/

section
variable {i : Instr} {b : Buf} {α : Type} (f : List b.Elt → Except Report α)

/-- The operation reads `b` and computes `f` of what it has read. -/
def readOnce (s : State) (k : Nat) : Except Report α × Nat := (f (s.read b k).1, (s.read b k).2)

/-- The description of a command whose operation is `readOnce f`. -/
def Behaviour.ofReadOnce (hi : b ∈ i.sources) (limits : Config → α → List Limit)
    (content : α → List Written)
    (exec_eq : ∀ s, exec i s = s.command i (readOnce f s) (limits s.cfg) content)
    (causes : ∀ xs e, f xs = .error e → e.cause ∈ causesOf i)
    (fits : ∀ c a, leastExceeded (limits c a) = none → ∀ r ∈ content a, r.fits c)
    (destinations : ∀ a, (content a).map Written.buf = i.destinations := by intro; rfl) :
    Behaviour i where
  Result := α
  op := readOnce f
  limits := limits
  content := content
  exec_eq := exec_eq
  destinations := destinations
  causes s k e h := causes _ e h
  fits := fits
  reads s t h := by
    funext k
    rw [readOnce, readOnce, (h.2 b hi).read_eq h.1]
  readsWritten s h := by
    obtain ⟨xs, hxs⟩ := State.read_of_written (h b hi)
    exact ⟨f xs, fun k => by rw [readOnce, hxs]⟩

end

/-! ### What fits (60_exceptions.md R249) -/

/-- A single destination of symbols, runs, bits, codes or bytes fits when one of the limits says so. -/
theorem fits_single {c : Config} {ls : List Limit} (h : leastExceeded ls = none) {b : Buf}
    (hb : b ≠ .hufTab) (xs : List b.Elt) (hlimit : ∃ l ∈ ls, xs.length ≤ l.need ∧ l.cap = c.cap b) :
    ∀ r ∈ [(⟨b, xs⟩ : Written)], r.fits c := by
  obtain ⟨l, hl, hneed, hcap⟩ := hlimit
  refine List.forall_mem_singleton.mpr ⟨?_, fun v _ => Buf.elem_fits hb c v⟩
  exact hneed.trans (((leastExceeded_none ls).mp h l hl).trans_eq hcap)

/-! ### The commands of RLE -/

theorem not_error_of_ok {α : Type} {a : α} {e : Report} {p : Prop}
    (h : (.ok a : Except Report α) = .error e) : p := by
  cases h

theorem causes_of_malformedWithin {α : Type} {n : Nat} {x : Except Report α}
    (h : MalformedWithin n x) {e : Report} (he : x = .error e) :
    e.cause = .malformedSerializedData := by
  obtain ⟨q, -, rfl⟩ := h e he
  rfl

/-- The operation of `RLE.DECB`: the parse, then the invariant check. -/
def rleDecodeContainer (B : List Byte) : Except Report (List SymCount) := do
  let R ← parseHcr1 B
  checkRuns R
  return R

theorem rleDecodeContainer_error {B : List Byte} {e : Report}
    (h : rleDecodeContainer B = .error e) :
    e.cause = .malformedSerializedData ∨ e.cause = .corruptedData := by
  rcases bind_eq_error_iff.mp h with hparse | ⟨R, -, h⟩
  · exact .inl (causes_of_malformedWithin (parseHcr1_within B) hparse)
  · rcases bind_eq_error_iff.mp h with hcheck | ⟨_, -, h⟩
    · exact .inr (checkRuns_error hcheck).1
    · cases h

/-- The operation of `LZW.DECB`: the parse, then the decoding. -/
def lzwDecodeContainer (B : List Byte) : Except Report (List Word × List Sym) := do
  let K ← parseHcl1 B
  let S ← lzwDecode (codeNats K)
  return (K, S)

theorem lzwDecodeContainer_error {B : List Byte} {e : Report}
    (h : lzwDecodeContainer B = .error e) :
    e.cause = .malformedSerializedData ∨ e.cause = .corruptedLZWStream := by
  rcases bind_eq_error_iff.mp h with hparse | ⟨K, -, h⟩
  · exact .inl (causes_of_malformedWithin (parseHcl1_within B) hparse)
  · rcases bind_eq_error_iff.mp h with hdecode | ⟨S, -, h⟩
    · exact .inr (lzwDecode_error hdecode).1
    · cases h

def rleEncBehaviour : Behaviour .rleEnc :=
  .ofReadOnce (b := .rleSym) (fun S => .ok (rleRuns S)) (.head _)
    (fun c R => [limitOf c .rleRun R.length]) (fun R => [⟨.rleRun, R.map SymCount.stored⟩])
    (fun _ => by unfold exec execRleEnc; exact rleCommand_eq_command rfl fun _ => rfl)
    (fun _ _ h => not_error_of_ok h)
    fun _ R h => fits_single (b := .rleRun) h (by decide) _
      ⟨_, .head _, (List.length_map _).le, rfl⟩

def rleDecBehaviour : Behaviour .rleDec :=
  .ofReadOnce (b := .rleRun) (fun R => .ok (R.map Run.counted)) (.head _)
    (fun c R => [limitOf c .rleSym (runTotal R)]) (fun R => [⟨.rleSym, rleExpand R⟩])
    (fun _ => by unfold exec execRleDec; exact rleCommand_eq_command rfl fun _ => rfl)
    (fun _ _ h => not_error_of_ok h)
    fun _ R h => fits_single (b := .rleSym) h (by decide) _
      ⟨_, .head _, (rleExpand_length R).le, rfl⟩

def rleEncbBehaviour : Behaviour .rleEncb :=
  .ofReadOnce (b := .rleSym) (fun S => .ok (rleRuns S)) (.head _)
    (fun c R => [limitOf c .rleRun R.length, limitOf c .rleByt (8 + 8 * R.length)])
    (fun R => [⟨.rleByt, serHcr1 R⟩])
    (fun _ => by unfold exec execRleEncb; exact rleCommand_eq_command rfl fun _ => rfl)
    (fun _ _ h => not_error_of_ok h)
    fun _ R h => fits_single (b := .rleByt) h (by decide) _
      ⟨_, .tail _ (.head _), (serHcr1_length R).le, rfl⟩

def rleDecbBehaviour : Behaviour .rleDecb :=
  .ofReadOnce (b := .rleByt) rleDecodeContainer (.head _)
    (fun c R => [limitOf c .rleRun R.length, limitOf c .rleSym (runTotal R)])
    (fun R => [⟨.rleSym, rleExpand R⟩])
    (fun _ => by unfold exec execRleDecb; exact rleCommand_eq_command rfl fun _ => rfl)
    (fun _ _ h => by rcases rleDecodeContainer_error h with h | h <;> simp [h, causesOf])
    fun _ R h => fits_single (b := .rleSym) h (by decide) _
      ⟨_, .tail _ (.head _), (rleExpand_length R).le, rfl⟩

def rleEncsBehaviour : Behaviour .rleEncs :=
  .ofReadOnce (b := .rleSym) (fun S => .ok S) (.head _)
    (fun c S => [limitOf c .rleRun (rleRuns S).length, limitOf c .rleTxt (rleTextEnc S).length])
    (fun S => [⟨.rleTxt, rleTextEnc S⟩])
    (fun _ => by unfold exec execRleEncs; exact rleCommand_eq_command rfl fun _ => rfl)
    (fun _ _ h => not_error_of_ok h)
    fun _ _ h => fits_single (b := .rleTxt) h (by decide) _ ⟨_, .tail _ (.head _), le_rfl, rfl⟩

def rleDecsBehaviour : Behaviour .rleDecs :=
  .ofReadOnce (b := .rleTxt) rleTextTokens (.head _)
    (fun c R => [limitOf c .rleSym (runTotal R)]) (fun R => [⟨.rleSym, rleExpand R⟩])
    (fun _ => by unfold exec execRleDecs; exact rleCommand_eq_command rfl fun _ => rfl)
    (fun _ _ h => by
      obtain ⟨q, -, rfl⟩ := rleTextTokens_error h
      exact .head _)
    fun _ R h => fits_single (b := .rleSym) h (by decide) _
      ⟨_, .head _, (rleExpand_length R).le, rfl⟩

/-! ### The commands of LZW -/

def lzwEncBehaviour : Behaviour .lzwEnc :=
  .ofReadOnce (b := .lzwSym) lzwEncode (.head _)
    (fun c K => [limitOf c .lzwCod K.length]) (fun K => [⟨.lzwCod, codeWords K⟩])
    (fun _ => by unfold exec execLzwEnc; exact lzwCommand_eq_command rfl fun _ => rfl)
    (fun _ _ h => (lzwEncode_error h).1 ▸ .head _)
    fun _ K h => fits_single (b := .lzwCod) h (by decide) _
      ⟨_, .head _, (codeWords_length K).le, rfl⟩

def lzwDecBehaviour : Behaviour .lzwDec :=
  .ofReadOnce (b := .lzwCod) (fun K => lzwDecode (codeNats K)) (.head _)
    (fun c S => [limitOf c .lzwSym S.length]) (fun S => [⟨.lzwSym, S⟩])
    (fun _ => by unfold exec execLzwDec; exact lzwCommand_eq_command rfl fun _ => rfl)
    (fun _ _ h => (lzwDecode_error h).1 ▸ .head _)
    fun _ _ h => fits_single (b := .lzwSym) h (by decide) _ ⟨_, .head _, le_rfl, rfl⟩

def lzwEncbBehaviour : Behaviour .lzwEncb :=
  .ofReadOnce (b := .lzwSym) lzwEncode (.head _)
    (fun c K => [limitOf c .lzwCod K.length, limitOf c .lzwByt (8 + 4 * K.length)])
    (fun K => [⟨.lzwByt, serHcl1 (codeWords K)⟩])
    (fun _ => by unfold exec execLzwEncb; exact lzwCommand_eq_command rfl fun _ => rfl)
    (fun _ _ h => (lzwEncode_error h).1 ▸ .head _)
    fun _ K h => fits_single (b := .lzwByt) h (by decide) _
      ⟨_, .tail _ (.head _), by rw [serHcl1_length, codeWords_length]; exact le_rfl, rfl⟩

def lzwDecbBehaviour : Behaviour .lzwDecb :=
  .ofReadOnce (b := .lzwByt) lzwDecodeContainer (.head _)
    (fun c r => [limitOf c .lzwCod r.1.length, limitOf c .lzwSym r.2.length])
    (fun r => [⟨.lzwSym, r.2⟩])
    (fun _ => by unfold exec execLzwDecb; exact lzwCommand_eq_command rfl fun _ => rfl)
    (fun _ _ h => by rcases lzwDecodeContainer_error h with h | h <;> simp [h, causesOf])
    fun _ _ h => fits_single (b := .lzwSym) h (by decide) _ ⟨_, .tail _ (.head _), le_rfl, rfl⟩

/-! ### The commands of HUF -/

def hufDecbBehaviour : Behaviour .hufDecb :=
  .ofReadOnce (b := .hufByt) hufDecodeContainer (.head _)
    (fun c h => [limitOf c .hufTab h.freq.length, clenLimit c h.table, limitOf c .hufBit h.bits.length,
      limitOf c .hufSym h.syms.length])
    (fun h => [⟨.hufSym, h.syms⟩])
    (fun _ => by unfold exec execHufDecb; exact hufCommand_eq_command rfl fun _ => rfl)
    (fun _ _ h => by
      rcases hufDecodeContainer_error h with ⟨h | h, -⟩ | ⟨h, -⟩ <;> simp [h, causesOf])
    fun _ _ h => fits_single (b := .hufSym) h (by decide) _
      ⟨_, .tail _ (.tail _ (.tail _ (.head _))), le_rfl, rfl⟩

/-- The operation of `HUF.DEC`: the table is read first and checked, then the bits are decoded. -/
def hufDecodeSources (s : State) (k : Nat) : Except Report (List Sym) × Nat :=
  let tab := s.read .hufTab k
  let bit := s.read .hufBit tab.2
  (do
    huffCheckTable tab.1
    huffDecode bit.1 tab.1, bit.2)

def hufDecBehaviour : Behaviour .hufDec where
  Result := List Sym
  op := hufDecodeSources
  limits c S := [limitOf c .hufSym S.length]
  content S := [⟨.hufSym, S⟩]
  exec_eq _ := by
    unfold exec execHufDec
    exact hufCommand_eq_command rfl fun _ => rfl
  destinations _ := rfl
  causes s k e h := by
    rcases bind_eq_error_iff.mp h with hcheck | ⟨-, -, hdecode⟩
    · simp [(huffCheckTable_error hcheck).1, causesOf]
    · simp [(huffDecode_error hdecode).1, causesOf]
  fits _ _ h := fits_single (b := .hufSym) h (by decide) _ ⟨_, .head _, le_rfl, rfl⟩
  reads s t h := by
    funext k
    rw [hufDecodeSources, hufDecodeSources, (h.2 .hufTab (.tail _ (.head _))).read_eq h.1,
      (h.2 .hufBit (.head _)).read_eq h.1]
  readsWritten s h := by
    obtain ⟨C, hC⟩ := State.read_of_written (h .hufTab (.tail _ (.head _)))
    obtain ⟨bits, hbits⟩ := State.read_of_written (h .hufBit (.head _))
    exact ⟨_, fun k => by simp only [hufDecodeSources, hC, hbits]; rfl⟩

/-- The operation of `HUF.ENC` and `HUF.ENCB`: both readings of `SYM`. -/
def hufEncodeSyms (s : State) (k : Nat) : Except Report HufImage × Nat :=
  (.ok (hufEncodeSource s.huf k).1, (hufEncodeSource s.huf k).2)

/-- The second reading differs from the first where free values are drawn; the encoding then may draw more. -/
theorem hufEncodeSyms_eq (s : State) : hufEncodeSyms s = fun k =>
    let first := s.read .hufSym k
    let second := s.read .hufSym first.2
    let bits := huffEncode (tableOf first.1) second.1 second.2
    (.ok ⟨huffFreq first.1, tableOf first.1, bits.1, second.1⟩, bits.2) := rfl

theorem hufEncodeSyms_congr {s t : State} (hc : s.cfg = t.cfg) (h : s.sameContent t .hufSym) :
    hufEncodeSyms s = hufEncodeSyms t := by
  rw [hufEncodeSyms_eq, hufEncodeSyms_eq, h.read_eq hc]

theorem hufEncodeSyms_of_written {s : State}
    (h : ∀ j, j < (s.len .hufSym).toNat → (s.peek .hufSym j).isSome = true) :
    ∃ r, ∀ k, (hufEncodeSyms s k).1 = r := by
  obtain ⟨S, hS⟩ := State.read_of_written h
  refine ⟨.ok ⟨huffFreq S, tableOf S, S.flatMap (codeBits (tableOf S)), S⟩, fun k => ?_⟩
  simp only [hufEncodeSyms_eq, hS, huffEncode_tableOf]

def hufEncBehaviour : Behaviour .hufEnc where
  Result := HufImage
  op := hufEncodeSyms
  limits c h :=
    [limitOf c .hufTab h.table.length, clenLimit c h.table, limitOf c .hufBit h.bits.length]
  content h := [⟨.hufBit, h.bits⟩, ⟨.hufTab, h.table⟩]
  exec_eq _ := by
    unfold exec execHufEnc
    exact hufCommand_eq_command rfl fun _ => rfl
  destinations _ := rfl
  causes _ _ _ h := not_error_of_ok h
  fits c h hl := by
    obtain ⟨htab, hrest⟩ := List.forall_mem_cons.mp ((leastExceeded_none _).mp hl)
    obtain ⟨hclen, hbit⟩ := List.forall_mem_cons.mp hrest
    have hbit := hbit _ (.head _)
    refine List.forall_mem_cons.mpr ⟨⟨hbit, fun _ _ => rfl⟩,
      List.forall_mem_singleton.mpr ⟨htab, fun e he => ?_⟩⟩
    exact decide_eq_true ((longestCode_le _ _).mp hclen e he)
  reads _ _ h := hufEncodeSyms_congr h.1 (h.2 .hufSym (.head _))
  readsWritten _ h := hufEncodeSyms_of_written (h .hufSym (.head _))

def hufEncbBehaviour : Behaviour .hufEncb where
  Result := HufImage
  op := hufEncodeSyms
  limits c h :=
    [limitOf c .hufTab h.freq.length, clenLimit c h.table, limitOf c .hufBit h.bits.length,
      limitOf c .hufByt (16 + 8 * h.freq.length + h.container.packed.length)]
  content h := [⟨.hufByt, serHch1 h.container⟩]
  exec_eq _ := by
    unfold exec execHufEncb
    exact hufCommand_eq_command rfl fun _ => rfl
  destinations _ := rfl
  causes _ _ _ h := not_error_of_ok h
  fits _ h hl := fits_single (b := .hufByt) hl (by decide) _
    ⟨_, .tail _ (.tail _ (.tail _ (.head _))), (serHch1_length _).le, rfl⟩
  reads _ _ h := hufEncodeSyms_congr h.1 (h.2 .hufSym (.head _))
  readsWritten _ h := hufEncodeSyms_of_written (h .hufSym (.head _))

/-- Every command has a description (10_state.md R37, R38). -/
def behaviour : (i : Instr) → Behaviour i
  | .rleEnc => rleEncBehaviour
  | .rleDec => rleDecBehaviour
  | .rleEncb => rleEncbBehaviour
  | .rleDecb => rleDecbBehaviour
  | .rleEncs => rleEncsBehaviour
  | .rleDecs => rleDecsBehaviour
  | .hufEnc => hufEncBehaviour
  | .hufDec => hufDecBehaviour
  | .hufEncb => hufEncbBehaviour
  | .hufDecb => hufDecbBehaviour
  | .lzwEnc => lzwEncBehaviour
  | .lzwDec => lzwDecBehaviour
  | .lzwEncb => lzwEncbBehaviour
  | .lzwDecb => lzwDecbBehaviour

end Sys2Proof.Machine
end

section
/-! PROOFS. The end of a command, whichever it is (10_state.md R37, R38; 60_exceptions.md R241, R249, R255). -/

namespace Sys2Proof.Machine

/-! ### The two ways a command ends -/

section
variable {α : Type} {s : State} {i : Instr} {op : Nat → Except Report α × Nat}
  {limits : α → List Limit} {content : α → List Written} {k : Nat}

theorem State.command_of_error {e : Report}
    (h : byPriority (s.sourceOverflow i) op limits (s.aux i.unit).free = (.error e, k)) :
    s.command i op limits content = .next ((s.setFree i.unit k).raise i.unit e) := by
  rw [command, h]

theorem State.command_of_ok {a : α}
    (h : byPriority (s.sourceOverflow i) op limits (s.aux i.unit).free = (.ok a, k)) :
    s.command i op limits content = .next ((s.writeAll (content a)).finish i.unit k) := by
  rw [command, h]

end

theorem capacityExceeded_mem_causesOf (i : Instr) : Cause.capacityExceeded ∈ causesOf i := by
  cases i <;> decide

/-- Everything a command can do: it reports one of its causes, or it writes contents that fit into its
destinations and completes. -/
theorem exec_cases (i : Instr) (s : State) :
    (∃ e k, exec i s = .next ((s.setFree i.unit k).raise i.unit e) ∧ e.cause ∈ causesOf i) ∨
    (∃ rs k, exec i s = .next ((s.writeAll rs).finish i.unit k) ∧
      rs.map Written.buf = i.destinations ∧ ∀ r ∈ rs, r.fits s.cfg) := by
  have b := behaviour i
  rw [b.exec_eq s]
  obtain ⟨id, -, hp⟩ | ⟨e, k, -, hop, hp⟩ | ⟨a, k, id, -, -, -, hp⟩ | ⟨a, k, -, hop, hl, hp⟩ :=
    byPriority_cases (s.sourceOverflow i) (b.op s) (b.limits s.cfg) (s.aux i.unit).free
  · exact .inl ⟨_, _, State.command_of_error hp, capacityExceeded_mem_causesOf i⟩
  · exact .inl ⟨_, _, State.command_of_error hp, b.causes s _ e (congrArg Prod.fst hop)⟩
  · exact .inl ⟨_, _, State.command_of_error hp, capacityExceeded_mem_causesOf i⟩
  · exact .inr ⟨_, _, State.command_of_ok hp, b.destinations a, b.fits s.cfg a hl⟩

theorem State.completeUnit_illegal {s : State} {u : UnitId} {r : Illegal}
    (h : decode u (s.ctrl u).cmd = .error r) : s.completeUnit u = .next (s.raise u illegal) :=
  completeUnit_of_illegal fun i hi => by rw [h] at hi; cases hi

/-- Settles O10: error entry and completion set `STATUS`; only error entry sets `ERR`. -/
theorem everyCommandCompletes : Obligations.EveryCommandCompletes := by
  refine ⟨by decide, fun i s => ?_, fun s u r h => ⟨_, State.completeUnit_illegal h, ?_, ?_⟩⟩
  · obtain ⟨e, k, h, hcause⟩ | ⟨rs, k, h, -⟩ := exec_cases i s
    · refine ⟨_, h, ?_, .inr ⟨?_, e.cause, hcause, ?_⟩⟩ <;> rw [State.raise_ctrl_same]
      · rw [Ctrl.raise_cmd, State.setFree_ctrl]
      · rfl
      · rfl
    · refine ⟨_, h, ?_, .inl ⟨?_, ?_, ?_⟩⟩ <;> rw [State.finish_ctrl_same]
      · rw [Ctrl.complete_cmd, State.writeAll_ctrl]
      · rw [Ctrl.complete_status]
        refine statusDone_emptyFlag ?_
        rw [State.reg_symLen, State.finish_len]
      · rw [Ctrl.complete_err, State.writeAll_ctrl]
      · rw [Ctrl.complete_errInfo, State.writeAll_ctrl]
  · rw [State.raise_ctrl_same]
    rfl
  · rw [State.raise_ctrl_same]
    rfl

/-! ### Completion without error (10_state.md R37) -/

theorem Instr.destinations_nodup (i : Instr) : i.destinations.Nodup := by cases i <;> decide

theorem Instr.unit_of_mem_destinations {i : Instr} {b : Buf} (h : b ∈ i.destinations) :
    b.unit = i.unit := by
  have hall : ∀ b ∈ i.destinations, b.unit = i.unit := by cases i <;> decide
  exact hall b h

section
variable {i : Instr} {s : State} {rs : List Written} (hrs : rs.map Written.buf = i.destinations)
include hrs

/-- The content a destination takes. -/
theorem exists_written_of_mem {b : Buf} (hb : b ∈ i.destinations) : ∃ xs, ⟨b, xs⟩ ∈ rs := by
  rw [← hrs] at hb
  obtain ⟨⟨b, xs⟩, hr, rfl⟩ := List.mem_map.mp hb
  exact ⟨xs, hr⟩

theorem writeAll_of_mem {b : Buf} {xs : List b.Elt} (hr : ⟨b, xs⟩ ∈ rs) :
    (s.writeAll rs).mem b = (s.mem b).store xs ∧
      (s.writeAll rs).len b = BitVec.ofNat 32 xs.length :=
  State.writeAll_same (hrs ▸ Instr.destinations_nodup i) hr

theorem writeAll_finish_sameUnit (k : Nat) {v : UnitId} (hv : v ≠ i.unit) :
    s.sameUnit ((s.writeAll rs).finish i.unit k) v := by
  refine (State.writeAll_sameUnit fun r hr => ?_).trans (State.finish_sameUnit _ i.unit k hv)
  rwa [Instr.unit_of_mem_destinations (hrs ▸ List.mem_map_of_mem hr)]

end

/-- Settles O13: a destination's elements below its new length are those just stored. -/
theorem completionFrame : Obligations.CompletionFrame := by
  intro i s t hc h ht
  obtain ⟨e, k, heq, -⟩ | ⟨rs, k, heq, hrs, hfits⟩ := exec_cases i s
  · cases heq.symm.trans h
    refine absurd ?_ ht
    rw [State.raise_ctrl_same]
    rfl
  cases heq.symm.trans h
  refine ⟨fun b hb j => ?_, ?_, ?_, ?_, ?_, State.finish_hasScratch_same _ i.unit k,
    fun v hv => writeAll_finish_sameUnit hrs k hv, ?_, ?_⟩
  · obtain ⟨xs, hr⟩ := exists_written_of_mem hrs hb
    obtain ⟨hmem, hlen⟩ := writeAll_of_mem (s := s) hrs hr
    have hget := Memory.get_store (s.mem b) xs j
    have hcap : xs.length ≤ s.cfg.cap b := (hfits _ hr).1
    rw [State.finish_len, hlen, toNat_ofNat_of_le_cap hc b hcap, State.peek_eq_mem, State.finish_mem,
      hmem, hget]
    split
    next hj => simp [List.getElem?_eq_getElem hj]
    next => rw [State.peek_eq_mem]
  · rw [State.finish_ctrl_same, Ctrl.complete_cmd, State.writeAll_ctrl]
  · rw [State.finish_ctrl_same, Ctrl.complete_err, State.writeAll_ctrl]
  · rw [State.finish_ctrl_same, Ctrl.complete_errInfo, State.writeAll_ctrl]
  · rw [State.finish_aux_same, State.writeAll_aux]
  · rw [State.finish_cfg, State.writeAll_cfg]
  · rw [State.finish_agenda, State.writeAll_agenda]

/-! ### A source that is too long (60_exceptions.md R249) -/

theorem Buf.id_lt (b : Buf) : b.id < 2 ^ 32 := by cases b <;> decide

theorem sourceOverflow_eq_some_of_least {i : Instr} {s : State} {b : Buf} (hb : b ∈ i.sources)
    (hlong : s.cfg.cap b < (s.len b).toNat)
    (hleast : ∀ c ∈ i.sources, s.cfg.cap c < (s.len c).toNat → b.id ≤ c.id) :
    s.sourceOverflow i = some b.id :=
  (leastExceeded_some _ _).mpr ⟨⟨_, List.mem_map_of_mem hb, hlong, rfl⟩,
    List.forall_mem_map.mpr hleast⟩

/-- Settles O14: the source check comes first and reads nothing. -/
theorem sourceOverflow : Obligations.SourceOverflow := by
  refine ⟨leastExceeded_some, fun i s b hb hlong hleast => ?_⟩
  have hp := byPriority_overflow b.id ((behaviour i).op s) ((behaviour i).limits s.cfg)
    (s.aux i.unit).free
  rw [← sourceOverflow_eq_some_of_least hb hlong hleast] at hp
  refine ⟨_, ((behaviour i).exec_eq s).trans (State.command_of_error hp), ?_, fun c => ?_, ?_⟩
  · rw [State.raise_ctrl_same, State.setFree_ctrl, tooLong, errInfoOf_of_lt (Buf.id_lt b)]
    rfl
  · exact (s.setFree_sameBuf i.unit _ c).trans (State.raise_sameBuf _ i.unit _ c)
  · rw [State.raise_aux, State.setFree_aux_same]

/-! ### The outcome depends on the sources (60_exceptions.md R255) -/

theorem byPriority_fst_congr {α : Type} {overflow : Option Nat}
    {op op' : Nat → Except Report α × Nat} {limits : α → List Limit} {k k' : Nat}
    (h : (op k).1 = (op' k').1) :
    (byPriority overflow op limits k).1 = (byPriority overflow op' limits k').1 := by
  cases overflow with
  | some id => rfl
  | none =>
    obtain ⟨r, n, hr⟩ : ∃ r n, op k = (r, n) := ⟨_, _, rfl⟩
    obtain ⟨r', n', hr'⟩ : ∃ r' n', op' k' = (r', n') := ⟨_, _, rfl⟩
    obtain rfl : r = r' := by rw [hr, hr'] at h; exact h
    cases r with
    | error e => rw [byPriority_error hr, byPriority_error hr']
    | ok a =>
      cases hl : leastExceeded (limits a) with
      | some id => rw [byPriority_tooLong hr hl, byPriority_tooLong hr' hl]
      | none => rw [byPriority_ok hr hl, byPriority_ok hr' hl]

theorem State.sameSources.sourceOverflow_eq {s t : State} {i : Instr} (h : s.sameSources t i) :
    s.sourceOverflow i = t.sourceOverflow i := by
  refine congrArg leastExceeded (List.map_congr_left fun b hb => ?_)
  rw [h.1, (h.2 b hb).1]

/-- `SYM` is a source or a destination of every command. -/
theorem symBuf_mem (i : Instr) : symBuf i.unit ∈ i.sources ∨ symBuf i.unit ∈ i.destinations := by
  cases i <;> decide

section
variable {i : Instr} {s s' : State} {rs : List Written}
  (hrs : rs.map Written.buf = i.destinations)
include hrs

/-- A destination's length is that of its content, whatever it was. -/
theorem writeAll_len_congr {b : Buf} (hb : b ∈ i.destinations) :
    (s.writeAll rs).len b = (s'.writeAll rs).len b := by
  obtain ⟨xs, hr⟩ := exists_written_of_mem hrs hb
  rw [(writeAll_of_mem hrs hr).2, (writeAll_of_mem hrs hr).2]

theorem writeAll_symLen_congr (h : s.sameSources s' i) :
    (s.writeAll rs).len (symBuf i.unit) = (s'.writeAll rs).len (symBuf i.unit) := by
  rcases symBuf_mem i with hb | hb
  · have hnot : symBuf i.unit ∉ rs.map Written.buf := hrs ▸ Instr.sources_not_destinations i _ hb
    rw [(State.writeAll_other hnot).2, (State.writeAll_other hnot).2]
    exact (h.2 _ hb).1
  · exact writeAll_len_congr hrs hb

/-- A destination's elements below its length are those of its content, whatever they were. -/
theorem writeAll_get_congr {b : Buf} (hb : b ∈ i.destinations) {j : Nat}
    (hj : j < ((s.writeAll rs).len b).toNat) :
    ((s.writeAll rs).mem b).get j = ((s'.writeAll rs).mem b).get j := by
  obtain ⟨xs, hr⟩ := exists_written_of_mem hrs hb
  obtain ⟨hmem, hlen⟩ := writeAll_of_mem (s := s) hrs hr
  have hxs : j < xs.length := by
    rw [hlen, BitVec.toNat_ofNat] at hj
    exact hj.trans_le (Nat.mod_le _ _)
  rw [hmem, (writeAll_of_mem hrs hr).1, Memory.get_store, Memory.get_store, if_pos hxs, if_pos hxs]

end

/-- Settles O15: the operation's result is the same, and so is what it writes. -/
theorem resultDependsOnSourcesOnly : Obligations.ResultDependsOnSourcesOnly := by
  intro i s s' hc hctrl hsources hfree
  have b := behaviour i
  have hsame : s.sameSources s' i := ⟨hc, hsources⟩
  have hop : (b.op s (s.aux i.unit).free).1 = (b.op s' (s'.aux i.unit).free).1 := by
    rw [← b.reads s s' hsame]
    rcases hfree with hfree | hwritten
    · rw [hfree]
    · obtain ⟨r, hr⟩ := b.readsWritten s hwritten
      rw [hr, hr]
  have hfst := byPriority_fst_congr (overflow := s.sourceOverflow i) (limits := b.limits s.cfg) hop
  rw [b.exec_eq s, b.exec_eq s', ← hc]
  rcases hp : byPriority (s.sourceOverflow i) (b.op s) (b.limits s.cfg) (s.aux i.unit).free with
    ⟨r, k⟩
  rcases hp' : byPriority (s.sourceOverflow i) (b.op s') (b.limits s.cfg) (s'.aux i.unit).free with
    ⟨r', k'⟩
  obtain rfl : r = r' := by rw [hp, hp'] at hfst; exact hfst
  rw [hsame.sourceOverflow_eq] at hp'
  cases r with
  | error e =>
    refine ⟨_, _, State.command_of_error hp, State.command_of_error hp', ?_, fun hdone => ?_⟩
    · rw [State.raise_ctrl_same, State.raise_ctrl_same, State.setFree_ctrl, State.setFree_ctrl, hctrl]
    · refine absurd ?_ hdone
      rw [State.raise_ctrl_same]
      rfl
  | ok a =>
    have hrs := b.destinations a
    refine ⟨_, _, State.command_of_ok hp, State.command_of_ok hp', ?_,
      fun _ d hd => ⟨?_, fun j hj => ?_⟩⟩
    · rw [State.finish_ctrl_same, State.finish_ctrl_same, State.writeAll_ctrl, State.writeAll_ctrl,
        hctrl, writeAll_symLen_congr hrs hsame]
    · rw [State.finish_len, State.finish_len, writeAll_len_congr hrs hd]
    · rw [State.finish_len] at hj
      rw [State.peek_eq_mem, State.peek_eq_mem, State.finish_mem, State.finish_mem,
        writeAll_get_congr hrs hd hj]

end Sys2Proof.Machine
end

section
/-! PROOFS. The steps of the machine (10_state.md R35, R37, R38, R40; 70_reset_and_hazards.md R280 to R296). -/

namespace Sys2Proof.Machine

/-! ### The completion of a unit, whatever its word -/

theorem State.setFree_self (s : State) (u : UnitId) : s.setFree u (s.aux u).free = s := by
  cases u <;> rfl

theorem illegalCommand_notMem_causesOf (i : Instr) : Cause.illegalCommand ∉ causesOf i := by
  cases i <;> decide

/-- A completion is error entry, with `IllegalCommand` exactly for a word that is not legal, or the end of a
legal command that has written contents that fit its destinations. -/
theorem State.completeUnit_outcomes (s : State) (u : UnitId) :
    (∃ e k, s.completeUnit u = .next ((s.setFree u k).raise u e) ∧
      (e.cause = .illegalCommand ↔ ∃ r, decode u (s.ctrl u).cmd = .error r)) ∨
    (∃ i rs k, decode u (s.ctrl u).cmd = .ok i ∧ i.unit = u ∧
      s.completeUnit u = .next ((s.writeAll rs).finish u k) ∧
      rs.map Written.buf = i.destinations ∧ ∀ r ∈ rs, r.fits s.cfg) := by
  obtain ⟨i, hi, heq⟩ | ⟨r, hr, heq⟩ := s.completeUnit_cases u
  · obtain ⟨rfl, -⟩ := (decode_eq_ok_iff_encode u _ i).mp hi
    rw [heq]
    obtain ⟨e, k, hexec, hcause⟩ | ⟨rs, k, hexec, hrs, hfits⟩ := exec_cases i s
    · refine .inl ⟨e, k, hexec, iff_of_false (fun h => ?_) ?_⟩
      · exact illegalCommand_notMem_causesOf i (h ▸ hcause)
      · rintro ⟨r, hr⟩
        cases hi.symm.trans hr
    · exact .inr ⟨i, rs, k, hi, rfl, hexec, hrs, hfits⟩
  · refine .inl ⟨illegal, (s.aux u).free, ?_, iff_of_true rfl ⟨r, hr⟩⟩
    rw [heq, State.setFree_self]

/-- A completion ends the command and is about its unit only. -/
theorem State.exists_completeUnit (s : State) (u : UnitId) :
    ∃ t, s.completeUnit u = .next t ∧ t.cfg = s.cfg ∧ t.agenda = s.agenda ∧
      (∀ v, v ≠ u → s.sameUnit t v) ∧
      ((t.ctrl u).status = statusError ∨ ∃ empty, (t.ctrl u).status = statusDone empty) := by
  obtain ⟨e, k, heq, -⟩ | ⟨i, rs, k, -, rfl, heq, hrs, -⟩ := s.completeUnit_outcomes u
  · refine ⟨_, heq, ?_, ?_, fun v hv => ?_, .inl ?_⟩
    · rw [raise_cfg, setFree_cfg]
    · rw [raise_agenda, setFree_agenda]
    · exact (s.setFree_sameUnit u k v hv).trans (raise_sameUnit _ u e v hv)
    · rw [raise_ctrl_same, Ctrl.raise_status]
  · refine ⟨_, heq, ?_, ?_, fun v hv => writeAll_finish_sameUnit hrs k hv, ?_⟩
    · rw [finish_cfg, writeAll_cfg]
    · rw [finish_agenda, writeAll_agenda]
    · exact .inr ⟨_, congrArg Ctrl.status (finish_ctrl_same _ i.unit k)⟩

theorem Ctrl.busy_eq_false_of_ended {c : Ctrl}
    (h : c.status = statusError ∨ ∃ empty, c.status = statusDone empty) : c.busy = false := by
  rw [Ctrl.busy]
  obtain h | ⟨_ | _, h⟩ := h <;> rw [h] <;> decide

theorem State.sameUnit.ctrl_eq {s t : State} {u : UnitId} (h : s.sameUnit t u) :
    t.ctrl u = s.ctrl u := by
  cases u <;> exact congrArg (·.ctrl) (Eq.symm h)

/-! ### No stuck state (70_reset_and_hazards.md section 5) -/

/-- Settles O9: reads, register writes, completions and the reset input always answer a next state. -/
theorem stepGoesOn : Obligations.StepGoesOn := by
  intro s
  obtain ⟨-, -, h⟩ | ⟨u, -, -, h⟩ | ⟨op, rest, ha, h⟩ | ⟨u, rest, -, -, h⟩ | ⟨u, rest, -, -, h⟩ |
    ⟨rest, -, h⟩ := step_cases s
  · exact .inl ⟨_, h⟩
  · obtain ⟨t, ht, -⟩ := s.exists_completeUnit u
    exact .inl ⟨t, h.trans ht⟩
  · cases op with
    | regRead u n => exact .inl ⟨_, h⟩
    | regWrite u n v => exact .inl ⟨_, h⟩
    | bufRead b i => exact .inl ⟨_, h⟩
    | bufWrite b i v =>
      cases hv : v.fits s.cfg b with
      | true => exact .inl ⟨_, h.trans (if_pos hv)⟩
      | false => exact .inr ⟨b, i, v, rest, ha, hv, h.trans (if_neg (Bool.not_eq_true _ ▸ hv))⟩
  · obtain ⟨t, ht, -⟩ := State.exists_completeUnit { s with agenda := rest } u
    exact .inl ⟨t, h.trans ht⟩
  · exact .inl ⟨_, h⟩
  · exact .inl ⟨_, h⟩

/-! ### The command that a completion runs -/

theorem State.completeUnit_legal {s : State} {u : UnitId} {i : Instr}
    (h : decode u (s.ctrl u).cmd = .ok i) : s.completeUnit u = exec i s := by
  rw [completeUnit, h]

theorem State.quiesce_of_firstBusy {s : State} {u : UnitId} (h : s.firstBusy = some u) :
    s.quiesce = s.completeUnit u := by
  rw [quiesce, h]

theorem tableWord_encode (i : Instr) : tableWord 32 (encode i).toNat = encode i := by
  cases i <;> decide

theorem tableUnit_encode (i : Instr) : tableUnit (encode i) = i.unit := by
  obtain ⟨-, hunit, -⟩ := encodedFields i
  rw [tableUnit, hunit]
  rfl

theorem State.withFetchWord_encode (s : State) (i : Instr) :
    s.withFetchWord 32 (encode i).toNat = s.accepted i.unit (encode i) := by
  rw [withFetchWord, tableWord_encode, tableUnit_encode]

theorem State.accepted_withAgenda (s : State) (u : UnitId) (w : Word) :
    { s.accepted u w with agenda := s.agenda } = s.accept u w := by
  cases u <;> rfl

theorem State.accepted_ctrl (s : State) (u : UnitId) (w : Word) :
    (s.accepted u w).ctrl u = Ctrl.accept w := by
  rw [accepted, withAgenda_ctrl, accept_ctrl_same]

/-- Settles O8: each of the three is a completion of a unit whose word decodes. -/
theorem stepRunsTheDecodedCommand : Obligations.StepRunsTheDecodedCommand := by
  refine ⟨fun s u i rest ha hb hi => ?_, fun s u i ha hf hi => ?_, fun s i => ?_⟩
  · rw [step_complete ha hb, State.completeUnit_legal (by simpa using hi)]
  · rw [step_nil ha, State.quiesce_of_firstBusy hf, State.completeUnit_legal hi]
  · have hctrl := s.accepted_ctrl i.unit (encode i)
    obtain ⟨-, -, -, -, hi, -⟩ := encodedFields i
    rw [State.withFetchWord_encode, step_complete rfl (by rw [State.busy, hctrl, Ctrl.accept_busy]),
      State.completeUnit_legal (by rwa [State.withAgenda_ctrl, hctrl]), State.accepted_withAgenda]

/-! ### With no event left the busy units complete (70_reset_and_hazards.md R293, R296) -/

theorem State.busy_eq_false_of_firstBusy {s : State} (h : s.firstBusy = none) (u : UnitId) :
    s.busy u = false := by
  rw [firstBusy] at h
  cases hrle : s.busy .rle <;> cases hhuf : s.busy .huf <;> cases hlzw : s.busy .lzw <;>
    simp [hrle, hhuf, hlzw] at h
  cases u <;> assumption

theorem run_succ {s t : State} (h : step s = .next t) (n : Nat) :
    Host.Core.run core (n + 1) s = Host.Core.run core n t := by
  have hcore : core.step s = .next t := h
  simp only [Host.Core.run, hcore]

/-- As many steps as units may be busy end the run: each completes one of them. -/
theorem run_over {us : List UnitId} {n : Nat} {s : State} (hn : us.length = n) (ha : s.agenda = [])
    (hbusy : ∀ v, s.busy v = true → v ∈ us) :
    ∃ t, Host.Core.run core n s = .next t ∧ t.over := by
  induction n generalizing us s with
  | zero =>
    refine ⟨s, rfl, ha, fun v => Bool.eq_false_iff.mpr fun hv => ?_⟩
    rw [List.eq_nil_of_length_eq_zero hn] at hbusy
    exact List.not_mem_nil (hbusy v hv)
  | succ n ih =>
    rcases hf : s.firstBusy with _ | u
    · have hstep : step s = .next s := by rw [step_nil ha, State.quiesce, hf]
      rw [run_succ hstep]
      refine ih (us := us.tail) (by rw [List.length_tail, hn]; rfl) ha fun v hv => ?_
      rw [State.busy_eq_false_of_firstBusy hf] at hv
      cases hv
    · obtain ⟨t, ht, -, hta, hother, hended⟩ := s.exists_completeUnit u
      have hstep : step s = .next t := by rw [step_nil ha, State.quiesce_of_firstBusy hf, ht]
      rw [run_succ hstep]
      refine ih (us := us.erase u) ?_ (hta.trans ha) fun v hv => ?_
      · rw [List.length_erase_of_mem (hbusy u (State.firstBusy_busy hf)), hn, Nat.add_sub_cancel]
      · have hne : v ≠ u := by
          rintro rfl
          rw [State.busy, Ctrl.busy_eq_false_of_ended hended] at hv
          cases hv
        refine (List.mem_erase_of_ne hne).mpr (hbusy v ?_)
        rwa [State.busy, (hother v hne).ctrl_eq] at hv

/-- Settles O17: there are three units. -/
theorem busyUnitsComplete : Obligations.BusyUnitsComplete := fun s ha =>
  run_over (us := [.rle, .huf, .lzw]) rfl ha fun v _ => by cases v <;> decide

/-! ### Reset (10_state.md R40; 70_reset_and_hazards.md R280 to R282) -/

/-- Settles O18: every unit of the reset state meets its part of the invariant. -/
theorem invariantAtReset : Obligations.InvariantAtReset where
  cfg := by decide
  rle := RleUnit.reset_inv _ _
  huf := HufUnit.reset_inv _ _
  lzw := LzwUnit.reset_inv _ _

theorem State.resetInput_aux (s : State) (u : UnitId) : s.resetInput.aux u = s.aux u := by
  cases u <;> rfl

/-- Settles O4: the next state is the reset input's, in the state without the event. -/
theorem resetDropsTheCommand : Obligations.ResetDropsTheCommand := by
  intro s rest ha
  refine ⟨_, step_cons ha, rfl, rfl, fun u => ⟨State.resetInput_unitReset _ u, ?_⟩⟩
  rw [State.resetInput_aux, State.withAgenda_aux]

end Sys2Proof.Machine
end

section
/-! PROOFS. A command issued right after reset (70_reset_and_hazards.md section 2): it runs on empty sources. -/

namespace Sys2Proof.Machine

/-- On empty sources command `i` computes `a`, which fits and leaves no symbol. -/
structure EmptyResult (i : Instr) (a : (behaviour i).Result) : Prop where
  op_eq : ∀ s k, (∀ b ∈ i.sources, s.len b = 0) → ((behaviour i).op s k).1 = .ok a
  fits : ∀ c : Config, 16 ≤ c.capByt → ∀ l ∈ (behaviour i).limits c a, l.need ≤ l.cap
  noSym : ∀ r ∈ (behaviour i).content a, r.buf = symBuf i.unit → r.elems = []

theorem readOnce_of_len_zero {α : Type} {b : Buf} (f : List b.Elt → Except Report α) {s : State}
    (h : s.len b = 0) (k : Nat) : (readOnce f s k).1 = f [] := by
  rw [readOnce, State.read_of_len_zero h]

theorem hufDecodeSources_of_len_zero {s : State} (hbit : s.len .hufBit = 0) (htab : s.len .hufTab = 0)
    (k : Nat) : (hufDecodeSources s k).1 = .ok [] := by
  simp only [hufDecodeSources, State.read_of_len_zero hbit, State.read_of_len_zero htab]
  rfl

theorem hufEncodeSyms_of_len_zero {s : State} (h : s.len .hufSym = 0) (k : Nat) :
    (hufEncodeSyms s k).1 = .ok ⟨[], [], [], []⟩ := by
  simp only [hufEncodeSyms_eq, State.read_of_len_zero h]
  rfl

section
variable {l l' : Limit}

theorem fits_of_zero (h : l.need = 0) : l.need ≤ l.cap := h ▸ Nat.zero_le _

theorem fits_one (h : l.need ≤ l.cap) : ∀ m ∈ [l], m.need ≤ m.cap := List.forall_mem_singleton.mpr h

theorem fits_two (h : l.need ≤ l.cap) (h' : l'.need ≤ l'.cap) : ∀ m ∈ [l, l'], m.need ≤ m.cap :=
  List.forall_mem_cons.mpr ⟨h, fits_one h'⟩

end

/-- The commands that end without error on empty sources. -/
theorem exists_emptyResult (i : Instr) (hi : ¬ (i = .rleDecb ∨ i = .hufDecb ∨ i = .lzwDecb)) :
    ∃ a, EmptyResult i a := by
  cases i with
  | rleEnc =>
    exact ⟨([] : List SymCount), fun s k h => readOnce_of_len_zero _ (h _ (.head _)) k,
      fun c _ => fits_one (fits_of_zero rfl), List.forall_mem_singleton.mpr fun _ => rfl⟩
  | rleDec =>
    exact ⟨([] : List SymCount), fun s k h => readOnce_of_len_zero _ (h _ (.head _)) k,
      fun c _ => fits_one (fits_of_zero rfl), List.forall_mem_singleton.mpr fun _ => rfl⟩
  | rleEncb =>
    exact ⟨([] : List SymCount), fun s k h => readOnce_of_len_zero _ (h _ (.head _)) k,
      fun c hc => fits_two (fits_of_zero rfl) (le_trans (show 8 ≤ 16 by decide) hc),
      List.forall_mem_singleton.mpr (by decide)⟩
  | rleEncs =>
    exact ⟨([] : List Sym), fun s k h => readOnce_of_len_zero _ (h _ (.head _)) k,
      fun c _ => fits_two (fits_of_zero rfl) (fits_of_zero rfl),
      List.forall_mem_singleton.mpr fun _ => rfl⟩
  | rleDecs =>
    exact ⟨([] : List SymCount), fun s k h => readOnce_of_len_zero _ (h _ (.head _)) k,
      fun c _ => fits_one (fits_of_zero rfl), List.forall_mem_singleton.mpr fun _ => rfl⟩
  | hufEnc =>
    exact ⟨(⟨[], [], [], []⟩ : HufImage), fun s k h => hufEncodeSyms_of_len_zero (h _ (.head _)) k,
      fun c _ => List.forall_mem_cons.mpr
        ⟨fits_of_zero rfl, fits_two (fits_of_zero rfl) (fits_of_zero rfl)⟩,
      List.forall_mem_cons.mpr ⟨fun _ => rfl, List.forall_mem_singleton.mpr fun _ => rfl⟩⟩
  | hufDec =>
    exact ⟨([] : List Sym),
      fun s k h => hufDecodeSources_of_len_zero (h _ (.head _)) (h _ (.tail _ (.head _))) k,
      fun c _ => fits_one (fits_of_zero rfl), List.forall_mem_singleton.mpr fun _ => rfl⟩
  | hufEncb =>
    exact ⟨(⟨[], [], [], []⟩ : HufImage), fun s k h => hufEncodeSyms_of_len_zero (h _ (.head _)) k,
      fun c hc => List.forall_mem_cons.mpr ⟨fits_of_zero rfl, List.forall_mem_cons.mpr
        ⟨fits_of_zero rfl, fits_two (fits_of_zero rfl) hc⟩⟩,
      List.forall_mem_singleton.mpr (by decide)⟩
  | lzwEnc =>
    exact ⟨([] : List Nat), fun s k h => readOnce_of_len_zero _ (h _ (.head _)) k,
      fun c _ => fits_one (fits_of_zero rfl), List.forall_mem_singleton.mpr fun _ => rfl⟩
  | lzwDec =>
    exact ⟨([] : List Sym), fun s k h => readOnce_of_len_zero _ (h _ (.head _)) k,
      fun c _ => fits_one (fits_of_zero rfl), List.forall_mem_singleton.mpr fun _ => rfl⟩
  | lzwEncb =>
    exact ⟨([] : List Nat), fun s k h => readOnce_of_len_zero _ (h _ (.head _)) k,
      fun c hc => fits_two (fits_of_zero rfl) (le_trans (show 8 ≤ 16 by decide) hc),
      List.forall_mem_singleton.mpr (by decide)⟩
  | rleDecb => exact absurd (.inl rfl) hi
  | hufDecb => exact absurd (.inr (.inl rfl)) hi
  | lzwDecb => exact absurd (.inr (.inr rfl)) hi

/-- The three decoders of containers miss the tag. -/
theorem op_of_empty_container {i : Instr} (hi : i = .rleDecb ∨ i = .hufDecb ∨ i = .lzwDecb) {s : State}
    (h : ∀ b ∈ i.sources, s.len b = 0) (k : Nat) :
    ((behaviour i).op s k).1 = .error (malformed 0) := by
  rcases hi with rfl | rfl | rfl
  · exact readOnce_of_len_zero rleDecodeContainer (h _ (.head _)) k
  · exact readOnce_of_len_zero hufDecodeContainer (h _ (.head _)) k
  · exact readOnce_of_len_zero lzwDecodeContainer (h _ (.head _)) k

theorem Instr.unit_of_mem_sources {i : Instr} {b : Buf} (h : b ∈ i.sources) : b.unit = i.unit := by
  have hall : ∀ b ∈ i.sources, b.unit = i.unit := by cases i <;> decide
  exact hall b h

section
variable {i : Instr} {s : State} (hlen : ∀ b ∈ i.sources, s.len b = 0)
include hlen

theorem sourceOverflow_of_len_zero : s.sourceOverflow i = none := by
  refine (leastExceeded_none _).mpr (List.forall_mem_map.mpr fun b hb => ?_)
  rw [hlen b hb]
  exact Nat.zero_le _

/-- An empty result leaves `SYM` empty, as a source or as a destination. -/
theorem symLen_of_emptyResult {a : (behaviour i).Result} (ha : EmptyResult i a) :
    (s.writeAll ((behaviour i).content a)).len (symBuf i.unit) = 0 := by
  have hrs := (behaviour i).destinations a
  rcases symBuf_mem i with hb | hb
  · rw [(State.writeAll_other (hrs ▸ Instr.sources_not_destinations i _ hb)).2, hlen _ hb]
  · obtain ⟨xs, hr⟩ := exists_written_of_mem hrs hb
    rw [(writeAll_of_mem hrs hr).2, show xs = [] from ha.noSym _ hr rfl]
    rfl

theorem exec_of_emptyResult (hc : 16 ≤ s.cfg.capByt) {a : (behaviour i).Result}
    (ha : EmptyResult i a) : ∃ t, exec i s = .next t ∧ t.ctrl i.unit = (s.ctrl i.unit).complete true := by
  have hop := ha.op_eq s (s.aux i.unit).free hlen
  rcases hk : (behaviour i).op s (s.aux i.unit).free with ⟨r, k⟩
  obtain rfl : r = .ok a := by rw [← hop, hk]
  have hp := byPriority_ok hk ((leastExceeded_none _).mpr (ha.fits _ hc))
  rw [← sourceOverflow_of_len_zero hlen] at hp
  refine ⟨_, ((behaviour i).exec_eq s).trans (State.command_of_ok hp), ?_⟩
  rw [State.finish_ctrl_same, symLen_of_emptyResult hlen ha, State.writeAll_ctrl]
  rfl

theorem exec_of_empty_container (hi : i = .rleDecb ∨ i = .hufDecb ∨ i = .lzwDecb) :
    ∃ t, exec i s = .next t ∧
      t.ctrl i.unit = (s.ctrl i.unit).raise .malformedSerializedData (errInfoOf 0) := by
  have hop := op_of_empty_container hi hlen (s.aux i.unit).free
  rcases hk : (behaviour i).op s (s.aux i.unit).free with ⟨r, k⟩
  obtain rfl : r = .error (malformed 0) := by rw [← hop, hk]
  have hp := byPriority_error (limits := (behaviour i).limits s.cfg) hk
  rw [← sourceOverflow_of_len_zero hlen] at hp
  refine ⟨_, ((behaviour i).exec_eq s).trans (State.command_of_error hp), ?_⟩
  rw [State.raise_ctrl_same, State.setFree_ctrl]
  rfl

end

/-- Settles O5: right after reset every source of the command is empty. -/
theorem firstCommandAfterReset : Obligations.FirstCommandAfterReset := by
  intro s i hs hc
  have hlen : ∀ b ∈ i.sources, (s.accept i.unit (encode i)).len b = 0 := fun b hb => by
    rw [State.accept_len]
    exact State.unitReset.len_eq (Instr.unit_of_mem_sources hb ▸ hs)
  by_cases hi : i = .rleDecb ∨ i = .hufDecb ∨ i = .lzwDecb
  · obtain ⟨t, ht, hctrl⟩ := exec_of_empty_container hlen hi
    refine ⟨t, ht, ?_⟩
    rw [if_pos hi, hctrl, State.accept_ctrl_same]
    rfl
  · obtain ⟨a, ha⟩ := exists_emptyResult i hi
    obtain ⟨t, ht, hctrl⟩ := exec_of_emptyResult hlen (by rwa [State.accept_cfg]) ha
    refine ⟨t, ht, ?_⟩
    rw [if_neg hi, hctrl, State.accept_ctrl_same]
    rfl

end Sys2Proof.Machine
end

section
/-! PROOFS. The host port (20_memory.md R64 to R77): what each of its four operations returns and replaces. -/

namespace Sys2Proof.Machine

/-! ### An answer of the port (20_memory.md R77) -/

/-- An answer to an event changes the answer and the count of free values of its unit. -/
theorem State.setAux_withAgenda_frame (s : State) (rest : List Event) (u : UnitId) (a : Aux) :
    let t := ({ s with agenda := rest } : State).setAux u a
    (∀ b, s.sameBuf t b) ∧ (∀ w, t.ctrl w = s.ctrl w) ∧ (∀ w, w ≠ u → s.sameUnit t w) ∧
      (∀ w, t.hasScratch w = s.hasScratch w ∧ (s.initialScratch w → t.initialScratch w)) ∧
      t.cfg = s.cfg ∧ t.agenda = rest := by
  refine ⟨fun b => ?_, fun w => ?_, fun w hw => ?_, fun w => ?_, ?_, ?_⟩
  · simp [State.sameBuf]
  · simp
  · exact (s.withAgenda_sameUnit rest _ w).mp (State.setAux_sameUnit _ u a w hw)
  · cases u <;> cases w <;> exact ⟨rfl, id⟩
  · simp
  · simp

/-! ### Registers (10_state.md R23, R30) -/

theorem isLengthReg_iff (u : UnitId) (n : Nat) :
    isLengthReg u n = true ↔ 4 ≤ n ∧ n ≤ 6 ∨ n = 7 ∧ u ≠ .lzw := by
  cases u <;> simp [isLengthReg] <;> omega

theorem State.withAgenda_reg (s : State) (rest : List Event) (u : UnitId) (n : Nat) :
    ({ s with agenda := rest } : State).reg u n = s.reg u n := by cases u <;> rfl

@[simp] theorem State.withAgenda_hasScratch (s : State) (rest : List Event) (u : UnitId) :
    ({ s with agenda := rest } : State).hasScratch u = s.hasScratch u := by cases u <;> rfl

theorem State.withAgenda_mem (s : State) (rest : List Event) (b : Buf) :
    ({ s with agenda := rest } : State).mem b = s.mem b := by cases b <;> rfl

theorem State.reg_of_le (s : State) (u : UnitId) {n : Nat} (h : 8 ≤ n) : s.reg u n = 0 := by
  obtain ⟨m, rfl⟩ := Nat.exists_eq_add_of_le' h
  cases u <;> rfl

/-- The table of the registers of a unit. -/
theorem State.reg_table (s : State) (u : UnitId) :
    s.reg u 0 = (s.ctrl u).cmd ∧ s.reg u 1 = (s.ctrl u).status ∧ s.reg u 2 = (s.ctrl u).err ∧
    s.reg u 3 = (s.ctrl u).errInfo ∧
    s.reg u 4 = (match u with
      | .rle => s.rle.symLen | .huf => s.huf.symLen | .lzw => s.lzw.symLen) ∧
    s.reg u 5 = (match u with
      | .rle => s.rle.runLen | .huf => s.huf.bitLen | .lzw => s.lzw.codLen) ∧
    s.reg u 6 = (match u with
      | .rle => s.rle.bytLen | .huf => s.huf.tabLen | .lzw => s.lzw.bytLen) ∧
    s.reg u 7 = (match u with
      | .rle => s.rle.txtLen | .huf => s.huf.bytLen | .lzw => 0) := by
  cases u <;> exact ⟨rfl, rfl, rfl, rfl, rfl, rfl, rfl, rfl⟩

/-- Settles O22: the answer is the register, or a free word for a length register of a busy unit. -/
theorem registerReads : Obligations.RegisterReads := by
  intro s u n rest ha
  have hstep : step s = .next (({ s with agenda := rest } : State).regRead u n) := step_cons ha
  obtain ⟨hbusy, hlen, hread⟩ | ⟨hopen, hread⟩ := State.regRead_cases { s with agenda := rest } u n
  · rw [State.withAgenda_busy] at hbusy
    rw [isLengthReg_iff] at hlen
    refine ⟨_, Config.freeWord u (s.aux u).free, hstep.trans (congrArg _ hread), ?_, fun _ _ => ?_,
      fun h => ?_, s.setAux_withAgenda_frame rest u _⟩
    · rw [State.answerFree_aux_same, State.withAgenda_aux]
    · rw [State.answerFree_aux_same, State.withAgenda_aux]
    · rcases h with h | h
      · cases hbusy.symm.trans h
      · exact absurd hlen h
  · rw [State.withAgenda_busy, ← Bool.not_eq_true (isLengthReg u n), isLengthReg_iff] at hopen
    obtain ⟨h0, h1, h2, h3, h4, h5, h6, h7⟩ := s.reg_table u
    refine ⟨_, s.reg u n, hstep.trans (congrArg _ hread), ?_, fun hb hlen => ?_,
      fun _ => ⟨?_, ?_, ?_, ?_, ?_, ?_, ?_, ?_, ?_, s.reg_of_le u⟩, s.setAux_withAgenda_frame rest u _⟩
    · rw [State.answer_aux_same, State.withAgenda_reg]
    · rcases hopen with h | h
      · cases hb.symm.trans h
      · exact absurd hlen h
    · rw [State.answer_aux_same, State.withAgenda_aux]
    · rintro rfl; exact h0
    · rintro rfl; exact h1
    · rintro rfl; exact h2
    · rintro rfl; exact h3
    · rintro rfl; exact h4
    · rintro rfl; exact h5
    · rintro rfl; exact h6
    · rintro rfl; exact h7

/-! ### Length registers (10_state.md R30) -/

theorem RleUnit.setLen_of_not_length (x : RleUnit) (v : Word) {n : Nat} (h : ¬ (4 ≤ n ∧ n ≤ 7)) :
    x.setLen n v = x := by
  match n with
  | 0 | 1 | 2 | 3 => rfl
  | 4 | 5 | 6 | 7 => exact absurd (by decide) h
  | _ + 8 => rfl

theorem RleUnit.setLen_reg (x : RleUnit) (n : Nat) (v : Word) (m : Nat) :
    (x.setLen n v).reg m = if m = n ∧ 4 ≤ n ∧ n ≤ 7 then v else x.reg m := by
  by_cases h : 4 ≤ n ∧ n ≤ 7
  · obtain ⟨h4, h7⟩ := h
    interval_cases n <;> (simp only [setLen, reg]; split <;> simp_all)
  · rw [x.setLen_of_not_length v h, if_neg fun hm => h hm.2]

theorem HufUnit.setLen_of_not_length (x : HufUnit) (v : Word) {n : Nat} (h : ¬ (4 ≤ n ∧ n ≤ 7)) :
    x.setLen n v = x := by
  match n with
  | 0 | 1 | 2 | 3 => rfl
  | 4 | 5 | 6 | 7 => exact absurd (by decide) h
  | _ + 8 => rfl

theorem HufUnit.setLen_reg (x : HufUnit) (n : Nat) (v : Word) (m : Nat) :
    (x.setLen n v).reg m = if m = n ∧ 4 ≤ n ∧ n ≤ 7 then v else x.reg m := by
  by_cases h : 4 ≤ n ∧ n ≤ 7
  · obtain ⟨h4, h7⟩ := h
    interval_cases n <;> (simp only [setLen, reg]; split <;> simp_all)
  · rw [x.setLen_of_not_length v h, if_neg fun hm => h hm.2]

theorem LzwUnit.setLen_of_not_length (x : LzwUnit) (v : Word) {n : Nat} (h : ¬ (4 ≤ n ∧ n ≤ 6)) :
    x.setLen n v = x := by
  match n with
  | 0 | 1 | 2 | 3 => rfl
  | 4 | 5 | 6 => exact absurd (by decide) h
  | _ + 7 => rfl

theorem LzwUnit.setLen_reg (x : LzwUnit) (n : Nat) (v : Word) (m : Nat) :
    (x.setLen n v).reg m = if m = n ∧ 4 ≤ n ∧ n ≤ 6 then v else x.reg m := by
  by_cases h : 4 ≤ n ∧ n ≤ 6
  · obtain ⟨h4, h6⟩ := h
    interval_cases n <;> (simp only [setLen, reg]; split <;> simp_all)
  · rw [x.setLen_of_not_length v h, if_neg fun hm => h hm.2]

/-- A length register reads back what was written; no other register changes. -/
theorem State.setLen_reg (s : State) (u : UnitId) (n : Nat) (v : Word) (m : Nat) :
    (s.setLen u n v).reg u m = if m = n ∧ isLengthReg u n = true then v else s.reg u m := by
  cases u <;> simp only [isLengthReg, decide_eq_true_eq]
  · exact s.rle.setLen_reg n v m
  · exact s.huf.setLen_reg n v m
  · exact s.lzw.setLen_reg n v m

theorem State.setLen_of_not_length (s : State) {u : UnitId} {n : Nat} (v : Word)
    (h : isLengthReg u n = false) : s.setLen u n v = s := by
  cases u <;> (simp only [isLengthReg, decide_eq_false_iff_not] at h; unfold setLen)
  · rw [RleUnit.setLen_of_not_length _ v h]
  · rw [HufUnit.setLen_of_not_length _ v h]
  · rw [LzwUnit.setLen_of_not_length _ v h]

theorem State.setLen_sameUnit (s : State) (u : UnitId) (n : Nat) (v : Word) {w : UnitId} (h : w ≠ u) :
    s.sameUnit (s.setLen u n v) w := by
  cases u <;> cases w <;> first | rfl | exact absurd rfl h

theorem State.regWrite_len {s : State} {u : UnitId} {n : Nat} (h : s.busy u = false) (hn : n ≠ 0)
    (v : Word) : s.regWrite u n v = s.setLen u n v := by
  obtain ⟨hbusy, -⟩ | ⟨-, hzero, -⟩ | ⟨-, -, heq⟩ := s.regWrite_cases u n v
  · cases h.symm.trans hbusy
  · exact absurd hzero hn
  · exact heq

/-- Settles O23: the next state is the length register's write, in the state without the event. -/
theorem lengthRegisterWrites : Obligations.LengthRegisterWrites := by
  intro s u n v rest ha hb hn
  have hwrite := State.regWrite_len (s := { s with agenda := rest }) (by simpa using hb) hn v
  obtain ⟨-, haux, hscratch, hpeek⟩ := State.setLen_frame { s with agenda := rest } u n v u
  refine ⟨_, (step_cons ha).trans (congrArg _ hwrite), fun m => ?_, fun h => ?_, fun b j => ?_,
    fun w hw => ?_, ?_, ?_, ?_, ?_⟩
  · rw [State.setLen_reg, State.withAgenda_reg]
    simp only [isLengthReg_iff]
  · exact State.setLen_of_not_length _ v (Bool.eq_false_iff.mpr (mt (isLengthReg_iff u n).mp h))
  · rw [hpeek, State.withAgenda_peek]
  · exact (s.withAgenda_sameUnit rest _ w).mp (State.setLen_sameUnit _ u n v hw)
  · rw [haux, State.withAgenda_aux]
  · rw [hscratch, State.withAgenda_hasScratch]
  · rw [State.setLen_cfg]
  · rw [State.setLen_agenda]

/-! ### Elements (20_memory.md R64, R66, R69) -/

/-- A value of the element type of a buffer is an element of it. -/
theorem exists_elem_of_fits {c : Config} {b : Buf} {v : Elem} (h : v.fits c b = true) :
    ∃ a : b.Elt, b.elem a = v := by
  cases b <;> cases v <;> first | exact ⟨_, rfl⟩ | cases h

theorem State.poke_mem (s : State) (b : Buf) (i : Nat) (a : b.Elt) :
    (s.poke b i (b.elem a)).mem b = (s.mem b).set i a := by
  cases b <;> rfl

theorem State.poke_mem_other (s : State) {b c : Buf} (i : Nat) (v : Elem) (h : c ≠ b) :
    (s.poke b i v).mem c = s.mem c := by
  cases b <;> cases c <;> first | exact absurd rfl h | (cases v <;> rfl)

theorem State.poke_sameUnit (s : State) (b : Buf) (i : Nat) (v : Elem) {u : UnitId} (h : u ≠ b.unit) :
    s.sameUnit (s.poke b i v) u := by
  cases b <;> cases u <;> first | exact absurd rfl h | (cases v <;> rfl)

/-- Every buffer is in canonical form (10_state.md R31). -/
theorem State.Inv.mem_wf {s : State} (h : s.Inv) (b : Buf) : (s.mem b).wf := by
  cases b with
  | rleSym => exact h.rle.sym.rising
  | rleRun => exact h.rle.run.rising
  | rleTxt => exact h.rle.txt.rising
  | rleByt => exact h.rle.byt.rising
  | hufSym => exact h.huf.sym.rising
  | hufBit => exact h.huf.bit.rising
  | hufTab => exact h.huf.tab.rising
  | hufByt => exact h.huf.byt.rising
  | lzwSym => exact h.lzw.sym.rising
  | lzwCod => exact h.lzw.cod.rising
  | lzwByt => exact h.lzw.byt.rising

theorem State.poke_peek {s : State} {b : Buf} {v : Elem} (hv : v.fits s.cfg b = true)
    (hwf : (s.mem b).wf) (i : Nat) (c : Buf) (j : Nat) :
    (s.poke b i v).peek c j = if c = b ∧ j = i then some v else s.peek c j := by
  by_cases hc : c = b
  · subst hc
    obtain ⟨a, rfl⟩ := exists_elem_of_fits hv
    rw [peek_eq_mem, peek_eq_mem, poke_mem, Memory.get_set _ _ _ _ hwf]
    split
    next hj => rw [if_pos ⟨rfl, hj⟩]; rfl
    next hj => rw [if_neg fun h => hj h.2]
  · rw [s.poke_peek_other b c i j v hc, if_neg fun h => hc h.1]

/-- What storing an element leaves as it was, a buffer write does. -/
theorem State.bufWrite_frame {β : Type} (f : State → β) {s : State} {b : Buf} {i : Nat} {v : Elem}
    (h : f (s.poke b i v) = f s) : f (s.bufWrite b i v) = f s := by
  obtain ⟨-, heq⟩ | ⟨-, -, heq⟩ := s.bufWrite_cases b i v
  · rw [heq]
  · rw [heq, h]

theorem State.bufWrite_sameUnit (s : State) (b : Buf) (i : Nat) (v : Elem) {u : UnitId} (h : u ≠ b.unit) :
    s.sameUnit (s.bufWrite b i v) u := by
  obtain ⟨-, heq⟩ | ⟨-, -, heq⟩ := s.bufWrite_cases b i v
  · rw [heq]
    cases u <;> rfl
  · rw [heq]
    exact s.poke_sameUnit b i v h

theorem State.bufWrite_peek {s : State} {b : Buf} {v : Elem} (hb : s.busy b.unit = false)
    (hv : v.fits s.cfg b = true) (hwf : (s.mem b).wf) (i : Nat) (c : Buf) (j : Nat) :
    (s.bufWrite b i v).peek c j =
      if c = b ∧ j = i ∧ i < s.cfg.cap b then some v else s.peek c j := by
  obtain ⟨hlost, heq⟩ | ⟨-, hi, heq⟩ := s.bufWrite_cases b i v
  · have hcap : s.cfg.cap b ≤ i := hlost.resolve_left (by simp [hb])
    rw [heq, if_neg fun h => absurd h.2.2 (not_lt.mpr hcap)]
  · rw [heq, poke_peek hv hwf]
    simp only [hi, and_true]

/-- Settles O24: the next state is the buffer write's, in the state without the event. -/
theorem bufWriteReplacesOneElement : Obligations.BufWriteReplacesOneElement := by
  intro s b i v rest hinv ha hb hv
  have hwf : (State.mem { s with agenda := rest } b).wf := by
    rw [State.withAgenda_mem]
    exact hinv.mem_wf b
  refine ⟨_, (step_cons ha).trans (if_pos hv), fun c j => ?_, fun c => ?_, fun u => ⟨?_, ?_⟩,
    fun u hu => ?_, ?_, ?_, ?_⟩
  · have hpeek := State.bufWrite_peek (s := { s with agenda := rest }) (by simpa using hb) hv hwf i c j
    rwa [State.withAgenda_peek] at hpeek
  · rw [State.bufWrite_frame (State.len · c) (State.poke_len _ b i v c), State.withAgenda_len]
  · rw [State.bufWrite_frame (State.ctrl · u) (State.poke_ctrl _ b i v u), State.withAgenda_ctrl]
  · rw [State.bufWrite_frame (State.aux · u) (State.poke_aux _ b i v u), State.withAgenda_aux]
  · exact (s.withAgenda_sameUnit rest _ u).mp (State.bufWrite_sameUnit _ b i v hu)
  · rw [State.bufWrite_frame (State.hasScratch · b.unit) (State.poke_hasScratch _ b i v b.unit),
      State.withAgenda_hasScratch]
  · rw [State.bufWrite_frame State.cfg (State.poke_cfg _ b i v)]
  · rw [State.bufWrite_frame State.agenda (State.poke_agenda _ b i v)]

/-- The part of `setAux_withAgenda_frame` that statements about one buffer speak of. -/
theorem State.setAux_withAgenda_frame_buf (s : State) (rest : List Event) (b : Buf) (a : Aux) :
    let t := ({ s with agenda := rest } : State).setAux b.unit a
    (∀ c, s.sameBuf t c) ∧ (∀ w, t.ctrl w = s.ctrl w) ∧ (∀ w, w ≠ b.unit → s.sameUnit t w) ∧
      t.hasScratch b.unit = s.hasScratch b.unit ∧ t.cfg = s.cfg ∧ t.agenda = rest := by
  obtain ⟨hbuf, hctrl, hunit, hscratch, hrest⟩ := s.setAux_withAgenda_frame rest b.unit a
  exact ⟨hbuf, hctrl, hunit, (hscratch b.unit).1, hrest⟩

/-- Settles O25: the answer is the element, or a free value of its type. -/
theorem bufReadReturnsTheElement : Obligations.BufReadReturnsTheElement := by
  intro s b i rest ha
  have hstep : step s = .next (({ s with agenda := rest } : State).bufRead b i) := step_cons ha
  obtain ⟨hb, hi, v, hv, hread⟩ | ⟨hopen, hread⟩ := State.bufRead_cases { s with agenda := rest } b i
  · rw [State.withAgenda_busy] at hb
    rw [State.withAgenda_peek] at hv
    refine ⟨_, hstep.trans (congrArg _ hread), fun w _ _ hw => ?_, fun hopen => ?_,
      s.setAux_withAgenda_frame_buf rest b _⟩
    · cases hv.symm.trans hw
      rw [State.answer_aux_same, State.withAgenda_aux]
    · rcases hopen with h | h | h
      · cases hb.symm.trans h
      · exact absurd hi (not_lt.mpr h)
      · cases hv.symm.trans h
  · rw [State.withAgenda_busy, State.withAgenda_peek] at hopen
    refine ⟨_, hstep.trans (congrArg _ hread), fun v hb hi hv => ?_, fun _ => ?_,
      s.setAux_withAgenda_frame_buf rest b _⟩
    · rcases hopen with h | h | h
      · cases hb.symm.trans h
      · exact absurd hi (not_lt.mpr h)
      · cases hv.symm.trans h
    · refine ⟨_, freeElem_fits s.cfg b (s.aux b.unit).free, ?_⟩
      rw [State.answerFree_aux_same, State.withAgenda_aux]

end Sys2Proof.Machine
end

section
/-! PROOFS. The invariant of the machine and the transitions of a unit's phase (10_state.md R26, R31, R36). -/

namespace Sys2Proof.Machine

/-! ### The control registers along the life of a command -/

theorem Ctrl.Inv.busy_iff {u : UnitId} {c : Ctrl} (h : c.Inv u) :
    c.busy = true ↔ c.status = statusBusy := by
  rw [Ctrl.busy]
  obtain h | h | h | h | h := h.phase <;> rw [h] <;> decide

theorem Cause.code_ne_zero (e : Cause) : e.code ≠ 0 := by cases e <;> decide

theorem Cause.code_eq_illegalCommand_iff (e : Cause) :
    e.code = Cause.illegalCommand.code ↔ e = .illegalCommand := by
  cases e <;> decide

theorem Ctrl.raise_inv {u : UnitId} (c : Ctrl) {e : Cause} (info : Word)
    (h : e = .illegalCommand ↔ ∃ r, decode u c.cmd = .error r) : (c.raise e info).Inv u where
  phase := .inr (.inr (.inr (.inr rfl)))
  idle := fun h => absurd h (show statusError ≠ statusIdle by decide)
  noError := fun h => absurd rfl h
  error := fun _ => ⟨e, rfl⟩
  info := fun h => absurd h e.code_ne_zero
  doneLegal := fun h => absurd h (show ¬ (statusError = statusDone false ∨ statusError = statusDone true)
    by decide)
  illegal := fun _ => e.code_eq_illegalCommand_iff.trans h

theorem Ctrl.complete_inv {u : UnitId} {c : Ctrl} (hc : c.Inv u) (hbusy : c.busy = true) {i : Instr}
    (hi : decode u c.cmd = .ok i) (empty : Bool) : (c.complete empty).Inv u where
  phase := by cases empty with
    | false => exact .inr (.inr (.inl rfl))
    | true => exact .inr (.inr (.inr (.inl rfl)))
  idle := fun h => absurd h (show statusDone empty ≠ statusIdle by cases empty <;> decide)
  noError := fun _ => hc.noError (by rw [hc.busy_iff.mp hbusy]; decide)
  error := fun h => absurd h (statusDone_ne_statusError empty)
  info := hc.info
  doneLegal := fun _ => ⟨i, hi⟩
  illegal := fun h => absurd h (statusDone_ne_statusError empty)

/-! ### The invariant, unit by unit and buffer by buffer -/

/-- Buffer `b` is in canonical form within its capacity, each of its elements of its type. -/
structure State.BufInv (s : State) (b : Buf) : Prop where
  mem : (s.mem b).Inv (s.cfg.cap b)
  fits : ∀ c ∈ s.mem b, (b.elem c.2).fits s.cfg b = true

/-- Unit `u` has initial scratch, or none. -/
def State.ScratchFor (s : State) (u : UnitId) : Bool → Prop
  | true => s.initialScratch u
  | false => s.hasScratch u = false

/-- Unit `u` is in a legal state. -/
structure State.UnitInv (s : State) (u : UnitId) : Prop where
  ctrl : (s.ctrl u).Inv u
  scratch : s.ScratchFor u (s.busy u)
  bufs : ∀ b, b.unit = u → s.BufInv b

section
variable {s : State}

theorem State.BufInv.of_mem {b : Buf} (hb : b ≠ .hufTab) (h : (s.mem b).Inv (s.cfg.cap b)) :
    s.BufInv b :=
  ⟨h, fun _ _ => Buf.elem_fits hb s.cfg _⟩

theorem State.scratchFor_rle (busy : Bool) :
    s.ScratchFor .rle busy ↔ s.rle.scratch = if busy then some .init else none := by
  cases busy <;> simp [ScratchFor, initialScratch, hasScratch]

theorem State.scratchFor_huf (busy : Bool) :
    s.ScratchFor .huf busy ↔ s.huf.scratch = if busy then some .init else none := by
  cases busy <;> simp [ScratchFor, initialScratch, hasScratch]

theorem State.scratchFor_lzw (busy : Bool) :
    s.ScratchFor .lzw busy ↔ s.lzw.scratch = if busy then some .init else none := by
  cases busy <;> simp [ScratchFor, initialScratch, hasScratch]

theorem State.unitInv_rle_iff : s.UnitInv .rle ↔ s.rle.Inv s.cfg := by
  constructor
  · intro h
    exact ⟨h.ctrl, (h.bufs .rleSym rfl).mem, (h.bufs .rleRun rfl).mem, (h.bufs .rleTxt rfl).mem,
      (h.bufs .rleByt rfl).mem, (scratchFor_rle _).mp h.scratch⟩
  · intro h
    refine ⟨h.ctrl, (scratchFor_rle _).mpr h.scratch, fun b hb => ?_⟩
    cases b with
    | rleSym => exact .of_mem (by decide) h.sym
    | rleRun => exact .of_mem (by decide) h.run
    | rleTxt => exact .of_mem (by decide) h.txt
    | rleByt => exact .of_mem (by decide) h.byt
    | _ => cases hb

theorem State.unitInv_huf_iff : s.UnitInv .huf ↔ s.huf.Inv s.cfg := by
  constructor
  · intro h
    exact ⟨h.ctrl, (h.bufs .hufSym rfl).mem, (h.bufs .hufBit rfl).mem, (h.bufs .hufTab rfl).mem,
      (h.bufs .hufByt rfl).mem, (h.bufs .hufTab rfl).fits, (scratchFor_huf _).mp h.scratch⟩
  · intro h
    refine ⟨h.ctrl, (scratchFor_huf _).mpr h.scratch, fun b hb => ?_⟩
    cases b with
    | hufSym => exact .of_mem (by decide) h.sym
    | hufBit => exact .of_mem (by decide) h.bit
    | hufTab => exact ⟨h.tab, h.codes⟩
    | hufByt => exact .of_mem (by decide) h.byt
    | _ => cases hb

theorem State.unitInv_lzw_iff : s.UnitInv .lzw ↔ s.lzw.Inv s.cfg := by
  constructor
  · intro h
    exact ⟨h.ctrl, (h.bufs .lzwSym rfl).mem, (h.bufs .lzwCod rfl).mem, (h.bufs .lzwByt rfl).mem,
      (scratchFor_lzw _).mp h.scratch⟩
  · intro h
    refine ⟨h.ctrl, (scratchFor_lzw _).mpr h.scratch, fun b hb => ?_⟩
    cases b with
    | lzwSym => exact .of_mem (by decide) h.sym
    | lzwCod => exact .of_mem (by decide) h.cod
    | lzwByt => exact .of_mem (by decide) h.byt
    | _ => cases hb

theorem State.inv_iff : s.Inv ↔ s.cfg.wellFormed = true ∧ ∀ u, s.UnitInv u := by
  constructor
  · intro h
    refine ⟨h.cfg, fun u => ?_⟩
    cases u with
    | rle => exact unitInv_rle_iff.mpr h.rle
    | huf => exact unitInv_huf_iff.mpr h.huf
    | lzw => exact unitInv_lzw_iff.mpr h.lzw
  · rintro ⟨hcfg, h⟩
    exact ⟨hcfg, unitInv_rle_iff.mp (h .rle), unitInv_huf_iff.mp (h .huf), unitInv_lzw_iff.mp (h .lzw)⟩

theorem State.Inv.unitInv (h : s.Inv) (u : UnitId) : s.UnitInv u := (inv_iff.mp h).2 u

theorem State.Inv.busy_iff (h : s.Inv) (u : UnitId) :
    s.busy u = true ↔ (s.ctrl u).status = statusBusy :=
  (h.unitInv u).ctrl.busy_iff

/-! ### An update of one unit -/

variable {t : State} {u : UnitId}

theorem State.UnitInv.of_sameUnit (h : s.UnitInv u) (hcfg : t.cfg = s.cfg) (hu : s.sameUnit t u) :
    t.UnitInv u := by
  cases u with
  | rle =>
    rw [unitInv_rle_iff] at h ⊢
    rwa [hcfg, ← show s.rle = t.rle from hu]
  | huf =>
    rw [unitInv_huf_iff] at h ⊢
    rwa [hcfg, ← show s.huf = t.huf from hu]
  | lzw =>
    rw [unitInv_lzw_iff] at h ⊢
    rwa [hcfg, ← show s.lzw = t.lzw from hu]

/-- Only the unit that an event is about has to be looked at. -/
theorem State.Inv.update (h : s.Inv) (hcfg : t.cfg = s.cfg) (hother : ∀ v, v ≠ u → s.sameUnit t v)
    (hu : t.UnitInv u) : t.Inv := by
  refine inv_iff.mpr ⟨hcfg ▸ h.cfg, fun v => ?_⟩
  by_cases hv : v = u
  · exact hv ▸ hu
  · exact (h.unitInv v).of_sameUnit hcfg (hother v hv)

theorem State.BufInv.of_mem_eq {b : Buf} (h : s.BufInv b) (hcfg : t.cfg = s.cfg)
    (hmem : t.mem b = s.mem b) : t.BufInv b :=
  ⟨by rw [hcfg, hmem]; exact h.mem, by rw [hcfg, hmem]; exact h.fits⟩

/-- A buffer that takes a content which fits it. -/
theorem State.BufInv.store {b : Buf} {xs : List b.Elt} (h : s.BufInv b) (hcfg : t.cfg = s.cfg)
    (hmem : t.mem b = (s.mem b).store xs) (hfits : Written.fits s.cfg ⟨b, xs⟩) : t.BufInv b := by
  obtain ⟨hlen, helem⟩ := hfits
  refine ⟨?_, fun c hc => ?_⟩
  · rw [hcfg, hmem]
    exact Memory.store_inv _ xs _ hlen h.mem
  · rw [hcfg]
    rw [hmem] at hc
    rcases Memory.mem_store _ xs hc with ⟨-, hx⟩ | hold
    · exact helem _ hx
    · exact h.fits c hold

/-- A buffer that takes one element of its type below its capacity. -/
theorem State.BufInv.set {b : Buf} {i : Nat} {a : b.Elt} (h : s.BufInv b) (hcfg : t.cfg = s.cfg)
    (hmem : t.mem b = (s.mem b).set i a) (hi : i < s.cfg.cap b)
    (hfits : (b.elem a).fits s.cfg b = true) : t.BufInv b := by
  refine ⟨?_, fun c hc => ?_⟩
  · rw [hcfg, hmem]
    exact Memory.set_inv _ i _ a hi h.mem
  · rw [hcfg]
    rw [hmem] at hc
    rcases Memory.mem_set_fst _ i a hc with rfl | hold
    · exact hfits
    · exact h.fits c hold

end

/-! ### What the updates of a unit do to its buffers and its scratch -/

section
variable (s : State) (u : UnitId)

theorem State.setAux_mem (a : Aux) (b : Buf) : (s.setAux u a).mem b = s.mem b := by
  cases u <;> cases b <;> rfl

theorem State.accept_mem (w : Word) (b : Buf) : (s.accept u w).mem b = s.mem b := by
  cases u <;> cases b <;> rfl

theorem State.raise_mem (r : Report) (b : Buf) : (s.raise u r).mem b = s.mem b := by
  cases u <;> cases b <;> rfl

theorem State.setLen_mem (n : Nat) (v : Word) (b : Buf) : (s.setLen u n v).mem b = s.mem b := by
  cases u <;> simp only [setLen, RleUnit.setLen, HufUnit.setLen, LzwUnit.setLen] <;> split <;>
    cases b <;> rfl

theorem State.setAux_scratchFor (a : Aux) (x : Bool) :
    (s.setAux u a).ScratchFor u x ↔ s.ScratchFor u x := by
  cases u <;> cases x <;> rfl

theorem State.setLen_scratchFor (n : Nat) (v : Word) (x : Bool) :
    (s.setLen u n v).ScratchFor u x ↔ s.ScratchFor u x := by
  cases u <;> simp only [setLen, RleUnit.setLen, HufUnit.setLen, LzwUnit.setLen] <;> split <;>
    cases x <;> rfl

theorem State.poke_scratchFor (b : Buf) (i : Nat) (v : Elem) (x : Bool) :
    (s.poke b i v).ScratchFor u x ↔ s.ScratchFor u x := by
  cases b <;> cases v <;> cases u <;> cases x <;> rfl

end

/-! ### Each event keeps the invariant -/

section
variable {s t : State} {u : UnitId}

theorem State.Inv.withAgenda (h : s.Inv) (rest : List Event) : State.Inv { s with agenda := rest } :=
  ⟨h.cfg, h.rle, h.huf, h.lzw⟩

theorem State.Inv.resetInput (h : s.Inv) : s.resetInput.Inv :=
  ⟨h.cfg, RleUnit.reset_inv _ _, HufUnit.reset_inv _ _, LzwUnit.reset_inv _ _⟩

theorem State.Inv.setAux (h : s.Inv) (a : Aux) : (s.setAux u a).Inv := by
  obtain ⟨hctrl, hscratch, hbufs⟩ := h.unitInv u
  have hcfg := s.setAux_cfg u a
  refine h.update hcfg (s.setAux_sameUnit u a)
    ⟨?_, ?_, fun b hb => (hbufs b hb).of_mem_eq hcfg (s.setAux_mem u a b)⟩
  · rwa [setAux_ctrl]
  · rwa [setAux_scratchFor, busy, setAux_ctrl]

theorem State.Inv.accept (h : s.Inv) (w : Word) : (s.accept u w).Inv := by
  have hcfg := s.accept_cfg u w
  refine h.update hcfg (s.accept_sameUnit u w)
    ⟨?_, ?_, fun b hb => ((h.unitInv u).bufs b hb).of_mem_eq hcfg (s.accept_mem u w b)⟩
  · rw [accept_ctrl_same]
    exact Ctrl.accept_inv u w
  · rw [busy, accept_ctrl_same, Ctrl.accept_busy]
    exact s.accept_initialScratch u w

theorem State.Inv.setLen (h : s.Inv) (n : Nat) (v : Word) : (s.setLen u n v).Inv := by
  obtain ⟨hctrl, hscratch, hbufs⟩ := h.unitInv u
  obtain ⟨hsame, -⟩ := s.setLen_frame u n v u
  have hcfg := s.setLen_cfg u n v
  refine h.update hcfg (fun w hw => s.setLen_sameUnit u n v hw)
    ⟨?_, ?_, fun b hb => (hbufs b hb).of_mem_eq hcfg (s.setLen_mem u n v b)⟩
  · rwa [hsame]
  · rwa [setLen_scratchFor, busy, hsame]

theorem State.Inv.poke (h : s.Inv) {b : Buf} {i : Nat} {v : Elem} (hi : i < s.cfg.cap b)
    (hv : v.fits s.cfg b = true) : (s.poke b i v).Inv := by
  obtain ⟨hctrl, hscratch, hbufs⟩ := h.unitInv b.unit
  have hcfg := s.poke_cfg b i v
  refine h.update hcfg (fun w hw => s.poke_sameUnit b i v hw) ⟨?_, ?_, fun c hc => ?_⟩
  · rwa [poke_ctrl]
  · rwa [poke_scratchFor, busy, poke_ctrl]
  · by_cases hcb : c = b
    · subst hcb
      obtain ⟨a, rfl⟩ := exists_elem_of_fits hv
      exact (hbufs c hc).set hcfg (s.poke_mem c i a) hi hv
    · exact (hbufs c hc).of_mem_eq hcfg (s.poke_mem_other i v hcb)

theorem State.Inv.raise (h : s.Inv) {e : Report}
    (he : e.cause = .illegalCommand ↔ ∃ r, decode u (s.ctrl u).cmd = .error r) :
    (s.raise u e).Inv := by
  have hcfg := s.raise_cfg u e
  refine h.update hcfg (s.raise_sameUnit u e)
    ⟨?_, ?_, fun b hb => ((h.unitInv u).bufs b hb).of_mem_eq hcfg (s.raise_mem u e b)⟩
  · rw [raise_ctrl_same]
    exact Ctrl.raise_inv _ _ he
  · rw [busy, raise_ctrl_same, Ctrl.raise_busy]
    exact s.raise_hasScratch_same u e

theorem State.Inv.finish (h : s.Inv) {i : Instr} (hb : s.busy i.unit = true)
    (hi : decode i.unit (s.ctrl i.unit).cmd = .ok i) {rs : List Written}
    (hrs : rs.map Written.buf = i.destinations) (hfits : ∀ r ∈ rs, r.fits s.cfg) (k : Nat) :
    ((s.writeAll rs).finish i.unit k).Inv := by
  have hcfg : ((s.writeAll rs).finish i.unit k).cfg = s.cfg := by rw [finish_cfg, writeAll_cfg]
  refine h.update hcfg (fun v hv => writeAll_finish_sameUnit hrs k hv) ⟨?_, ?_, fun b hbu => ?_⟩
  · rw [finish_ctrl_same, writeAll_ctrl]
    exact Ctrl.complete_inv (h.unitInv i.unit).ctrl hb hi _
  · rw [busy, finish_ctrl_same, Ctrl.complete_busy]
    exact finish_hasScratch_same _ i.unit k
  · have hbuf := (h.unitInv i.unit).bufs b hbu
    by_cases hdest : b ∈ i.destinations
    · obtain ⟨xs, hr⟩ := exists_written_of_mem hrs hdest
      exact hbuf.store hcfg ((finish_mem _ i.unit k b).trans (writeAll_of_mem hrs hr).1) (hfits _ hr)
    · exact hbuf.of_mem_eq hcfg ((finish_mem _ i.unit k b).trans (writeAll_other (hrs ▸ hdest)).1)

theorem State.Inv.completeUnit (h : s.Inv) (hb : s.busy u = true) (ht : s.completeUnit u = .next t) :
    t.Inv := by
  obtain ⟨e, k, heq, he⟩ | ⟨i, rs, k, hi, rfl, heq, hrs, hfits⟩ := s.completeUnit_outcomes u
  · cases heq.symm.trans ht
    exact State.Inv.raise (s := s.setFree u k) (h.setAux _) (by rwa [setFree_ctrl])
  · cases heq.symm.trans ht
    exact h.finish hb hi hrs hfits k

/-- A buffer write that is answered is of the buffer's element type (20_memory.md R66; log 8). -/
theorem State.port_bufWrite_next {b : Buf} {i : Nat} {v : Elem}
    (ht : s.port (.bufWrite b i v) = .next t) : v.fits s.cfg b = true ∧ s.bufWrite b i v = t := by
  rw [State.port] at ht
  split at ht
  next hv => exact ⟨hv, Host.Outcome.next.inj ht⟩
  next => cases ht

theorem State.Inv.port (h : s.Inv) {op : PortOp} (ht : s.port op = .next t) : t.Inv := by
  cases op with
  | regRead u n =>
    cases ht
    obtain ⟨-, -, heq⟩ | ⟨-, heq⟩ := s.regRead_cases u n <;> (rw [heq]; exact h.setAux _)
  | regWrite u n v =>
    cases ht
    obtain ⟨-, heq⟩ | ⟨-, -, heq⟩ | ⟨-, -, heq⟩ := s.regWrite_cases u n v
    · rwa [heq]
    · rw [heq]
      exact h.accept v
    · rw [heq]
      exact h.setLen n v
  | bufRead b i =>
    cases ht
    obtain ⟨-, -, v, -, heq⟩ | ⟨-, heq⟩ := s.bufRead_cases b i <;> (rw [heq]; exact h.setAux _)
  | bufWrite b i v =>
    obtain ⟨hv, rfl⟩ := port_bufWrite_next ht
    obtain ⟨-, heq⟩ | ⟨-, hi, heq⟩ := s.bufWrite_cases b i v
    · rwa [heq]
    · rw [heq]
      exact h.poke hi hv

end

/-- Settles O19: whichever event the step takes, it keeps the invariant. -/
theorem stepKeepsInvariant : Obligations.StepKeepsInvariant := by
  intro s t h ht
  obtain ⟨-, -, heq⟩ | ⟨u, -, hf, heq⟩ | ⟨op, rest, -, heq⟩ | ⟨u, rest, -, hb, heq⟩ |
    ⟨u, rest, -, -, heq⟩ | ⟨rest, -, heq⟩ := step_cases s
  · cases heq.symm.trans ht
    exact h
  · exact h.completeUnit (State.firstBusy_busy hf) (heq.symm.trans ht)
  · exact (h.withAgenda rest).port (heq.symm.trans ht)
  · exact (h.withAgenda rest).completeUnit (by simpa using hb) (heq.symm.trans ht)
  · cases heq.symm.trans ht
    exact h.withAgenda rest
  · cases heq.symm.trans ht
    exact (h.withAgenda rest).resetInput

/-! ### The transitions of a unit's phase (10_state.md R26) -/

/-- A port operation other than the acceptance of a command keeps every unit's control registers. -/
theorem State.port_ctrl {s t : State} {op : PortOp} (ht : s.port op = .next t) (u : UnitId) :
    t.ctrl u = s.ctrl u ∨
      s.busy u = false ∧ t.ctrl u = Ctrl.accept ((t.ctrl u).cmd) ∧ op = .regWrite u 0 (t.ctrl u).cmd := by
  cases op with
  | regRead v n =>
    cases ht
    obtain ⟨-, -, heq⟩ | ⟨-, heq⟩ := s.regRead_cases v n <;> (rw [heq]; exact .inl (setAux_ctrl ..))
  | regWrite v n w =>
    cases ht
    obtain ⟨-, heq⟩ | ⟨hb, rfl, heq⟩ | ⟨-, -, heq⟩ := s.regWrite_cases v n w
    · rw [heq]
      exact .inl rfl
    · rw [heq]
      by_cases hu : u = v
      · subst hu
        rw [accept_ctrl_same]
        exact .inr ⟨hb, rfl, rfl⟩
      · exact .inl (s.accept_ctrl_other v w u hu)
    · rw [heq]
      exact .inl (s.setLen_frame v n w u).1
  | bufRead b i =>
    cases ht
    obtain ⟨-, -, v, -, heq⟩ | ⟨-, heq⟩ := s.bufRead_cases b i <;>
      (rw [heq]; exact .inl (setAux_ctrl ..))
  | bufWrite b i v =>
    obtain ⟨-, rfl⟩ := port_bufWrite_next ht
    exact .inl (bufWrite_frame (State.ctrl · u) (s.poke_ctrl b i v u))

/-- What the completion of unit `v` does to the phase of unit `u`. -/
theorem State.completeUnit_phase {s t : State} {v : UnitId} (h : s.Inv) (hb : s.busy v = true)
    (ht : s.completeUnit v = .next t) (u : UnitId) :
    (t.ctrl u).status = (s.ctrl u).status ∨
      u = v ∧ (s.ctrl u).status = 0x1 ∧
        ((t.ctrl u).status = 0x2 ∨ (t.ctrl u).status = 0xA ∨ (t.ctrl u).status = 0x4) := by
  obtain ⟨t', ht', -, -, hother, hended⟩ := s.exists_completeUnit v
  cases ht'.symm.trans ht
  by_cases hu : u = v
  · subst hu
    refine .inr ⟨rfl, (h.busy_iff u).mp hb, ?_⟩
    obtain hs | ⟨_ | _, hs⟩ := hended
    · exact .inr (.inr hs)
    · exact .inl hs
    · exact .inr (.inl hs)
  · exact .inl (congrArg Ctrl.status (hother u hu).ctrl_eq)

/-- Settles O20: acceptance needs a unit that is not busy, completion a busy one. -/
theorem phaseTransitions : Obligations.PhaseTransitions := by
  intro s t u h ht
  obtain ⟨-, -, heq⟩ | ⟨v, ha, hf, heq⟩ | ⟨op, rest, ha, heq⟩ | ⟨v, rest, ha, hb, heq⟩ |
    ⟨v, rest, -, -, heq⟩ | ⟨rest, ha, heq⟩ := step_cases s
  · cases heq.symm.trans ht
    exact .inl rfl
  · obtain hsame | ⟨-, hbusy, hend⟩ :=
      State.completeUnit_phase h (State.firstBusy_busy hf) (heq.symm.trans ht) u
    · exact .inl hsame
    · exact .inr (.inr (.inl ⟨hbusy, hend, .inl ha⟩))
  · obtain hsame | ⟨hidle, haccept, rfl⟩ := State.port_ctrl (heq.symm.trans ht) u
    · rw [hsame, State.withAgenda_ctrl]
      exact .inl rfl
    · refine .inr (.inl ⟨fun hs => ?_, congrArg Ctrl.status haccept, _, rest, ha⟩)
      rw [State.withAgenda_busy, (h.busy_iff u).mpr hs] at hidle
      cases hidle
  · have hphase := State.completeUnit_phase (h.withAgenda rest) (by simpa using hb) (heq.symm.trans ht) u
    rw [State.withAgenda_ctrl] at hphase
    obtain hsame | ⟨rfl, hbusy, hend⟩ := hphase
    · exact .inl hsame
    · exact .inr (.inr (.inl ⟨hbusy, hend, .inr ⟨rest, ha⟩⟩))
  · cases heq.symm.trans ht
    rw [State.withAgenda_ctrl]
    exact .inl rfl
  · cases heq.symm.trans ht
    refine .inr (.inr (.inr ⟨?_, rest, ha⟩))
    rw [(State.resetInput_unitReset _ u).ctrl_eq]
    rfl

end Sys2Proof.Machine
end

section
/-! PROOFS. What happens in one unit neither depends on the other units nor changes them (20_memory.md section 5,
60_exceptions.md section 5). -/

namespace Sys2Proof.Machine

section
variable {s s' : State} {u : UnitId}

/-! ### Reading one unit -/

theorem State.sameUnit.symm (h : s.sameUnit s' u) : s'.sameUnit s u := by
  cases u <;> exact Eq.symm h

theorem State.sameUnit.aux_eq (h : s.sameUnit s' u) : s'.aux u = s.aux u := by
  cases u <;> exact congrArg (·.aux) (Eq.symm h)

theorem State.sameUnit.busy_eq (h : s.sameUnit s' u) : s'.busy u = s.busy u := by
  rw [busy, busy, h.ctrl_eq]

theorem State.sameUnit.reg_eq (h : s.sameUnit s' u) (n : Nat) : s'.reg u n = s.reg u n := by
  cases u <;> exact congrArg (·.reg n) (Eq.symm h)

theorem State.sameUnit.sameBuf {b : Buf} (h : s.sameUnit s' b.unit) : s.sameBuf s' b := by
  cases b <;> (simp only [Buf.unit, sameUnit] at h; simp only [State.sameBuf, len, peek, h]; simp)

/-! ### Updating one unit -/

theorem State.sameUnit.setCtrl (h : s.sameUnit s' u) (c : Ctrl) :
    (s.setCtrl u c).sameUnit (s'.setCtrl u c) u := by
  cases u <;> (simp only [sameUnit] at h; simp only [sameUnit, State.setCtrl, h])

theorem State.sameUnit.setAux (h : s.sameUnit s' u) (a : Aux) :
    (s.setAux u a).sameUnit (s'.setAux u a) u := by
  cases u <;> (simp only [sameUnit] at h; simp only [sameUnit, State.setAux, h])

theorem State.sameUnit.freshScratch (h : s.sameUnit s' u) :
    (s.freshScratch u).sameUnit (s'.freshScratch u) u := by
  cases u <;> (simp only [sameUnit] at h; simp only [sameUnit, State.freshScratch, h])

theorem State.sameUnit.dropScratch (h : s.sameUnit s' u) :
    (s.dropScratch u).sameUnit (s'.dropScratch u) u := by
  cases u <;> (simp only [sameUnit] at h; simp only [sameUnit, State.dropScratch, h])

theorem State.sameUnit.setLen (h : s.sameUnit s' u) (n : Nat) (v : Word) :
    (s.setLen u n v).sameUnit (s'.setLen u n v) u := by
  cases u <;> (simp only [sameUnit] at h; simp only [sameUnit, State.setLen, h])

theorem State.sameUnit.poke {b : Buf} (h : s.sameUnit s' b.unit) (i : Nat) (v : Elem) :
    (s.poke b i v).sameUnit (s'.poke b i v) b.unit := by
  cases b <;> cases v <;> (simp only [Buf.unit, sameUnit] at h; simp only [Buf.unit, sameUnit, State.poke, h])

theorem State.sameUnit.write (h : s.sameUnit s' u) (b : Buf) (xs : List b.Elt) :
    (s.write b xs).sameUnit (s'.write b xs) u := by
  cases b <;> cases u <;> (simp only [sameUnit] at h; simp only [sameUnit, State.write, h])

theorem State.sameUnit.writeAll (h : s.sameUnit s' u) (rs : List Written) :
    (s.writeAll rs).sameUnit (s'.writeAll rs) u := by
  induction rs generalizing s s' with
  | nil => exact h
  | cons r rs ih => exact ih (h.write r.buf r.elems)

theorem State.sameUnit.setFree (h : s.sameUnit s' u) (k : Nat) :
    (s.setFree u k).sameUnit (s'.setFree u k) u := by
  rw [State.setFree, State.setFree, h.aux_eq]
  exact h.setAux _

theorem State.sameUnit.answer (h : s.sameUnit s' u) (r : Reply) :
    (s.answer u r).sameUnit (s'.answer u r) u := by
  rw [State.answer, State.answer, h.aux_eq]
  exact h.setAux _

theorem State.sameUnit.answerFree (h : s.sameUnit s' u) (f : Nat → Reply) :
    (s.answerFree u f).sameUnit (s'.answerFree u f) u := by
  rw [State.answerFree, State.answerFree, h.aux_eq]
  exact h.setAux _

theorem State.sameUnit.raise (h : s.sameUnit s' u) (e : Report) :
    (s.raise u e).sameUnit (s'.raise u e) u := by
  rw [State.raise, State.raise, h.ctrl_eq]
  exact (h.setCtrl _).dropScratch

theorem symBuf_unit (u : UnitId) : (symBuf u).unit = u := by cases u <;> rfl

theorem State.sameUnit.finish (h : s.sameUnit s' u) (k : Nat) :
    (s.finish u k).sameUnit (s'.finish u k) u := by
  have hlen : s.len (symBuf u) = s'.len (symBuf u) := by
    refine (State.sameUnit.sameBuf ?_).1
    rwa [symBuf_unit]
  rw [State.finish, State.finish, h.ctrl_eq, hlen]
  exact ((h.setCtrl _).dropScratch).setFree k

/-! ### Handling one event (20_memory.md R64 to R71) -/

theorem State.sameUnit.regRead (h : s.sameUnit s' u) (n : Nat) :
    (s.regRead u n).sameUnit (s'.regRead u n) u := by
  rw [State.regRead, State.regRead, h.busy_eq, h.reg_eq]
  split
  · exact h.answerFree _
  · exact h.answer _

theorem State.sameUnit.regWrite (h : s.sameUnit s' u) (n : Nat) (v : Word) :
    (s.regWrite u n v).sameUnit (s'.regWrite u n v) u := by
  rw [State.regWrite, State.regWrite, h.busy_eq]
  split
  · exact h
  · split
    · exact (h.setCtrl _).freshScratch
    · exact h.setLen n v

theorem State.sameUnit.bufRead {b : Buf} (h : s.sameUnit s' b.unit) (hc : s.cfg = s'.cfg) (i : Nat) :
    (s.bufRead b i).sameUnit (s'.bufRead b i) b.unit := by
  rw [State.bufRead, State.bufRead, h.busy_eq, ← h.sameBuf.2 i, ← hc]
  split
  · exact h.answerFree _
  · split
    · exact h.answer _
    · exact h.answerFree _

theorem State.sameUnit.bufWrite {b : Buf} (h : s.sameUnit s' b.unit) (hc : s.cfg = s'.cfg) (i : Nat)
    (v : Elem) : (s.bufWrite b i v).sameUnit (s'.bufWrite b i v) b.unit := by
  rw [State.bufWrite, State.bufWrite, h.busy_eq, ← hc]
  split
  · exact h
  · exact h.poke i v

/-- A command reads nothing but its unit and the capacities. -/
theorem State.sameUnit.exec {i : Instr} (h : s.sameUnit s' i.unit) (hc : s.cfg = s'.cfg) {t : State}
    (ht : exec i s = .next t) : ∃ t', exec i s' = .next t' ∧ t.sameUnit t' i.unit := by
  have hsources : s.sameSources s' i := ⟨hc, fun b hb => by
    obtain ⟨hlen, hpeek⟩ := State.sameUnit.sameBuf (Instr.unit_of_mem_sources hb ▸ h)
    exact ⟨hlen, fun j _ => hpeek j⟩⟩
  have b := behaviour i
  rw [b.exec_eq] at ht ⊢
  rw [← b.reads s s' hsources, ← hc]
  rcases hp : byPriority (s.sourceOverflow i) (b.op s) (b.limits s.cfg) (s.aux i.unit).free with
    ⟨e | a, k⟩
  · cases (State.command_of_error hp).symm.trans ht
    rw [hsources.sourceOverflow_eq, ← h.aux_eq] at hp
    exact ⟨_, State.command_of_error hp, (h.setFree k).raise e⟩
  · cases (State.command_of_ok hp).symm.trans ht
    rw [hsources.sourceOverflow_eq, ← h.aux_eq] at hp
    exact ⟨_, State.command_of_ok hp, (h.writeAll _).finish k⟩

theorem State.sameUnit.completeUnit (h : s.sameUnit s' u) (hc : s.cfg = s'.cfg) {t : State}
    (ht : s.completeUnit u = .next t) : ∃ t', s'.completeUnit u = .next t' ∧ t.sameUnit t' u := by
  obtain ⟨i, hi, heq⟩ | ⟨r, hr, heq⟩ := s.completeUnit_cases u
  · obtain ⟨rfl, -⟩ := (decode_eq_ok_iff_encode u _ i).mp hi
    rw [← h.ctrl_eq] at hi
    rw [completeUnit_legal hi]
    exact h.exec hc (heq.symm.trans ht)
  · cases heq.symm.trans ht
    rw [← h.ctrl_eq] at hr
    exact ⟨_, completeUnit_illegal hr, h.raise illegal⟩

/-- What an event does to its unit depends on that unit and the capacities alone. -/
theorem State.handle_local {e : Event} (he : e.unit = some u) (h : s.sameUnit s' u)
    (hc : s.cfg = s'.cfg) {t : State} (ht : s.handle e = .next t) :
    ∃ t', s'.handle e = .next t' ∧ t.sameUnit t' u := by
  cases e with
  | reset => cases he
  | complete v =>
    cases he
    rw [handle] at ht ⊢
    rw [h.busy_eq]
    split at ht
    next hb =>
      rw [if_pos hb]
      exact h.completeUnit hc ht
    next hb =>
      cases ht
      exact ⟨s', if_neg hb, h⟩
  | port op =>
    cases op with
    | regRead v n =>
      cases he
      cases ht
      exact ⟨_, rfl, h.regRead n⟩
    | regWrite v n w =>
      cases he
      cases ht
      exact ⟨_, rfl, h.regWrite n w⟩
    | bufRead b i =>
      cases he
      cases ht
      exact ⟨_, rfl, h.bufRead hc i⟩
    | bufWrite b i v =>
      cases he
      obtain ⟨hv, rfl⟩ := port_bufWrite_next ht
      exact ⟨_, if_pos (hc ▸ hv), h.bufWrite hc i v⟩

theorem State.sameUnit_refl (s : State) (u : UnitId) : s.sameUnit s u := by cases u <;> rfl

/-- `t` is `s` but for unit `u`. -/
def State.sameBut (s t : State) (u : UnitId) : Prop :=
  t.cfg = s.cfg ∧ t.agenda = s.agenda ∧ ∀ v, v ≠ u → s.sameUnit t v

theorem State.sameBut_refl (s : State) (u : UnitId) : s.sameBut s u :=
  ⟨rfl, rfl, fun v _ => s.sameUnit_refl v⟩

theorem State.setAux_sameBut (s : State) (u : UnitId) (a : Aux) : s.sameBut (s.setAux u a) u :=
  ⟨s.setAux_cfg u a, s.setAux_agenda u a, s.setAux_sameUnit u a⟩

theorem State.regRead_sameBut (s : State) (u : UnitId) (n : Nat) : s.sameBut (s.regRead u n) u := by
  obtain ⟨-, -, heq⟩ | ⟨-, heq⟩ := s.regRead_cases u n <;> (rw [heq]; exact s.setAux_sameBut u _)

theorem State.regWrite_sameBut (s : State) (u : UnitId) (n : Nat) (v : Word) :
    s.sameBut (s.regWrite u n v) u := by
  obtain ⟨-, heq⟩ | ⟨-, -, heq⟩ | ⟨-, -, heq⟩ := s.regWrite_cases u n v <;> rw [heq]
  · exact s.sameBut_refl u
  · exact ⟨s.accept_cfg u v, s.accept_agenda u v, s.accept_sameUnit u v⟩
  · exact ⟨s.setLen_cfg u n v, s.setLen_agenda u n v, fun w hw => s.setLen_sameUnit u n v hw⟩

theorem State.bufRead_sameBut (s : State) (b : Buf) (i : Nat) : s.sameBut (s.bufRead b i) b.unit := by
  obtain ⟨-, -, v, -, heq⟩ | ⟨-, heq⟩ := s.bufRead_cases b i <;>
    (rw [heq]; exact s.setAux_sameBut b.unit _)

theorem State.bufWrite_sameBut (s : State) (b : Buf) (i : Nat) (v : Elem) :
    s.sameBut (s.bufWrite b i v) b.unit :=
  ⟨bufWrite_frame State.cfg (s.poke_cfg b i v), bufWrite_frame State.agenda (s.poke_agenda b i v),
    fun _ hu => s.bufWrite_sameUnit b i v hu⟩

/-- … and it does nothing to the other units. -/
theorem State.handle_frame {e : Event} (he : e.unit = some u) {t : State} (ht : s.handle e = .next t) :
    s.sameBut t u := by
  cases e with
  | reset => cases he
  | complete v =>
    cases he
    rw [handle] at ht
    split at ht
    · obtain ⟨t', ht', hcfg, hagenda, hother, -⟩ := s.exists_completeUnit u
      cases ht'.symm.trans ht
      exact ⟨hcfg, hagenda, hother⟩
    · cases ht
      exact s.sameBut_refl u
  | port op =>
    cases op with
    | regRead v n =>
      cases he
      cases ht
      exact s.regRead_sameBut u n
    | regWrite v n w =>
      cases he
      cases ht
      exact s.regWrite_sameBut u n w
    | bufRead b i =>
      cases he
      cases ht
      exact s.bufRead_sameBut b i
    | bufWrite b i v =>
      cases he
      obtain ⟨-, rfl⟩ := port_bufWrite_next ht
      exact s.bufWrite_sameBut b i v

end

theorem State.ext_of_sameUnit {s t : State} (hcfg : s.cfg = t.cfg) (hagenda : s.agenda = t.agenda)
    (hunits : ∀ u, s.sameUnit t u) : s = t := by
  obtain ⟨c, x, y, z, a⟩ := s
  obtain rfl : c = t.cfg := hcfg
  obtain rfl : x = t.rle := hunits .rle
  obtain rfl : y = t.huf := hunits .huf
  obtain rfl : z = t.lzw := hunits .lzw
  obtain rfl : a = t.agenda := hagenda
  rfl

/-- Settles O16: each event finds its unit as it was, and leaves the other event's result alone. -/
theorem unitsAreIndependent : Obligations.UnitsAreIndependent := by
  intro s t t' e e' u u' he he' hne ht ht'
  obtain ⟨hcfg, hagenda, hother⟩ := State.handle_frame he ht
  obtain ⟨hcfg', hagenda', hother'⟩ := State.handle_frame he' ht'
  obtain ⟨r, hr, hru'⟩ := State.handle_local he' (hother u' hne.symm) hcfg.symm ht'
  obtain ⟨r', hr', hru⟩ := State.handle_local he (hother' u hne) hcfg'.symm ht
  obtain ⟨hrcfg, hragenda, hrother⟩ := State.handle_frame he' hr
  obtain ⟨hrcfg', hragenda', hrother'⟩ := State.handle_frame he hr'
  have hsame : r = r' := by
    refine State.ext_of_sameUnit (by rw [hrcfg, hrcfg', hcfg, hcfg'])
      (by rw [hragenda, hragenda', hagenda, hagenda']) fun w => ?_
    by_cases hu : w = u
    · subst hu
      exact (hrother w hne).symm.trans hru
    · by_cases hu' : w = u'
      · subst hu'
        exact hru'.symm.trans (hrother' w hu)
      · exact ((hother w hu).trans (hrother w hu')).symm.trans ((hother' w hu').trans (hrother' w hu))
  exact ⟨r, hr, hsame ▸ hr'⟩

end Sys2Proof.Machine
end
